-- ==== Sys2Proof/Word.lean ====
section
/-! DEFINITION. The unsigned values of 00_scope.md R8 (u8, u16, u32, u48) and byte sequences of R9. -/

namespace Sys2Proof

/-- u8 (R8). -/
abbrev Byte := BitVec 8
/-- u16 (R8). -/
abbrev U16 := BitVec 16
/-- u32 (R8). -/
abbrev U32 := BitVec 32
/-- u48 (R8): a link address; its first wire byte is bits 47:40 (R63). -/
abbrev U48 := BitVec 48
/-- A byte sequence (R9). -/
abbrev Bytes := List Byte
/-- A link-layer frame as RXQ and TXQ hold it (R14). -/
abbrev Frame := List Byte

end Sys2Proof
end

