-- ==== Sys2Proof/Machine/Bytes.lean ====
section
/-! DEFINITION. Byte order: the `be` and `BE` functions of 00_scope.md R9, big-endian throughout (20_memory.md R62, R63).
`beK` joins K/8 bytes, most significant first; `toBeK` is its inverse; `beKAt W i` reads at offset i of a sequence. -/

namespace Sys2Proof

/-- `be16` of two bytes: a*256 + b (R9). -/
def be16 (a b : Byte) : U16 := a ++ b

/-- `be32` of four bytes (R9). -/
def be32 (a b c d : Byte) : U32 := (a ++ b) ++ (c ++ d)

/-- `be48` of six bytes (R9). -/
def be48 (a b c d e f : Byte) : U48 := ((a ++ b) ++ (c ++ d)) ++ (e ++ f)

/-- Eight bytes as one 64-bit number, most significant first (the transaction layout of log 5). -/
def be64 (a b c d e f g h : Byte) : BitVec 64 := ((a ++ b) ++ (c ++ d)) ++ ((e ++ f) ++ (g ++ h))

/-- `BE16(v)` (R9). -/
def toBe16 (v : U16) : Bytes := [v.extractLsb' 8 8, v.extractLsb' 0 8]

/-- `BE32(v)` (R9). -/
def toBe32 (v : U32) : Bytes :=
  [v.extractLsb' 24 8, v.extractLsb' 16 8, v.extractLsb' 8 8, v.extractLsb' 0 8]

/-- The eight bytes of a 64-bit number, most significant first (log 5). -/
def toBe64 (v : BitVec 64) : Bytes :=
  [v.extractLsb' 56 8, v.extractLsb' 48 8, v.extractLsb' 40 8, v.extractLsb' 32 8,
   v.extractLsb' 24 8, v.extractLsb' 16 8, v.extractLsb' 8 8, v.extractLsb' 0 8]

/-- W[i]; a rule reads only inside W, so what stands outside never matters. -/
def byteAt (W : Bytes) (i : Nat) : Byte := W.getD i 0

/-- be16(W[i..i+2)). -/
def be16At (W : Bytes) (i : Nat) : U16 := be16 (byteAt W i) (byteAt W (i + 1))

/-- be32(W[i..i+4)). -/
def be32At (W : Bytes) (i : Nat) : U32 :=
  be32 (byteAt W i) (byteAt W (i + 1)) (byteAt W (i + 2)) (byteAt W (i + 3))

/-- be48(W[i..i+6)). -/
def be48At (W : Bytes) (i : Nat) : U48 :=
  be48 (byteAt W i) (byteAt W (i + 1)) (byteAt W (i + 2)) (byteAt W (i + 3))
    (byteAt W (i + 4)) (byteAt W (i + 5))

/-- D with D[i] and D[i+1] set to 0, as the checksum rules do with the checksum field (41_checksum.md R141, R147 to R149). -/
def zeroTwo (D : Bytes) (i : Nat) : Bytes := (D.set i 0).set (i + 1) 0

/-- E with E[i..i+2) <- BE16(c) (41_checksum.md R144). -/
def putBe16 (E : Bytes) (i : Nat) (c : U16) : Bytes :=
  (E.set i (c.extractLsb' 8 8)).set (i + 1) (c.extractLsb' 0 8)

end Sys2Proof
end

