-- ==== Sys2Proof/Config.lean ====
section
/-! DEFINITION. The parameters of 00_scope.md R7, which the spec passes to the model as arguments and which are no state (10_state.md R49).
State carries one value of this type in a field that no step changes (log 1), so a statement about every state is about every parameter choice. -/

namespace Sys2Proof

/-- What an enqueue to a full TXQ does (R7, 44_pipeline.md R202); OPEN in the spec (D4). -/
inductive FullPolicy where
  | hold
  | drop
  deriving DecidableEq, Repr

/-- The parameters the source or the platform may choose (R7).
A capacity of `none` is "unbounded". -/
structure Config where
  /-- IBUF_BYTES -/
  ibufBytes : Nat
  /-- RXQ_CAP, in frames -/
  rxqCap : Option Nat
  /-- TXQ_CAP, in frames -/
  txqCap : Option Nat
  /-- TXQ_FULL -/
  txqFull : FullPolicy
  deriving DecidableEq, Repr

/-- PBUF_BYTES, equal to IBUF_BYTES (R7). -/
def Config.pbufBytes (c : Config) : Nat := c.ibufBytes

/-- OOFF_MAX (R7). -/
def Config.ooffMax : Nat := 128

/-- OBUF_BYTES = IBUF_BYTES + 60 + OOFF_MAX (R7). -/
def Config.obufBytes (c : Config) : Nat := c.ibufBytes + 60 + Config.ooffMax

/-- MAX_OPTS (R7). -/
def Config.maxOpts : Nat := 40

/-- MAX_UNK (R7). -/
def Config.maxUnk : Nat := 38

/-- The range R7 gives each parameter. -/
abbrev Config.Ok (c : Config) : Prop :=
  60 ≤ c.ibufBytes ∧ c.ibufBytes ≤ 65535 ∧ (∀ n ∈ c.rxqCap, 0 < n) ∧ (∀ n ∈ c.txqCap, 0 < n)

/-- A queue of capacity `cap` that holds `n` frames has room for one more. -/
def Config.room (cap : Option Nat) (n : Nat) : Bool :=
  match cap with
  | none => true
  | some c => n < c

/-- The choice State.reset makes: IBUF_BYTES at the spec's default (R7); the OPEN ones unbounded and hold. DESIGN CHOICE, log 1. -/
def Config.standard : Config where
  ibufBytes := 65535
  rxqCap := none
  txqCap := none
  txqFull := .hold

end Sys2Proof
end

