-- ==== Sys2Proof/Syntax.lean ====
section
/-! DEFINITION. The instructions: one constructor of `Instr` per row of spec/opcode_table.json, with the operands each row's rule gives it.
Also the TCP option record (00_scope.md R11) and the typed value of a host register transfer (10_state.md R22). -/

namespace Sys2Proof

/-- A TCP option: the closed variant of seven constructors of 00_scope.md R11. -/
inductive TcpOption where
  | eol
  | nop
  | mss (v : U16)
  | ws (s : Byte)
  | sackperm
  | ts (tsval tsecr : U32)
  | unknown (tag : Byte) (data : Bytes)
  deriving DecidableEq, Repr

/-- The value of a host register transfer: an integer, a record, or `none` (10_state.md R22, 45_host_port.md R221, R222).
An integer is carried in 64 bits, wider than every register (log 8). -/
inductive Value where
  | num (v : BitVec 64)
  | opt (o : TcpOption)
  | none
  deriving DecidableEq, Repr

/-- One constructor per row of spec/opcode_table.json.
CMD32 rows: 30_encoding.md R82. HOSTTXN rows: R86. TCPOPT rows: R91, with the record's length byte as an operand (log 11).
ETYPE16 and IPPROTO8 rows: R99, R100. -/
inductive Instr where
  -- CMD32
  | segDecode
  | segEncode
  | segChecksum
  | segGetRaw
  | csumVerifyTcp
  | csumVerifyUdp
  | csumVerifyIcmp
  | csumVerifyIp4
  | segFindOption (kind : Byte)
  | optDecode
  | optEncode (slot : Byte)
  | segNew (link : Bool)
  | ethParse
  | arpParse
  | ip4Parse
  | icmp4Parse
  | udpParse
  | txEnqueue
  | sqStart
  -- HOSTTXN
  | regRead (n : Byte)
  | regWrite (n : Byte) (v : Value)
  | bufRead (b : Byte) (a : U32)
  | bufWrite (b : Byte) (a : U32) (x : Byte)
  -- TCPOPT
  | optEol
  | optNop
  | optMss (len : Byte) (v : U16)
  | optWs (len : Byte) (sc : Byte)
  | optSackperm (len : Byte)
  | optTs (len : Byte) (tsval tsecr : U32)
  | optUnknown (tag len : Byte) (data : Bytes)
  -- ETYPE16
  | etypeIpv4
  | etypeArp
  -- IPPROTO8
  | ipprotoIcmp
  | ipprotoTcp
  | ipprotoUdp
  deriving DecidableEq, Repr

/-- The five kinds of word of spec/opcode_table.json ("format"). -/
inductive Format where
  | cmd32
  | hostTxn
  | tcpOpt
  | etype16
  | ipproto8
  deriving DecidableEq, Repr

/-- The format of an instruction's row. -/
def Instr.format : Instr → Format
  | .segDecode | .segEncode | .segChecksum | .segGetRaw => .cmd32
  | .csumVerifyTcp | .csumVerifyUdp | .csumVerifyIcmp | .csumVerifyIp4 => .cmd32
  | .segFindOption _ | .optDecode | .optEncode _ | .segNew _ => .cmd32
  | .ethParse | .arpParse | .ip4Parse | .icmp4Parse | .udpParse => .cmd32
  | .txEnqueue | .sqStart => .cmd32
  | .regRead _ | .regWrite _ _ | .bufRead _ _ | .bufWrite _ _ _ => .hostTxn
  | .optEol | .optNop | .optMss _ _ | .optWs _ _ | .optSackperm _ | .optTs _ _ _ | .optUnknown _ _ _ => .tcpOpt
  | .etypeIpv4 | .etypeArp => .etype16
  | .ipprotoIcmp | .ipprotoTcp | .ipprotoUdp => .ipproto8

/-- The tag byte of an option: `kind(o)` of 00_scope.md R11. -/
def TcpOption.kind : TcpOption → Byte
  | .eol => 0
  | .nop => 1
  | .mss _ => 2
  | .ws _ => 3
  | .sackperm => 4
  | .ts _ _ => 8
  | .unknown t _ => t

/-- The tags of the six known kinds (30_encoding.md R91). -/
def knownTag (t : Byte) : Bool :=
  t == 0 || t == 1 || t == 2 || t == 3 || t == 4 || t == 8

end Sys2Proof
end

