-- ==== Sys2Proof/WellFormed.lean ====
section
/-! DEFINITION. The checks an instruction's operands must pass to be some word of its format.
Every CMD32 row, selector and buffer transaction passes: its operands' types already say what the encoding admits. -/

namespace Sys2Proof

/-- A record that the transaction layout can carry: UNKNOWN data has a one-byte count (log 5). -/
def TcpOption.wf : TcpOption → Bool
  | .unknown _ d => d.length < 256
  | _ => true

/-- A typed value that the transaction layout can carry. -/
def Value.wf : Value → Bool
  | .opt o => o.wf
  | _ => true

/-- The instruction is the meaning of some word.
A known option's record carries a value only at its fixed length (30_encoding.md R91, log 11); an UNKNOWN's tag is no known tag and its data fills its length (R91, 42_option_chain.md R167). -/
def Instr.wf : Instr → Bool
  | .regWrite _ v => v.wf
  | .optMss len v => len == 4 || v == 0
  | .optWs len sc => len == 3 || sc == 0
  | .optTs len a b => len == 10 || (a == 0 && b == 0)
  | .optUnknown tag len data => !knownTag tag && data.length == len.toNat - 2
  | .segDecode | .segEncode | .segChecksum | .segGetRaw => true
  | .csumVerifyTcp | .csumVerifyUdp | .csumVerifyIcmp | .csumVerifyIp4 => true
  | .segFindOption _ | .optDecode | .optEncode _ | .segNew _ => true
  | .ethParse | .arpParse | .ip4Parse | .icmp4Parse | .udpParse | .txEnqueue | .sqStart => true
  | .regRead _ | .bufRead _ _ | .bufWrite _ _ _ => true
  | .optEol | .optNop | .optSackperm _ => true
  | .etypeIpv4 | .etypeArp | .ipprotoIcmp | .ipprotoTcp | .ipprotoUdp => true

end Sys2Proof
end

