-- ==== Sys2Proof/Decode.lean ====
section
/-! DEFINITION. The decoders, one per format, total and rejecting by name, and after them the encoder.
Command words: 30_encoding.md R81 to R84. Host transactions: R86, in the byte layout of log 5. Option records: R91, R92. Selectors: R99, R100. -/

namespace Sys2Proof

/-- Why some bytes or a word are no instruction. -/
inductive Reject where
  /-- RSV is not 0 (R84 b) -/
  | reservedBits
  /-- OP is not in the opcode map (R84 a) -/
  | reservedOpcode (op : Byte)
  /-- ARG is not legal for OP (R84 c, R83) -/
  | illegalArg (op arg : Byte)
  /-- not as many bytes as the format has -/
  | wrongLength
  /-- a transaction kind other than 0 to 3 (R86) -/
  | noSuchKind (k : Byte)
  /-- the operands of a transaction are no operands of its kind -/
  | malformedOperands
  /-- an option area that is used up holds no record -/
  | emptyArea
  /-- a record without its length byte (42_option_chain.md R160) -/
  | noLengthByte
  /-- a record that overruns the area (R160) -/
  | overrun
  /-- an EtherType or protocol number that is not dispatched (R99, R100) -/
  | notDispatched (sel : U16)
  deriving DecidableEq, Repr

/-! ### Command words -/

/-- A row whose ARG must be 0 (R83, last line). -/
def noArg (op arg : Byte) (i : Instr) : Except Reject Instr :=
  if arg = 0 then .ok i else .error (.illegalArg op arg)

/-- The opcode map of R82 with the legal ARGs of R83. -/
def decodeOp (op arg : Byte) : Except Reject Instr :=
  match op.toNat with
  | 0x01 => noArg op arg .segDecode
  | 0x02 => noArg op arg .segEncode
  | 0x03 => noArg op arg .segChecksum
  | 0x04 => noArg op arg .segGetRaw
  | 0x05 =>
    match arg.toNat with
    | 0 => .ok .csumVerifyTcp
    | 1 => .ok .csumVerifyUdp
    | 2 => .ok .csumVerifyIcmp
    | 3 => .ok .csumVerifyIp4
    | _ => .error (.illegalArg op arg)
  | 0x06 => .ok (.segFindOption arg)
  | 0x07 => noArg op arg .optDecode
  | 0x08 => .ok (.optEncode arg)
  | 0x09 =>
    match arg.toNat with
    | 0 => .ok (.segNew false)
    | 1 => .ok (.segNew true)
    | _ => .error (.illegalArg op arg)
  | 0x10 => noArg op arg .ethParse
  | 0x11 => noArg op arg .arpParse
  | 0x12 => noArg op arg .ip4Parse
  | 0x13 => noArg op arg .icmp4Parse
  | 0x14 => noArg op arg .udpParse
  | 0x20 => noArg op arg .txEnqueue
  | 0x30 => noArg op arg .sqStart
  | _ => .error (.reservedOpcode op)

/-- A command word of format CMD32 (R81): OP is bits 7:0, ARG bits 15:8, RSV bits 31:16. -/
def decodeCommand (w : U32) : Except Reject Instr :=
  if w.extractLsb' 16 16 = 0#16 then decodeOp (w.extractLsb' 0 8) (w.extractLsb' 8 8)
  else .error .reservedBits

/-! ### Host transactions -/

/-- A TcpOption record inside a transaction: a constructor number, then its fields (log 5). -/
def decodeRecord : Bytes → Except Reject TcpOption
  | [k] =>
    match k.toNat with
    | 0 => .ok .eol
    | 1 => .ok .nop
    | 4 => .ok .sackperm
    | _ => .error .malformedOperands
  | [k, x] => if k = 3 then .ok (.ws x) else .error .malformedOperands
  | [k, x, y] =>
    match k.toNat with
    | 2 => .ok (.mss (be16 x y))
    | 6 => if y = 0 then .ok (.unknown x []) else .error .malformedOperands
    | _ => .error .malformedOperands
  | k :: x :: y :: d =>
    match k.toNat with
    | 5 =>
      match d with
      | [c, e, f, g, h, i] => .ok (.ts (be32 x y c e) (be32 f g h i))
      | _ => .error .malformedOperands
    | 6 => if d.length = y.toNat then .ok (.unknown x d) else .error .malformedOperands
    | _ => .error .malformedOperands
  | [] => .error .malformedOperands

/-- A typed value inside a transaction: 0 and eight bytes is an integer, 1 and a record a record, 2 alone is none (log 5). -/
def decodeValue : Bytes → Except Reject Value
  | [] => .error .malformedOperands
  | t :: r =>
    match t.toNat with
    | 0 =>
      match r with
      | [a, b, c, d, e, f, g, h] => .ok (.num (be64 a b c d e f g h))
      | _ => .error .malformedOperands
    | 1 => (decodeRecord r).map .opt
    | 2 => if r = [] then .ok .none else .error .malformedOperands
    | _ => .error .malformedOperands

/-- A host transaction: its kind (R86), then its operands (log 5). -/
def decodeTxn : Bytes → Except Reject Instr
  | [] => .error .wrongLength
  | k :: r =>
    match k.toNat with
    | 0 =>
      match r with
      | [n] => .ok (.regRead n)
      | _ => .error .malformedOperands
    | 1 =>
      match r with
      | n :: v => (decodeValue v).map (.regWrite n)
      | [] => .error .malformedOperands
    | 2 =>
      match r with
      | [b, w, x, y, z] => .ok (.bufRead b (be32 w x y z))
      | _ => .error .malformedOperands
    | 3 =>
      match r with
      | [b, w, x, y, z, v] => .ok (.bufWrite b (be32 w x y z) v)
      | _ => .error .malformedOperands
    | _ => .error (.noSuchKind k)

/-! ### Option records -/

/-- The record at the head of what is left of an option area (R91, R92, 42_option_chain.md R160).
A known kind's value is read when the length byte is the kind's fixed length (log 11); what a wrong length byte does is the instruction's meaning. -/
def decodeOption : Bytes → Except Reject Instr
  | [] => .error .emptyArea
  | t :: r =>
    if t = 0 then .ok .optEol
    else if t = 1 then .ok .optNop
    else
      match r with
      | [] => .error .noLengthByte
      | l :: d =>
        if t = 2 then
          if l = 4 then
            match d with
            | a :: b :: _ => .ok (.optMss l (be16 a b))
            | _ => .error .overrun
          else .ok (.optMss l 0)
        else if t = 3 then
          if l = 3 then
            match d with
            | a :: _ => .ok (.optWs l a)
            | _ => .error .overrun
          else .ok (.optWs l 0)
        else if t = 4 then .ok (.optSackperm l)
        else if t = 8 then
          if l = 10 then
            match d with
            | a :: b :: c :: e :: f :: g :: h :: i :: _ => .ok (.optTs l (be32 a b c e) (be32 f g h i))
            | _ => .error .overrun
          else .ok (.optTs l 0 0)
        else if l.toNat - 2 ≤ d.length then .ok (.optUnknown t l (d.take (l.toNat - 2)))
        else .error .overrun

/-! ### Dispatch selectors -/

/-- The EtherType selectors of R99. -/
def decodeEtype (sel : U16) : Except Reject Instr :=
  if sel = 0x0800 then .ok .etypeIpv4
  else if sel = 0x0806 then .ok .etypeArp
  else .error (.notDispatched sel)

/-- The IPv4 protocol selectors of R100, as SQ_SEL holds them (zero-extended to 16 bits). -/
def decodeIpproto (sel : U16) : Except Reject Instr :=
  if sel = 1 then .ok .ipprotoIcmp
  else if sel = 6 then .ok .ipprotoTcp
  else if sel = 17 then .ok .ipprotoUdp
  else .error (.notDispatched sel)

/-- The decoder: the instruction that bytes of a format stand for.
A command word's four bytes are its bits 7:0 first (the numbering of spec/opcode_table.json, log 6); a selector's bytes are as on the wire. -/
def decode (f : Format) (b : Bytes) : Except Reject Instr :=
  match f with
  | .cmd32 =>
    match b with
    | [w, x, y, z] => decodeCommand (be32 z y x w)
    | _ => .error .wrongLength
  | .hostTxn => decodeTxn b
  | .tcpOpt => decodeOption b
  | .etype16 =>
    match b with
    | [x, y] => decodeEtype (be16 x y)
    | _ => .error .wrongLength
  | .ipproto8 =>
    match b with
    | [x] => decodeIpproto (x.setWidth 16)
    | _ => .error .wrongLength

/-! ### The encoder -/

/-- `command word = (RSV << 16) | (ARG << 8) | OP` with RSV = 0 (R81). -/
def commandWord (op arg : Byte) : U32 := 0#16 ++ (arg ++ op)

/-- The bytes of a command word, bits 7:0 first (log 6). -/
def commandBytes (op arg : Byte) : Bytes := [op, arg, 0, 0]

/-- A record inside a transaction (log 5). -/
def encodeRecord : TcpOption → Bytes
  | .eol => [0]
  | .nop => [1]
  | .mss v => 2 :: toBe16 v
  | .ws s => [3, s]
  | .sackperm => [4]
  | .ts a b => 5 :: (toBe32 a ++ toBe32 b)
  | .unknown t d => 6 :: t :: BitVec.ofNat 8 d.length :: d

/-- A typed value inside a transaction (log 5). -/
def encodeValue : Value → Bytes
  | .num v => 0 :: toBe64 v
  | .opt o => 1 :: encodeRecord o
  | .none => [2]

/-- The bytes of an instruction: R82 for a command, log 5 for a transaction, R91 for an option record, R99 and R100 for a selector. -/
def encode : Instr → Bytes
  | .segDecode => commandBytes 0x01 0
  | .segEncode => commandBytes 0x02 0
  | .segChecksum => commandBytes 0x03 0
  | .segGetRaw => commandBytes 0x04 0
  | .csumVerifyTcp => commandBytes 0x05 0
  | .csumVerifyUdp => commandBytes 0x05 1
  | .csumVerifyIcmp => commandBytes 0x05 2
  | .csumVerifyIp4 => commandBytes 0x05 3
  | .segFindOption k => commandBytes 0x06 k
  | .optDecode => commandBytes 0x07 0
  | .optEncode n => commandBytes 0x08 n
  | .segNew link => commandBytes 0x09 (if link then 1 else 0)
  | .ethParse => commandBytes 0x10 0
  | .arpParse => commandBytes 0x11 0
  | .ip4Parse => commandBytes 0x12 0
  | .icmp4Parse => commandBytes 0x13 0
  | .udpParse => commandBytes 0x14 0
  | .txEnqueue => commandBytes 0x20 0
  | .sqStart => commandBytes 0x30 0
  | .regRead n => [0, n]
  | .regWrite n v => 1 :: n :: encodeValue v
  | .bufRead b a => 2 :: b :: toBe32 a
  | .bufWrite b a x => 3 :: b :: (toBe32 a ++ [x])
  | .optEol => [0]
  | .optNop => [1]
  | .optMss len v => 2 :: len :: (if len = 4 then toBe16 v else [])
  | .optWs len sc => 3 :: len :: (if len = 3 then [sc] else [])
  | .optSackperm len => [4, len]
  | .optTs len a b => 8 :: len :: (if len = 10 then toBe32 a ++ toBe32 b else [])
  | .optUnknown t len d => t :: len :: d
  | .etypeIpv4 => [0x08, 0x00]
  | .etypeArp => [0x08, 0x06]
  | .ipprotoIcmp => [1]
  | .ipprotoTcp => [6]
  | .ipprotoUdp => [17]

/-! ### The table's own numbering -/

/-- The byte at bits 8k+7..8k of a number. -/
def tableByte (w k : Nat) : Byte := BitVec.ofNat 8 (w / 256 ^ k)

/-- The first n bytes of a number, least significant first. -/
def tableBytes (w : Nat) : Nat → Bytes
  | 0 => []
  | n + 1 => tableBytes w n ++ [tableByte w n]

/-- How many bytes a transaction of kind k takes when its operand is an integer (log 5). -/
def txnLength (k : Byte) : Nat :=
  match k.toNat with
  | 0 => 2
  | 1 => 11
  | 2 => 6
  | 3 => 7
  | _ => 1

/-- The format a table word of nbits bits is read in, and its bytes, zeros above nbits (log 7).
32 bits: CMD32. 16 bits: ETYPE16. 8 bits: the protocol numbers 6 and 17 are IPPROTO8, every other byte is the tag of an option record. Any other count: a host transaction. -/
def tableFetch (nbits w : Nat) : Format × Bytes :=
  if nbits = 32 then (.cmd32, tableBytes w 4)
  else if nbits = 16 then (.etype16, [tableByte w 1, tableByte w 0])
  else if nbits = 8 then
    if tableByte w 0 = 6 ∨ tableByte w 0 = 17 then (.ipproto8, [tableByte w 0])
    else (.tcpOpt, tableByte w 0 :: List.replicate 39 0)
  else (.hostTxn, tableBytes w (txnLength (tableByte w 0)))

/-- The instruction the decoder reads from a word in spec/opcode_table.json's numbering. -/
def decodeTableWord (nbits w : Nat) : Option Instr :=
  match decode (tableFetch nbits w).1 (tableFetch nbits w).2 with
  | .ok i => some i
  | .error _ => none

end Sys2Proof
end

