-- ==== Sys2Proof/Machine/State.lean ====
section
/-! DEFINITION. The state of the block, of its sequencer and of the agents around it, as plain data; the reasons a step can stop; the state right after reset.
Registers: 10_state.md R23 to R44. Sequencer: R45. External state: R46. Buffers: R50. The model's own fields stand last (log 2, 9, 10, 14, 16). -/

namespace Sys2Proof.Machine

/-! ### Buffers -/

/-- A buffer's written bytes, addresses strictly rising; an address not listed is unwritten and has no value (10_state.md R50, log 19). -/
abbrev Memory := List Host.Cell

/-- The canonical form: addresses strictly rise. No listed entry can equal an unlisted one, because an unwritten byte has no value. -/
def Memory.wf : Memory → Bool
  | [] => true
  | [_] => true
  | c :: d :: r => decide (c.1 < d.1) && Memory.wf (d :: r)

/-- Every listed address is below the buffer's size. -/
def Memory.within (m : Memory) (size : Nat) : Bool := m.all fun c => c.1 < size

/-- The three buffers (20_memory.md R60). -/
inductive BufId where
  | ibuf
  | pbuf
  | obuf
  deriving DecidableEq, Repr

/-! ### Registers -/

/-- The result codes of STATUS.ERR (10_state.md R25). Codes 10 to 15 are never written, so they have no constructor. -/
inductive Err where
  | none
  | truncated
  | malformedOptions
  | eiv
  | malformedHeader
  | badWindow
  | illegalCommand
  | fatalHalted
  | indexRange
  | badState
  deriving DecidableEq, Repr

/-- STATUS (10_state.md R24). Bits 31:7 read 0 and no host write reaches the register, so only the fields are kept. -/
structure Status where
  err : Err
  fatal : Bool
  found : Bool
  csumOk : Bool
  deriving DecidableEq, Repr

/-- IOFF and ILEN (R27). -/
structure InWin where
  ioff : U32
  ilen : U32
  deriving DecidableEq, Repr

/-- OLEN, OOFF and TXLEN (R28). -/
structure OutRegs where
  olen : U32
  ooff : U32
  txlen : U32
  deriving DecidableEq, Repr

/-- The pseudo-header operand registers (R29). -/
structure PseudoHdr where
  src : U32
  dst : U32
  proto : U16
  len : U16
  deriving DecidableEq, Repr

/-- The scalar registers of SEG (R30); the option slots and PBUF stand beside it in State, the tracking registers in Track. -/
structure Seg where
  sport : U16
  dport : U16
  seqno : U32
  ackno : U32
  hlen : Byte
  flags : BitVec 9
  win : U16
  csum : U16
  urp : U16
  optcnt : BitVec 6
  plen : U32
  deriving DecidableEq, Repr

/-- The tracking registers (R36). -/
structure Track where
  inTrk : U32
  nextTrk : U32
  trk : U32
  parent : U32
  hasParent : Bool
  deriving DecidableEq, Repr

/-- Ethernet result registers (R38). -/
structure EthRegs where
  dst : U48
  src : U48
  etype : U16
  deriving DecidableEq, Repr

/-- ARP result registers (R39). -/
structure ArpRegs where
  htype : U16
  ptype : U16
  hlen : Byte
  plen : Byte
  oper : U16
  sha : U48
  spa : U32
  tha : U48
  tpa : U32
  deriving DecidableEq, Repr

/-- IPv4 result registers (R40). -/
structure IpRegs where
  ver : BitVec 4
  hlen : Byte
  tos : Byte
  tlen : U16
  ident : U16
  flags : BitVec 3
  frag : BitVec 13
  ttl : Byte
  proto : Byte
  csum : U16
  src : U32
  dst : U32
  deriving DecidableEq, Repr

/-- ICMP result registers (R41). -/
structure IcmpRegs where
  type : Byte
  code : Byte
  csum : U16
  rest : U32
  deriving DecidableEq, Repr

/-- UDP result registers (R42). -/
structure UdpRegs where
  sport : U16
  dport : U16
  len : U16
  csum : U16
  deriving DecidableEq, Repr

/-- L_POFF and L_PLEN (R43). -/
structure LayerPayload where
  poff : U32
  plen : U32
  deriving DecidableEq, Repr

/-! ### Sequencer -/

/-- The layers of the dispatch chain (R45). -/
inductive Layer where
  | eth
  | arp
  | ip
  | icmp
  | udp
  | tcp
  deriving DecidableEq, Repr

/-- SQ_PHASE (R45). -/
inductive Phase where
  | idle
  | parse (l : Layer)
  | handle (l : Layer)
  deriving DecidableEq, Repr

/-- The sequencer registers (R44): the two bits of SQ_CTRL, DROPS, CFG_MAC, CFG_IP. -/
structure SqRegs where
  running : Bool
  wired : Bool
  drops : U32
  cfgMac : U48
  cfgIp : U32
  deriving DecidableEq, Repr

/-- The sequencer's own state, which no host transaction reaches (R45). -/
structure SeqState where
  phase : Phase
  flen : U32
  noff : U32
  nlen : U32
  sel : U16
  psrc : U32
  pdst : U32
  deriving DecidableEq, Repr

/-! ### The agents outside the block -/

/-- Who performs a host transaction (45_host_port.md, first paragraph). -/
inductive Agent where
  | host
  | handler
  | arpc
  deriving DecidableEq, Repr

/-- The threads of control that issue transactions: an outside HOST, and the worker, on which handlers and ARPC run (00_scope.md R6, 44_pipeline.md R203). -/
inductive Thread where
  | host
  | worker
  deriving DecidableEq, Repr

/-- A handler's verdict (44_pipeline.md R206). -/
inductive Verdict where
  | cont
  | drop
  deriving DecidableEq, Repr

/-- What some agent does in one step (log 2). -/
inductive Event where
  /-- an agent presents a host transaction, in the byte layout of log 5 -/
  | txn (who : Agent) (bytes : Bytes)
  /-- the running handler's final step (44_pipeline.md R206) -/
  | verdict (v : Verdict)
  /-- SEQ takes its step, if it has one (R204, R205) -/
  | seq
  /-- a held TX_ENQUEUE takes its step, if TXQ has room for it (R202, log 14) -/
  | resume (t : Thread)
  /-- the producer enqueues a frame to RXQ -/
  | rxArrive (f : Frame)
  /-- the consumer dequeues a frame from TXQ -/
  | txTake
  /-- another block instance connected to RXQ takes its oldest frame (R211, log 21) -/
  | rxTakeOther
  /-- another block instance connected to TXQ enqueues a frame (R211, log 21) -/
  | txPutOther (f : Frame)
  /-- ARPC answers `resolve`; none is `pending` (R203) -/
  | resolve (addr : U32) (answer : Option U48)
  /-- ARPC's cache contents become this (10_state.md R46) -/
  | arpcStore (cache : List (U32 × U48))
  /-- the platform asserts reset (70_reset_and_hazards.md R250) -/
  | reset
  deriving DecidableEq, Repr

/-- The option scanner's place in an area: the locals A[i..n) and chain of 42_option_chain.md R160 (log 10).
Between commands it is idle. -/
inductive Scan where
  | idle
  /-- what is left of the area, and the chain so far -/
  | scanning (rest : Bytes) (chain : List TcpOption)
  /-- the scan has failed MALFORMED_OPTIONS -/
  | failed
  deriving DecidableEq, Repr

/-! ### The state -/

/-- The whole machine. -/
structure State where
  /-- the parameters of 00_scope.md R7; no step changes them (log 1) -/
  cfg : Config
  /-- STATUS -/
  status : Status
  /-- RESULT (10_state.md R26) -/
  result : U16
  /-- IOFF, ILEN -/
  win : InWin
  /-- OLEN, OOFF, TXLEN -/
  out : OutRegs
  /-- PH_SRC, PH_DST, PH_PROTO, PH_LEN -/
  ph : PseudoHdr
  /-- the scalar registers of SEG -/
  seg : Seg
  /-- OPT[0..39] (R33) -/
  opts : List TcpOption
  /-- IN_TRK, NEXT_TRK, TRK, TRK_PARENT, TRK_HASPARENT -/
  track : Track
  /-- FOPT (R37) -/
  fopt : Option TcpOption
  /-- ETH_DST to ETH_TYPE -/
  eth : EthRegs
  /-- ARP_HTYPE to ARP_TPA -/
  arp : ArpRegs
  /-- IP_VER to IP_DST -/
  ip : IpRegs
  /-- ICMP_TYPE to ICMP_REST -/
  icmp : IcmpRegs
  /-- UDP_SPORT to UDP_CSUM -/
  udp : UdpRegs
  /-- L_POFF, L_PLEN -/
  lpay : LayerPayload
  /-- SQ_CTRL, DROPS, CFG_MAC, CFG_IP -/
  sq : SqRegs
  /-- SQ_PHASE to SQ_PDST (R45) -/
  seqr : SeqState
  /-- IBUF -/
  ibuf : Memory
  /-- PBUF -/
  pbuf : Memory
  /-- OBUF -/
  obuf : Memory
  /-- RXQ, oldest frame first (R46) -/
  rxq : List Frame
  /-- TXQ, oldest frame first (R46) -/
  txq : List Frame
  /-- ARPC's cache contents, opaque to the block (R46) -/
  arpcCache : List (U32 × U48)
  /-- model's own: what outside agents do, in order (log 2) -/
  inputs : List Event
  /-- model's own: the thread whose transaction is being performed (log 14) -/
  issuer : Thread
  /-- model's own: HOST has a TX_ENQUEUE held (44_pipeline.md R202, log 14) -/
  hostHeld : Bool
  /-- model's own: the worker has a TX_ENQUEUE held (R202, log 14) -/
  workerHeld : Bool
  /-- model's own: the value the last read transaction gave its issuer (log 9) -/
  resp : Option Value
  /-- model's own: ARPC's last answer to `resolve` (log 16) -/
  arpcResp : Option (U32 × Option U48)
  /-- model's own: the option scanner (log 10) -/
  scan : Scan
  deriving DecidableEq, Repr

/-! ### How a step can stop -/

/-- The faults. The manual has one: a read of a buffer byte never written since reset (20_memory.md R69). -/
inductive Fault where
  /-- Raised by BUF_READ and by every command that reads a window, PBUF or OBUF, with the first unwritten byte it meets.
  The spec itself says the run faults (R69, R251): as the spec. -/
  | unwrittenByte (b : BufId) (addr : Nat)
  deriving DecidableEq, Repr

/-- The refusals. -/
inductive Refusal where
  /-- Raised only by an arm of exec whose instruction has no meaning yet. Safe: the run stops. -/
  | notModelled (mnemonic : String)
  /-- Raised by the fetch when an input's bytes are no host transaction (30_encoding.md R86 has four kinds). Safe: no such input exists. -/
  | noTransaction (why : Reject)
  deriving DecidableEq, Repr

/-- The outcome of a meaning. -/
abbrev Out := Host.Outcome State Fault Refusal

/-! ### Reset -/

/-- STATUS after reset (R24). -/
def Status.reset : Status where
  err := .none
  fatal := false
  found := false
  csumOk := false

/-- SEG after reset and after SEG_NEW: an empty segment (R30, 40_segment_codec.md R121). -/
def Seg.empty : Seg where
  sport := 0
  dport := 0
  seqno := 0
  ackno := 0
  hlen := 20
  flags := 0
  win := 0
  csum := 0
  urp := 0
  optcnt := 0
  plen := 0

/-- The state right after reset (70_reset_and_hazards.md R250, R251), with empty queues, an empty cache and no input (log 1, 2, 17). -/
def State.reset : State where
  cfg := Config.standard
  status := Status.reset
  result := 0
  win := ⟨0, 0⟩
  out := ⟨0, 0, 0⟩
  ph := ⟨0, 0, 0, 0⟩
  seg := Seg.empty
  opts := List.replicate 40 .eol
  track := ⟨0, 0, 0, 0, false⟩
  fopt := none
  eth := ⟨0, 0, 0⟩
  arp := ⟨0, 0, 0, 0, 0, 0, 0, 0, 0⟩
  ip := ⟨0, 0, 0, 0, 0, 0, 0, 0, 0, 0, 0, 0⟩
  icmp := ⟨0, 0, 0, 0⟩
  udp := ⟨0, 0, 0, 0⟩
  lpay := ⟨0, 0⟩
  sq := ⟨false, false, 0, 0, 0⟩
  seqr := ⟨.idle, 0, 0, 0, 0, 0, 0⟩
  ibuf := []
  pbuf := []
  obuf := []
  rxq := []
  txq := []
  arpcCache := []
  inputs := []
  issuer := .host
  hostHeld := false
  workerHeld := false
  resp := none
  arpcResp := none
  scan := .idle

end Sys2Proof.Machine
end

