-- ==== Sys2Proof/Machine/Ops.lean ====
section
/-! DEFINITION. The shared operations: MemRead and MemWrite (00_scope.md R10) over a buffer, and the ways a command ends (60_exceptions.md R230):
completing, raising a code, raising EIV. The block has no trap entry and no return (R237): `raise` is all that taking an exception is here. -/

namespace Sys2Proof.Machine

/-! ### Buffers -/

/-- The byte at an address; none is unwritten (10_state.md R50). -/
def Memory.read? : Memory → Nat → Option Byte
  | [], _ => none
  | c :: r, a => if c.1 = a then some c.2 else Memory.read? r a

/-- Write one byte, keeping the addresses rising. -/
def Memory.write : Memory → Nat → Byte → Memory
  | [], a, x => [(a, x)]
  | c :: r, a, x =>
    if a < c.1 then (a, x) :: c :: r
    else if a = c.1 then (a, x) :: r
    else c :: Memory.write r a x

/-- `MemRead(buf, a, n)` (R10): the bytes, or the first unwritten address among them (20_memory.md R69). -/
def Memory.readRange (m : Memory) : Nat → Nat → Except Nat Bytes
  | _, 0 => .ok []
  | a, n + 1 =>
    match m.read? a with
    | none => .error a
    | some x =>
      match Memory.readRange m (a + 1) n with
      | .ok xs => .ok (x :: xs)
      | .error e => .error e

/-- `MemWrite(buf, a, |B|, B)` (R10). -/
def Memory.writeRange : Memory → Nat → Bytes → Memory
  | m, _, [] => m
  | m, a, x :: xs => Memory.writeRange (m.write a x) (a + 1) xs

/-- The buffer a host names by id: 0 IBUF, 1 PBUF, 2 OBUF; 3 or more names none (45_host_port.md R223). -/
def BufId.ofNumber (b : Byte) : Option BufId :=
  match b.toNat with
  | 0 => some .ibuf
  | 1 => some .pbuf
  | 2 => some .obuf
  | _ => none

/-- The size of a buffer (20_memory.md R60). -/
def BufId.size (b : BufId) (c : Config) : Nat :=
  match b with
  | .ibuf => c.ibufBytes
  | .pbuf => c.pbufBytes
  | .obuf => c.obufBytes

/-- The contents of a buffer. -/
def State.buf (s : State) : BufId → Memory
  | .ibuf => s.ibuf
  | .pbuf => s.pbuf
  | .obuf => s.obuf

/-- Replace the contents of a buffer. -/
def State.setBuf (s : State) (b : BufId) (m : Memory) : State :=
  match b with
  | .ibuf => { s with ibuf := m }
  | .pbuf => { s with pbuf := m }
  | .obuf => { s with obuf := m }

/-- One byte of a buffer, as every statement about memory reads it. -/
def State.byte? (s : State) (b : BufId) (a : Nat) : Option Byte := (s.buf b).read? a

/-- Read n bytes of a buffer and go on with them, or fault at the first unwritten one (20_memory.md R69). -/
def withBytes (s : State) (b : BufId) (a n : Nat) (k : Bytes → Out) : Out :=
  match (s.buf b).readRange a n with
  | .ok B => k B
  | .error e => .fault (.unwrittenByte b e)

/-! ### The ways a command ends -/

/-- `STATUS.ERR <- e` and nothing else. -/
def State.setErr (s : State) (e : Err) : State := { s with status := { s.status with err := e } }

/-- `raise Err(e)` for a code that is not fatal: only STATUS.ERR changes (00_scope.md R10, 60_exceptions.md R230 b). -/
def raise (e : Err) (s : State) : Out := .next (s.setErr e)

/-- `raise Err(EIV)`: STATUS.ERR and STATUS.FATAL change and nothing else (R231). -/
def raiseEiv (s : State) : Out :=
  .next { s with status := { s.status with err := .eiv, fatal := true } }

/-- A command that reaches its end: `STATUS.ERR <- NONE` (00_scope.md R10). -/
def complete (s : State) : Out := .next (s.setErr .none)

/-- The check before every command: while STATUS.FATAL = 1 a command only writes FATAL_HALTED (45_host_port.md R225, 60_exceptions.md R231). -/
def issued (body : State → Out) (s : State) : Out :=
  if s.status.fatal then raise .fatalHalted s else body s

/-- Run k after an outcome that is a next state; a fault or a refusal stays. -/
def andThen (o : Out) (k : State → Out) : Out :=
  match o with
  | .next s => k s
  | .fault r => .fault r
  | .refused r => .refused r

end Sys2Proof.Machine
end

