-- ==== Sys2Proof/Machine/Operands.lean ====
section
/-! DEFINITION. Where operands come from: the input window W (20_memory.md R64), the option chain (10_state.md R32),
and the register file as a host transaction reaches it: number, width, access class, legal range, value, store (10_state.md R22 to R44, 45_host_port.md R221, R222). -/

namespace Sys2Proof.Machine

/-! ### The window and the chain -/

/-- Read the window W = IBUF[IOFF..IOFF+ILEN) and go on with it; BAD_WINDOW comes before any byte is read (R64). -/
def withWindow (s : State) (k : Bytes → Out) : Out :=
  if s.win.ioff.toNat + s.win.ilen.toNat > s.cfg.ibufBytes then raise .badWindow s
  else withBytes s .ibuf s.win.ioff.toNat s.win.ilen.toNat k

/-- The option chain OPT[0..OPTCNT) (R32). -/
def State.chain (s : State) : List TcpOption := s.opts.take s.seg.optcnt.toNat

/-- The slots after `for k in 0..|c|-1: OPT[k] <- c[k]`; the others keep their contents (40_segment_codec.md R122, 42_option_chain.md R170). -/
def putChain (opts c : List TcpOption) : List TcpOption := c ++ opts.drop c.length

/-! ### The register space -/

/-- A register of 10_state.md, by name. -/
inductive Reg where
  | cmd | status | result | ioff | ilen | olen | phSrc | phDst | phProto | phLen
  | inTrk | nextTrk | sqCtrl | drops | cfgMac | cfgIp
  | sport | dport | seqno | ackno | hlen | flags | win | csum | urp | optcnt | plen
  | trk | trkParent | trkHasParent | fopt
  | ethDst | ethSrc | ethType
  | arpHtype | arpPtype | arpHlen | arpPlen | arpOper | arpSha | arpSpa | arpTha | arpTpa
  | ipVer | ipHlen | ipTos | ipTlen | ipId | ipFlags | ipFrag | ipTtl | ipProto | ipCsum | ipSrc | ipDst
  | icmpType | icmpCode | icmpCsum | icmpRest
  | udpSport | udpDport | udpLen | udpCsum
  | lPoff | lPlen | ooff | txlen
  | opt (i : Fin 40)
  deriving DecidableEq, Repr

/-- The register a number names; none is reserved (R22). -/
def Reg.ofNumber (n : Byte) : Option Reg :=
  match n.toNat with
  | 0x00 => some .cmd
  | 0x01 => some .status
  | 0x02 => some .result
  | 0x03 => some .ioff
  | 0x04 => some .ilen
  | 0x05 => some .olen
  | 0x06 => some .phSrc
  | 0x07 => some .phDst
  | 0x08 => some .phProto
  | 0x09 => some .phLen
  | 0x0A => some .inTrk
  | 0x0B => some .nextTrk
  | 0x0C => some .sqCtrl
  | 0x0D => some .drops
  | 0x0E => some .cfgMac
  | 0x0F => some .cfgIp
  | 0x10 => some .sport
  | 0x11 => some .dport
  | 0x12 => some .seqno
  | 0x13 => some .ackno
  | 0x14 => some .hlen
  | 0x15 => some .flags
  | 0x16 => some .win
  | 0x17 => some .csum
  | 0x18 => some .urp
  | 0x19 => some .optcnt
  | 0x1A => some .plen
  | 0x1B => some .trk
  | 0x1C => some .trkParent
  | 0x1D => some .trkHasParent
  | 0x1E => some .fopt
  | 0x20 => some .ethDst
  | 0x21 => some .ethSrc
  | 0x22 => some .ethType
  | 0x28 => some .arpHtype
  | 0x29 => some .arpPtype
  | 0x2A => some .arpHlen
  | 0x2B => some .arpPlen
  | 0x2C => some .arpOper
  | 0x2D => some .arpSha
  | 0x2E => some .arpSpa
  | 0x2F => some .arpTha
  | 0x30 => some .arpTpa
  | 0x38 => some .ipVer
  | 0x39 => some .ipHlen
  | 0x3A => some .ipTos
  | 0x3B => some .ipTlen
  | 0x3C => some .ipId
  | 0x3D => some .ipFlags
  | 0x3E => some .ipFrag
  | 0x3F => some .ipTtl
  | 0x40 => some .ipProto
  | 0x41 => some .ipCsum
  | 0x42 => some .ipSrc
  | 0x43 => some .ipDst
  | 0x48 => some .icmpType
  | 0x49 => some .icmpCode
  | 0x4A => some .icmpCsum
  | 0x4B => some .icmpRest
  | 0x50 => some .udpSport
  | 0x51 => some .udpDport
  | 0x52 => some .udpLen
  | 0x53 => some .udpCsum
  | 0x58 => some .lPoff
  | 0x59 => some .lPlen
  | 0x5C => some .ooff
  | 0x5D => some .txlen
  | k => if h : 0x80 ≤ k ∧ k < 0x80 + 40 then some (.opt ⟨k - 0x80, by omega⟩) else none

/-- The host may write the register (access RW). CMD, the one W register, is no storage: writing it issues a command.
IN_TRK is writable, as R36 and 20_memory.md R71 say; 20_memory.md R61's table names only SEQ and SQ_START for it. DESIGN CHOICE, log 23. -/
def Reg.writable : Reg → Bool
  | .ioff | .ilen | .ooff | .txlen | .phSrc | .phDst | .phProto | .phLen => true
  | .inTrk | .cfgMac | .cfgIp => true
  | .sport | .dport | .seqno | .ackno | .hlen | .flags | .win | .csum | .urp | .optcnt | .plen => true
  | .opt _ => true
  | .cmd | .status | .result | .olen | .nextTrk | .sqCtrl | .drops | .trk | .trkParent | .trkHasParent | .fopt => false
  | .ethDst | .ethSrc | .ethType => false
  | .arpHtype | .arpPtype | .arpHlen | .arpPlen | .arpOper | .arpSha | .arpSpa | .arpTha | .arpTpa => false
  | .ipVer | .ipHlen | .ipTos | .ipTlen | .ipId | .ipFlags | .ipFrag | .ipTtl | .ipProto | .ipCsum | .ipSrc | .ipDst => false
  | .icmpType | .icmpCode | .icmpCsum | .icmpRest => false
  | .udpSport | .udpDport | .udpLen | .udpCsum => false
  | .lPoff | .lPlen => false

/-- STATUS.ERR's code (10_state.md R25). -/
def Err.code : Err → BitVec 4
  | .none => 0
  | .truncated => 1
  | .malformedOptions => 2
  | .eiv => 3
  | .malformedHeader => 4
  | .badWindow => 5
  | .illegalCommand => 6
  | .fatalHalted => 7
  | .indexRange => 8
  | .badState => 9

/-- STATUS as a word: ERR 3:0, FATAL 4, FOUND 5, CSUM_OK 6, bits 31:7 zero (R24). -/
def Status.word (s : Status) : U32 :=
  0#25 ++ (BitVec.ofBool s.csumOk ++ (BitVec.ofBool s.found ++ (BitVec.ofBool s.fatal ++ s.err.code)))

/-- SQ_CTRL as a word: STATE bit 0, WIRED bit 1, bits 31:2 zero (R44). -/
def SqRegs.ctrl (q : SqRegs) : U32 := 0#30 ++ (BitVec.ofBool q.wired ++ BitVec.ofBool q.running)

/-- An integer of a register's width as a transfer value. -/
def numValue {w : Nat} (v : BitVec w) : Value := .num (v.setWidth 64)

/-- FOPT as a transfer value (R37). -/
def optionValue : Option TcpOption → Value
  | none => .none
  | some o => .opt o

/-- The value of a register (R221); CMD reads 0 (R23).
NEXT_TRK reads its value, as R36's access R says; R48 says a program sees it only through TRK values. DESIGN CHOICE, log 22. -/
def Reg.read (r : Reg) (s : State) : Value :=
  match r with
  | .cmd => .num 0
  | .status => numValue s.status.word
  | .result => numValue s.result
  | .ioff => numValue s.win.ioff
  | .ilen => numValue s.win.ilen
  | .olen => numValue s.out.olen
  | .phSrc => numValue s.ph.src
  | .phDst => numValue s.ph.dst
  | .phProto => numValue s.ph.proto
  | .phLen => numValue s.ph.len
  | .inTrk => numValue s.track.inTrk
  | .nextTrk => numValue s.track.nextTrk
  | .sqCtrl => numValue s.sq.ctrl
  | .drops => numValue s.sq.drops
  | .cfgMac => numValue s.sq.cfgMac
  | .cfgIp => numValue s.sq.cfgIp
  | .sport => numValue s.seg.sport
  | .dport => numValue s.seg.dport
  | .seqno => numValue s.seg.seqno
  | .ackno => numValue s.seg.ackno
  | .hlen => numValue s.seg.hlen
  | .flags => numValue s.seg.flags
  | .win => numValue s.seg.win
  | .csum => numValue s.seg.csum
  | .urp => numValue s.seg.urp
  | .optcnt => numValue s.seg.optcnt
  | .plen => numValue s.seg.plen
  | .trk => numValue s.track.trk
  | .trkParent => numValue s.track.parent
  | .trkHasParent => numValue (BitVec.ofBool s.track.hasParent)
  | .fopt => optionValue s.fopt
  | .ethDst => numValue s.eth.dst
  | .ethSrc => numValue s.eth.src
  | .ethType => numValue s.eth.etype
  | .arpHtype => numValue s.arp.htype
  | .arpPtype => numValue s.arp.ptype
  | .arpHlen => numValue s.arp.hlen
  | .arpPlen => numValue s.arp.plen
  | .arpOper => numValue s.arp.oper
  | .arpSha => numValue s.arp.sha
  | .arpSpa => numValue s.arp.spa
  | .arpTha => numValue s.arp.tha
  | .arpTpa => numValue s.arp.tpa
  | .ipVer => numValue s.ip.ver
  | .ipHlen => numValue s.ip.hlen
  | .ipTos => numValue s.ip.tos
  | .ipTlen => numValue s.ip.tlen
  | .ipId => numValue s.ip.ident
  | .ipFlags => numValue s.ip.flags
  | .ipFrag => numValue s.ip.frag
  | .ipTtl => numValue s.ip.ttl
  | .ipProto => numValue s.ip.proto
  | .ipCsum => numValue s.ip.csum
  | .ipSrc => numValue s.ip.src
  | .ipDst => numValue s.ip.dst
  | .icmpType => numValue s.icmp.type
  | .icmpCode => numValue s.icmp.code
  | .icmpCsum => numValue s.icmp.csum
  | .icmpRest => numValue s.icmp.rest
  | .udpSport => numValue s.udp.sport
  | .udpDport => numValue s.udp.dport
  | .udpLen => numValue s.udp.len
  | .udpCsum => numValue s.udp.csum
  | .lPoff => numValue s.lpay.poff
  | .lPlen => numValue s.lpay.plen
  | .ooff => numValue s.out.ooff
  | .txlen => numValue s.out.txlen
  | .opt i => .opt (s.opts.getD i.val .eol)

/-- The largest legal value of a register with a legal range (R222); none has no range. -/
def Reg.limit (r : Reg) (c : Config) : Option Nat :=
  match r with
  | .ioff | .ilen => some c.ibufBytes
  | .optcnt => some Config.maxOpts
  | .plen => some c.pbufBytes
  | .ooff => some Config.ooffMax
  | .txlen => some c.obufBytes
  | _ => none

/-- A record that an OPT slot accepts: UNKNOWN data of at most MAX_UNK bytes (10_state.md R33). -/
def slotOk : TcpOption → Bool
  | .unknown _ d => d.length ≤ Config.maxUnk
  | _ => true

/-- `value(n) <- v mod 2^width(n)` for the integer registers a host may write (R222).
IN_TRK is among them (R36); 20_memory.md R61's table leaves the host out. DESIGN CHOICE, log 23. -/
def Reg.store (r : Reg) (v : BitVec 64) (s : State) : State :=
  match r with
  | .ioff => { s with win := { s.win with ioff := v.setWidth 32 } }
  | .ilen => { s with win := { s.win with ilen := v.setWidth 32 } }
  | .ooff => { s with out := { s.out with ooff := v.setWidth 32 } }
  | .txlen => { s with out := { s.out with txlen := v.setWidth 32 } }
  | .phSrc => { s with ph := { s.ph with src := v.setWidth 32 } }
  | .phDst => { s with ph := { s.ph with dst := v.setWidth 32 } }
  | .phProto => { s with ph := { s.ph with proto := v.setWidth 16 } }
  | .phLen => { s with ph := { s.ph with len := v.setWidth 16 } }
  | .inTrk => { s with track := { s.track with inTrk := v.setWidth 32 } }
  | .cfgMac => { s with sq := { s.sq with cfgMac := v.setWidth 48 } }
  | .cfgIp => { s with sq := { s.sq with cfgIp := v.setWidth 32 } }
  | .sport => { s with seg := { s.seg with sport := v.setWidth 16 } }
  | .dport => { s with seg := { s.seg with dport := v.setWidth 16 } }
  | .seqno => { s with seg := { s.seg with seqno := v.setWidth 32 } }
  | .ackno => { s with seg := { s.seg with ackno := v.setWidth 32 } }
  | .hlen => { s with seg := { s.seg with hlen := v.setWidth 8 } }
  | .flags => { s with seg := { s.seg with flags := v.setWidth 9 } }
  | .win => { s with seg := { s.seg with win := v.setWidth 16 } }
  | .csum => { s with seg := { s.seg with csum := v.setWidth 16 } }
  | .urp => { s with seg := { s.seg with urp := v.setWidth 16 } }
  | .optcnt => { s with seg := { s.seg with optcnt := v.setWidth 6 } }
  | .plen => { s with seg := { s.seg with plen := v.setWidth 32 } }
  | _ => s

/-- A host write of a typed value to a register other than CMD (R222).
A read-only register ignores it; a value outside the legal range is ignored; a slot takes only a record it accepts; a record written to an integer register is ignored (log 8). -/
def Reg.write (r : Reg) (v : Value) (s : State) : State :=
  if r.writable then
    match r, v with
    | .opt i, .opt o => if slotOk o then { s with opts := s.opts.set i.val o } else s
    | .opt _, _ => s
    | r, .num x =>
      match r.limit s.cfg with
      | some m => if x.toNat ≤ m then r.store x s else s
      | none => r.store x s
    | _, _ => s
  else s

end Sys2Proof.Machine
end

