-- ==== Sys2Proof/Machine/Flags.lean ====
section
/-! DEFINITION. The flag computations. The block's status flags are STATUS.FOUND and STATUS.CSUM_OK beside FATAL (10_state.md R47);
the nine TCP flags are data, packed in bytes 12 and 13 of the header (30_encoding.md R88, 10_state.md R31). -/

namespace Sys2Proof.Machine

/-- `STATUS.FOUND <- b` (written by SEG_FIND_OPTION only, R24). -/
def State.setFound (s : State) (b : Bool) : State := { s with status := { s.status with found := b } }

/-- `STATUS.CSUM_OK <- b` (written by CSUM_VERIFY only, R24). -/
def State.setCsumOk (s : State) (b : Bool) : State := { s with status := { s.status with csumOk := b } }

/-- FLAGS from bytes 12 and 13: NS is bit 0 of byte 12, the other eight are byte 13 (R88). -/
def flagsOf (b12 b13 : Byte) : BitVec 9 := b12.extractLsb' 0 1 ++ b13

/-- Byte 12 on encode: the data-offset nibble h / 4, three zero bits, NS (R88, R90). -/
def byte12 (h : Nat) (flags : BitVec 9) : Byte :=
  BitVec.ofNat 4 (h / 4) ++ (0#3 ++ flags.extractLsb' 8 1)

/-- Byte 13 on encode: FLAGS[7:0] (R88). -/
def byte13 (flags : BitVec 9) : Byte := flags.extractLsb' 0 8

/-- The header length in bytes that byte 12 declares: 4 times its top nibble (R89). -/
def headerLength (b12 : Byte) : Nat := (b12.extractLsb' 4 4).toNat * 4

end Sys2Proof.Machine
end

