-- ==== Sys2Proof/Machine/Parsers.lean ====
section
/-! DEFINITION. The frame parsers (43_frame_parsers.md R180 to R185) over the layouts of 30_encoding.md R94 to R98.
Each makes all its checks before it writes anything and verifies no checksum (R180). -/

namespace Sys2Proof.Machine

/-- ETH_PARSE (R181). -/
def execEthParse (s : State) : Out :=
  issued (fun s =>
    withWindow s fun W =>
      if W.length < 14 then raise .truncated s
      else
        complete { s with
          eth := ⟨be48At W 0, be48At W 6, be16At W 12⟩
          lpay := ⟨s.win.ioff + 14, s.win.ilen - 14⟩ }) s

/-- The fields ARP_PARSE accepts: Ethernet and IPv4 (R182). -/
def arpAccepted (W : Bytes) : Bool :=
  be16At W 0 == 1 && be16At W 2 == 0x0800 && byteAt W 4 == 6 && byteAt W 5 == 4

/-- The ARP result registers from a packet (R182). -/
def arpRegs (W : Bytes) : ArpRegs where
  htype := be16At W 0
  ptype := be16At W 2
  hlen := byteAt W 4
  plen := byteAt W 5
  oper := be16At W 6
  sha := be48At W 8
  spa := be32At W 14
  tha := be48At W 18
  tpa := be32At W 24

/-- ARP_PARSE (R182). -/
def execArpParse (s : State) : Out :=
  issued (fun s =>
    withWindow s fun W =>
      if W.length < 28 then raise .truncated s
      else if arpAccepted W then
        complete { s with arp := arpRegs W, lpay := ⟨s.win.ioff + 28, 0⟩ }
      else raise .malformedHeader s) s

/-- The checks of IP4_PARSE in the order of R183: the header length in bytes, or the code raised. -/
def ip4Check (W : Bytes) : Except Err Nat :=
  if W.length < 20 then .error .truncated
  else if (byteAt W 0).extractLsb' 4 4 ≠ 4 then .error .malformedHeader
  else
    let ihl := ((byteAt W 0).extractLsb' 0 4).toNat
    if ihl < 5 then .error .malformedHeader
    else if W.length < 4 * ihl then .error .truncated
    else if (be16At W 2).toNat < 4 * ihl then .error .malformedHeader
    else if W.length < (be16At W 2).toNat then .error .truncated
    else .ok (4 * ihl)

/-- The IPv4 result registers from a header of hl bytes (R183). -/
def ipRegs (W : Bytes) (hl : Nat) : IpRegs where
  ver := (byteAt W 0).extractLsb' 4 4
  hlen := BitVec.ofNat 8 hl
  tos := byteAt W 1
  tlen := be16At W 2
  ident := be16At W 4
  flags := (byteAt W 6).extractLsb' 5 3
  frag := (byteAt W 6).extractLsb' 0 5 ++ byteAt W 7
  ttl := byteAt W 8
  proto := byteAt W 9
  csum := be16At W 10
  src := be32At W 12
  dst := be32At W 16

/-- IP4_PARSE (R183): the payload ends at the total length, so padding behind it is excluded. -/
def execIp4Parse (s : State) : Out :=
  issued (fun s =>
    withWindow s fun W =>
      match ip4Check W with
      | .error e => raise e s
      | .ok hl =>
        complete { s with
          ip := ipRegs W hl
          lpay := ⟨s.win.ioff + BitVec.ofNat 32 hl, BitVec.ofNat 32 ((be16At W 2).toNat - hl)⟩ }) s

/-- ICMP4_PARSE (R184). -/
def execIcmp4Parse (s : State) : Out :=
  issued (fun s =>
    withWindow s fun W =>
      if W.length < 8 then raise .truncated s
      else
        complete { s with
          icmp := ⟨byteAt W 0, byteAt W 1, be16At W 2, be32At W 4⟩
          lpay := ⟨s.win.ioff + 8, s.win.ilen - 8⟩ }) s

/-- UDP_PARSE (R185): the payload ends at the UDP length. -/
def execUdpParse (s : State) : Out :=
  issued (fun s =>
    withWindow s fun W =>
      if W.length < 8 then raise .truncated s
      else if (be16At W 4).toNat < 8 then raise .malformedHeader s
      else if W.length < (be16At W 4).toNat then raise .truncated s
      else
        complete { s with
          udp := ⟨be16At W 0, be16At W 2, be16At W 4, be16At W 6⟩
          lpay := ⟨s.win.ioff + 8, BitVec.ofNat 32 ((be16At W 4).toNat - 8)⟩ }) s

end Sys2Proof.Machine
end

