-- ==== Sys2Proof/Machine/Pipeline.lean ====
section
/-! DEFINITION. The commands SQ_START and TX_ENQUEUE (44_pipeline.md R201, R202) and the dispatch selectors (30_encoding.md R99, R100; R205's table). -/

namespace Sys2Proof.Machine

/-- SQ_START (R201): wire the cache, start the worker; a second one is BAD_STATE. -/
def execSqStart (s : State) : Out :=
  issued (fun s =>
    if s.sq.running then raise .badState s
    else
      complete { s with
        sq := { s.sq with wired := true, running := true }
        seqr := { s.seqr with phase := .idle } }) s

/-- The issuing thread's TX_ENQUEUE is held: it has no step yet and nothing is written (R202, log 14). -/
def State.markHeld (s : State) : State :=
  match s.issuer with
  | .host => { s with hostHeld := true }
  | .worker => { s with workerHeld := true }

/-- TXQ has room for a frame (R202). -/
def State.txRoom (s : State) : Bool := Config.room s.cfg.txqCap s.txq.length

/-- TX_ENQUEUE (R202): OBUF[0..TXLEN) goes to TXQ; a full TXQ holds the command or drops the frame, by TXQ_FULL. -/
def execTxEnqueue (s : State) : Out :=
  issued (fun s =>
    if s.txRoom then
      withBytes s .obuf 0 s.out.txlen.toNat fun F => complete { s with txq := s.txq ++ [F] }
    else
      match s.cfg.txqFull with
      | .hold => .next s.markHeld
      | .drop => withBytes s .obuf 0 s.out.txlen.toNat fun _ => complete s) s

/-- A selector's effect: when the handler of layer `at` has finished, `next` is the layer to parse (R205's table).
A selector is consulted in no other phase, where it changes nothing (log 12). -/
def dispatchTo (after next : Layer) (s : State) : Out :=
  if s.seqr.phase = .handle after then .next { s with seqr := { s.seqr with phase := .parse next } }
  else .next s

/-- ETYPE_IPV4: 0x0800 selects PARSE(IP) (R99, R205). -/
def execEtypeIpv4 (s : State) : Out := dispatchTo .eth .ip s

/-- ETYPE_ARP: 0x0806 selects PARSE(ARP) (R99, R205). -/
def execEtypeArp (s : State) : Out := dispatchTo .eth .arp s

/-- IPPROTO_ICMP: 1 selects PARSE(ICMP) (R100, R205). -/
def execIpprotoIcmp (s : State) : Out := dispatchTo .ip .icmp s

/-- IPPROTO_TCP: 6 selects PARSE(TCP) (R100, R205). -/
def execIpprotoTcp (s : State) : Out := dispatchTo .ip .tcp s

/-- IPPROTO_UDP: 17 selects PARSE(UDP) (R100, R205). -/
def execIpprotoUdp (s : State) : Out := dispatchTo .ip .udp s

end Sys2Proof.Machine
end

