-- ==== Sys2Proof/Machine/Checksum.lean ====
section
/-! DEFINITION. The one's-complement checksum primitive and the sequences it is taken over (41_checksum.md R140, R141; 30_encoding.md R93). -/

namespace Sys2Proof.Machine

/-- The sum of the big-endian 16-bit words of D in an unbounded natural; an odd last byte is padded with one zero byte (R140). -/
def wordSum : Bytes → Nat
  | [] => 0
  | [a] => a.toNat * 256
  | a :: b :: r => a.toNat * 256 + b.toNat + wordSum r

/-- `while S > 0xFFFF: S <- (S & 0xFFFF) + (S >> 16)` (R140).
Each turn makes S smaller (R142 a), so S turns are enough. -/
def foldCarry : Nat → Nat → Nat
  | 0, S => S
  | n + 1, S => if S > 0xFFFF then foldCarry n (S % 0x10000 + S / 0x10000) else S

/-- The folded sum of D. -/
def foldedSum (D : Bytes) : Nat := foldCarry (wordSum D) (wordSum D)

/-- `ocsum(D)`: the complement of the folded sum (R140). -/
def ocsum (D : Bytes) : U16 := ~~~ BitVec.ofNat 16 (foldedSum D)

/-- The 12 bytes PH12 = BE32(PH_SRC) ++ BE32(PH_DST) ++ BE16(PH_PROTO) ++ BE16(PH_LEN) (30_encoding.md R93). -/
def PseudoHdr.bytes (p : PseudoHdr) : Bytes :=
  toBe32 p.src ++ toBe32 p.dst ++ toBe16 p.proto ++ toBe16 p.len

/-- `tcp_sum_input(E)`: PH12 ++ E with bytes 28 and 29 zeroed (R141). -/
def tcpSumInput (p : PseudoHdr) (E : Bytes) : Bytes := zeroTwo (p.bytes ++ E) 28

/-- `verify_0` (TCP, R146): the recomputed checksum and whether it equals the carried one. -/
def verifyTcp (p : PseudoHdr) (W : Bytes) : Except Err (U16 × Bool) :=
  if W.length < 20 then .error .truncated
  else
    let c := ocsum (tcpSumInput p W)
    .ok (c, c == be16At W 16)

/-- `verify_1` (UDP, R147): a computed 0 is reported as 0xFFFF, and a carried 0 means no checksum. -/
def verifyUdp (p : PseudoHdr) (W : Bytes) : Except Err (U16 × Bool) :=
  if W.length < 8 then .error .truncated
  else
    let c0 := ocsum (zeroTwo (p.bytes ++ W) 18)
    let c := if c0 = 0 then 0xFFFF else c0
    let carried := be16At W 6
    .ok (c, carried == 0 || c == carried)

/-- `verify_2` (ICMP, R148).
TRUNCATED below 4 bytes, as R148's pseudocode says; 60_exceptions.md R232's table gives the ICMP header 8 bytes and lists CSUM_VERIFY. DESIGN CHOICE, log 24. -/
def verifyIcmp (W : Bytes) : Except Err (U16 × Bool) :=
  if W.length < 4 then .error .truncated
  else
    let c := ocsum (zeroTwo W 2)
    .ok (c, c == be16At W 2)

/-- `verify_3` (IPv4 header, R149). -/
def verifyIp4 (W : Bytes) : Except Err (U16 × Bool) :=
  if W.length < 20 then .error .truncated
  else
    let ihl := ((byteAt W 0).extractLsb' 0 4).toNat
    if ihl < 5 then .error .malformedHeader
    else if W.length < 4 * ihl then .error .truncated
    else
      let c := ocsum (zeroTwo (W.take (4 * ihl)) 10)
      .ok (c, c == be16At W 10)

/-- The common part of CSUM_VERIFY (R145): read W, verify, write RESULT and CSUM_OK.
A mismatch is not an error (60_exceptions.md R234). -/
def csumVerify (verify : Bytes → Except Err (U16 × Bool)) (s : State) : Out :=
  withWindow s fun W =>
    match verify W with
    | .error e => raise e s
    | .ok (c, ok) => complete (State.setCsumOk { s with result := c } ok)

/-- CSUM_VERIFY tcp (R146). -/
def execCsumVerifyTcp (s : State) : Out := issued (csumVerify (verifyTcp s.ph)) s

/-- CSUM_VERIFY udp (R147). -/
def execCsumVerifyUdp (s : State) : Out := issued (csumVerify (verifyUdp s.ph)) s

/-- CSUM_VERIFY icmp (R148). -/
def execCsumVerifyIcmp (s : State) : Out := issued (csumVerify verifyIcmp) s

/-- CSUM_VERIFY ip4 (R149). -/
def execCsumVerifyIp4 (s : State) : Out := issued (csumVerify verifyIp4) s

end Sys2Proof.Machine
end

