-- ==== Sys2Proof/Machine/Options.lean ====
section
/-! DEFINITION. The option chain: the scan of an option area (42_option_chain.md R160), the seven option records as instructions of the scanner (R161 to R167),
the encoding helpers (R168, R169), and the commands OPT_DECODE and OPT_ENCODE (R170, R171). -/

namespace Sys2Proof.Machine

/-! ### One turn of the scan -/

/-- A record with length byte `len`, of a kind whose length must be `fixed`, becomes option o: it is appended and the scan goes on behind it.
It fails if the length cannot advance, overruns the area, or is not the kind's (R160). -/
def Scan.accept (len fixed : Nat) (o : TcpOption) : Scan → Scan
  | .scanning rest chain =>
    if len < 2 ∨ rest.length < len ∨ len ≠ fixed then .failed
    else .scanning (rest.drop len) (chain ++ [o])
  | .idle => .idle
  | .failed => .failed

/-- End-Of-List: appended, and the scan stops; the bytes after it are ignored (R161). -/
def Scan.eol : Scan → Scan
  | .scanning _ chain => .scanning [] (chain ++ [.eol])
  | .idle => .idle
  | .failed => .failed

/-- No-Operation: appended, and the scan advances by 1 (R162). -/
def Scan.nop : Scan → Scan
  | .scanning rest chain => .scanning (rest.drop 1) (chain ++ [.nop])
  | .idle => .idle
  | .failed => .failed

/-- Maximum-Segment-Size, length 4 (R163). -/
def Scan.mss (len : Byte) (v : U16) : Scan → Scan := Scan.accept len.toNat 4 (.mss v)

/-- Window-Scale, length 3 (R164). -/
def Scan.ws (len sc : Byte) : Scan → Scan := Scan.accept len.toNat 3 (.ws sc)

/-- Sack-Permitted, length 2 (R165). -/
def Scan.sackperm (len : Byte) : Scan → Scan := Scan.accept len.toNat 2 .sackperm

/-- Timestamp, length 10 (R166). -/
def Scan.ts (len : Byte) (a b : U32) : Scan → Scan := Scan.accept len.toNat 10 (.ts a b)

/-- Unknown: any length of at least 2 (R167). -/
def Scan.unknown (tag len : Byte) (d : Bytes) : Scan → Scan := Scan.accept len.toNat len.toNat (.unknown tag d)

/-- What a record does to a scan; an instruction that is no option record does nothing to it. -/
def Scan.apply (i : Instr) (sc : Scan) : Scan :=
  match i with
  | .optEol => sc.eol
  | .optNop => sc.nop
  | .optMss len v => sc.mss len v
  | .optWs len x => sc.ws len x
  | .optSackperm len => sc.sackperm len
  | .optTs len a b => sc.ts len a b
  | .optUnknown tag len d => sc.unknown tag len d
  | .segDecode | .segEncode | .segChecksum | .segGetRaw => sc
  | .csumVerifyTcp | .csumVerifyUdp | .csumVerifyIcmp | .csumVerifyIp4 => sc
  | .segFindOption _ | .optDecode | .optEncode _ | .segNew _ => sc
  | .ethParse | .arpParse | .ip4Parse | .icmp4Parse | .udpParse | .txEnqueue | .sqStart => sc
  | .regRead _ | .regWrite _ _ | .bufRead _ _ | .bufWrite _ _ _ => sc
  | .etypeIpv4 | .etypeArp | .ipprotoIcmp | .ipprotoTcp | .ipprotoUdp => sc

/-- One turn of the loop of R160: decode the record at the head of what is left and apply it; no record there is a failure. -/
def Scan.turn (sc : Scan) : Scan :=
  match sc with
  | .scanning (b :: r) chain =>
    match decodeOption (b :: r) with
    | .ok i => Scan.apply i (.scanning (b :: r) chain)
    | .error _ => .failed
  | .scanning [] chain => .scanning [] chain
  | .idle => .idle
  | .failed => .failed

/-- n turns. -/
def Scan.turns : Nat → Scan → Scan
  | 0, sc => sc
  | n + 1, sc => Scan.turns n sc.turn

/-- `decode_options(A)` (R160): none is MALFORMED_OPTIONS.
Each turn uses up at least one byte, so |A| turns are enough. -/
def decodeOptions (A : Bytes) : Option (List TcpOption) :=
  match Scan.turns A.length (.scanning A []) with
  | .scanning _ chain => some chain
  | .idle => none
  | .failed => none

/-! ### The option records as instructions of the scanner -/

/-- Run a scanner instruction: the scan of the state makes its turn; with no scan in progress nothing changes (log 10). -/
def onScan (f : Scan → Scan) (s : State) : Out := .next { s with scan := f s.scan }

/-- OPT_EOL (R161). -/
def execOptEol (s : State) : Out := onScan Scan.eol s

/-- OPT_NOP (R162). -/
def execOptNop (s : State) : Out := onScan Scan.nop s

/-- OPT_MSS (R163). -/
def execOptMss (len : Byte) (v : U16) (s : State) : Out := onScan (Scan.mss len v) s

/-- OPT_WS (R164). -/
def execOptWs (len sc : Byte) (s : State) : Out := onScan (Scan.ws len sc) s

/-- OPT_SACKPERM (R165). -/
def execOptSackperm (len : Byte) (s : State) : Out := onScan (Scan.sackperm len) s

/-- OPT_TS (R166). -/
def execOptTs (len : Byte) (a b : U32) (s : State) : Out := onScan (Scan.ts len a b) s

/-- OPT_UNKNOWN (R167). -/
def execOptUnknown (tag len : Byte) (d : Bytes) (s : State) : Out := onScan (Scan.unknown tag len d) s

/-! ### Encoding -/

/-- `enc_opt(o)` (R168): none is EIV, for an UNKNOWN with a known tag. -/
def encOpt : TcpOption → Option Bytes
  | .eol => some [0x00]
  | .nop => some [0x01]
  | .mss v => some ([0x02, 0x04] ++ toBe16 v)
  | .ws s => some [0x03, 0x03, s]
  | .sackperm => some [0x04, 0x02]
  | .ts a b => some ([0x08, 0x0A] ++ toBe32 a ++ toBe32 b)
  | .unknown t d => if knownTag t then none else some ([t, BitVec.ofNat 8 (2 + d.length)] ++ d)

/-- `enc_chain(c)` (R169): the concatenation, none if any option fails. -/
def encChain : List TcpOption → Option Bytes
  | [] => some []
  | o :: c =>
    match encOpt o, encChain c with
    | some b, some bs => some (b ++ bs)
    | _, _ => none

/-! ### Commands -/

/-- The commit of a decoded chain: slots and OPTCNT (R170). -/
def State.commitChain (s : State) (c : List TcpOption) : State :=
  { s with opts := putChain s.opts c, seg := { s.seg with optcnt := BitVec.ofNat 6 c.length } }

/-- OPT_DECODE (R170): a window over 40 bytes is MALFORMED_OPTIONS (D35). -/
def execOptDecode (s : State) : Out :=
  issued (fun s =>
    withWindow s fun W =>
      if W.length > 40 then raise .malformedOptions s
      else
        match decodeOptions W with
        | none => raise .malformedOptions s
        | some c => complete (s.commitChain c)) s

/-- Write encoded bytes at OBUF[OOFF..) and their count to OLEN (10_state.md R28). -/
def State.putOut (s : State) (E : Bytes) : State :=
  { s with obuf := s.obuf.writeRange s.out.ooff.toNat E, out := { s.out with olen := BitVec.ofNat 32 E.length } }

/-- OPT_ENCODE (R171): the slot must be in the chain; an UNKNOWN with a known tag raises EIV. -/
def execOptEncode (slot : Byte) (s : State) : Out :=
  issued (fun s =>
    if slot.toNat ≥ s.seg.optcnt.toNat then raise .indexRange s
    else
      match encOpt (s.opts.getD slot.toNat .eol) with
      | none => raiseEiv s
      | some B => complete (s.putOut B)) s

end Sys2Proof.Machine
end

