-- ==== Sys2Proof/Machine/SegCodec.lean ====
section
/-! DEFINITION. The segment commands SEG_NEW, SEG_DECODE, SEG_ENCODE, SEG_FIND_OPTION (40_segment_codec.md R121 to R124)
and the segment's checksum commands SEG_CHECKSUM and SEG_GET_RAW (41_checksum.md R143, R144). -/

namespace Sys2Proof.Machine

/-- SEG_NEW (R121): an empty segment with a fresh identity, linked to IN_TRK when LINK is set. Slots and PBUF keep their contents.
It increments NEXT_TRK, as R121 and 10_state.md R36 say; 20_memory.md R61's table names only SEQ and SQ_START for it. DESIGN CHOICE, log 23. -/
def execSegNew (link : Bool) (s : State) : Out :=
  issued (fun s =>
    complete { s with
      seg := Seg.empty
      track := { s.track with
        trk := s.track.nextTrk
        nextTrk := s.track.nextTrk + 1
        parent := if link then s.track.inTrk else 0
        hasParent := link } }) s

/-- The fields SEG_DECODE writes from a window whose header has h bytes and whose area decoded to c (R122). -/
def decodedSeg (W : Bytes) (h : Nat) (c : List TcpOption) : Seg where
  sport := be16At W 0
  dport := be16At W 2
  seqno := be32At W 4
  ackno := be32At W 8
  hlen := BitVec.ofNat 8 h
  flags := flagsOf (byteAt W 12) (byteAt W 13)
  win := be16At W 14
  csum := be16At W 16
  urp := be16At W 18
  optcnt := BitVec.ofNat 6 c.length
  plen := BitVec.ofNat 32 (W.length - h)

/-- The header checks and the scan of SEG_DECODE (R122): the header length and the chain, or the code raised. -/
def decodeHeader (W : Bytes) : Except Err (Nat × List TcpOption) :=
  if W.length < 20 then .error .truncated
  else
    let h := headerLength (byteAt W 12)
    if h < 20 then .error .malformedOptions
    else if W.length < h then .error .truncated
    else
      match decodeOptions ((W.take h).drop 20) with
      | none => .error .malformedOptions
      | some c => .ok (h, c)

/-- The commit of SEG_DECODE (R122). -/
def State.commitSegment (s : State) (W : Bytes) (h : Nat) (c : List TcpOption) : State :=
  { s with
    seg := decodedSeg W h c
    opts := putChain s.opts c
    pbuf := s.pbuf.writeRange 0 (W.drop h)
    track := { s.track with trk := s.track.inTrk, parent := 0, hasParent := false } }

/-- SEG_DECODE (R122). -/
def execSegDecode (s : State) : Out :=
  issued (fun s =>
    withWindow s fun W =>
      match decodeHeader W with
      | .error e => raise e s
      | .ok (h, c) => complete (s.commitSegment W h c)) s

/-- The 20 fixed bytes of the header with checksum field c and header length h (R123, 30_encoding.md R87, R88). -/
def headerBytes (g : Seg) (h : Nat) (c : U16) : Bytes :=
  toBe16 g.sport ++ toBe16 g.dport ++ toBe32 g.seqno ++ toBe32 g.ackno
    ++ [byte12 h g.flags] ++ [byte13 g.flags]
    ++ toBe16 g.win ++ toBe16 c ++ toBe16 g.urp

/-- The option bytes of the chain, or none for EIV: an option that cannot be encoded, or a header length that is no multiple of 4 or over 60 (R123, 90_conflicts.md C10). -/
def encodedOptions (s : State) : Option Bytes :=
  match encChain s.chain with
  | none => none
  | some O => if (20 + O.length) % 4 ≠ 0 ∨ 20 + O.length > 60 then none else some O

/-- `enc_segment(c)` and what follows it (R123): EIV, a fault on an unwritten payload byte, or go on with the header length and the bytes. -/
def withSegment (s : State) (c : U16) (k : Nat → Bytes → Out) : Out :=
  match encodedOptions s with
  | none => raiseEiv s
  | some O =>
    withBytes s .pbuf 0 s.seg.plen.toNat fun P =>
      k (20 + O.length) (headerBytes s.seg (20 + O.length) c ++ O ++ P)

/-- SEG_ENCODE (R123): CSUM is emitted as stored. -/
def execSegEncode (s : State) : Out :=
  issued (fun s =>
    withSegment s s.seg.csum fun h E =>
      complete (State.putOut { s with seg := { s.seg with hlen := BitVec.ofNat 8 h } } E)) s

/-- SEG_CHECKSUM (41_checksum.md R143). -/
def execSegChecksum (s : State) : Out :=
  issued (fun s =>
    withSegment s 0 fun _ E => complete { s with result := ocsum (tcpSumInput s.ph E) }) s

/-- SEG_GET_RAW (R144). -/
def execSegGetRaw (s : State) : Out :=
  issued (fun s =>
    withSegment s 0 fun h E =>
      let c := ocsum (tcpSumInput s.ph E)
      complete (State.putOut
        { s with seg := { s.seg with csum := c, hlen := BitVec.ofNat 8 h }, result := c }
        (putBe16 E 16 c))) s

/-- SEG_FIND_OPTION (R124): the first chain option of the kind. -/
def execSegFindOption (kind : Byte) (s : State) : Out :=
  issued (fun s =>
    let r := s.chain.find? fun o => o.kind == kind
    complete (State.setFound { s with fopt := r } r.isSome)) s

end Sys2Proof.Machine
end

