-- ==== Sys2Proof/Machine/HostPort.lean ====
section
/-! DEFINITION. The host port (45_host_port.md R221 to R225): REG_READ, REG_WRITE, BUF_READ, BUF_WRITE, and the issue of a command word. -/

namespace Sys2Proof.Machine

/-- The value REG_READ n gives: 0 for a reserved number (R221, 10_state.md R22). -/
def regValue (n : Byte) (s : State) : Value :=
  match Reg.ofNumber n with
  | none => .num 0
  | some r => r.read s

/-- REG_READ n (R221): no side effect; the value goes to the issuer, in the model's field `resp` (log 9). -/
def execRegRead (n : Byte) (s : State) : Out := .next { s with resp := some (regValue n s) }

/-- Execute the rule of a command; an instruction that is no command has none and is ILLEGAL_COMMAND (no command word decodes to one). -/
def runCommand (i : Instr) (s : State) : Out :=
  match i with
  | .segDecode => execSegDecode s
  | .segEncode => execSegEncode s
  | .segChecksum => execSegChecksum s
  | .segGetRaw => execSegGetRaw s
  | .csumVerifyTcp => execCsumVerifyTcp s
  | .csumVerifyUdp => execCsumVerifyUdp s
  | .csumVerifyIcmp => execCsumVerifyIcmp s
  | .csumVerifyIp4 => execCsumVerifyIp4 s
  | .segFindOption k => execSegFindOption k s
  | .optDecode => execOptDecode s
  | .optEncode n => execOptEncode n s
  | .segNew link => execSegNew link s
  | .ethParse => execEthParse s
  | .arpParse => execArpParse s
  | .ip4Parse => execIp4Parse s
  | .icmp4Parse => execIcmp4Parse s
  | .udpParse => execUdpParse s
  | .txEnqueue => execTxEnqueue s
  | .sqStart => execSqStart s
  | .regRead _ | .regWrite _ _ | .bufRead _ _ | .bufWrite _ _ _ => raise .illegalCommand s
  | .optEol | .optNop | .optMss _ _ | .optWs _ _ | .optSackperm _ | .optTs _ _ _ | .optUnknown _ _ _ =>
    raise .illegalCommand s
  | .etypeIpv4 | .etypeArp | .ipprotoIcmp | .ipprotoTcp | .ipprotoUdp => raise .illegalCommand s

/-- Command issue (R225): FATAL_HALTED first, then ILLEGAL_COMMAND for a word that is no command, then the command's rule. -/
def issueWord (w : U32) (s : State) : Out :=
  issued (fun s =>
    match decodeCommand w with
    | .error _ => raise .illegalCommand s
    | .ok i => runCommand i s) s

/-- REG_WRITE n, v (R222): CMD issues a command; a reserved number is ignored; every other register as `Reg.write`.
A value wider than CMD is cut to 32 bits, and a record written to CMD is no command word and is ignored (log 8). -/
def execRegWrite (n : Byte) (v : Value) (s : State) : Out :=
  match Reg.ofNumber n with
  | none => .next s
  | some .cmd =>
    match v with
    | .num x => issueWord (x.setWidth 32) s
    | .opt _ => .next s
    | .none => .next s
  | some r => .next (r.write v s)

/-- BUF_READ b, a (R223): 0x00 outside a buffer, a fault on an unwritten byte; the byte goes to the issuer in `resp` (log 9). -/
def execBufRead (b : Byte) (a : U32) (s : State) : Out :=
  match BufId.ofNumber b with
  | none => .next { s with resp := some (.num 0) }
  | some id =>
    if a.toNat ≥ id.size s.cfg then .next { s with resp := some (.num 0) }
    else
      match s.byte? id a.toNat with
      | none => .fault (.unwrittenByte id a.toNat)
      | some x => .next { s with resp := some (numValue x) }

/-- BUF_WRITE b, a, x (R224): ignored outside a buffer. -/
def execBufWrite (b : Byte) (a : U32) (x : Byte) (s : State) : Out :=
  match BufId.ofNumber b with
  | none => .next s
  | some id =>
    if a.toNat ≥ id.size s.cfg then .next s
    else .next (s.setBuf id ((s.buf id).write a.toNat x))

end Sys2Proof.Machine
end

