-- ==== Sys2Proof/Machine/Dispatch.lean ====
section
/-! DEFINITION. The dispatch: one arm per row of spec/opcode_table.json, each one direct call of its meaning. -/

namespace Sys2Proof.Machine

/-- What each instruction does. -/
def exec (i : Instr) (s : State) : Host.Outcome State Fault Refusal :=
  match i with
  | .segDecode => Sys2Proof.Machine.execSegDecode s
  | .segEncode => Sys2Proof.Machine.execSegEncode s
  | .segChecksum => Sys2Proof.Machine.execSegChecksum s
  | .segGetRaw => Sys2Proof.Machine.execSegGetRaw s
  | .csumVerifyTcp => Sys2Proof.Machine.execCsumVerifyTcp s
  | .csumVerifyUdp => Sys2Proof.Machine.execCsumVerifyUdp s
  | .csumVerifyIcmp => Sys2Proof.Machine.execCsumVerifyIcmp s
  | .csumVerifyIp4 => Sys2Proof.Machine.execCsumVerifyIp4 s
  | .segFindOption kind => Sys2Proof.Machine.execSegFindOption kind s
  | .optDecode => Sys2Proof.Machine.execOptDecode s
  | .optEncode slot => Sys2Proof.Machine.execOptEncode slot s
  | .segNew link => Sys2Proof.Machine.execSegNew link s
  | .ethParse => Sys2Proof.Machine.execEthParse s
  | .arpParse => Sys2Proof.Machine.execArpParse s
  | .ip4Parse => Sys2Proof.Machine.execIp4Parse s
  | .icmp4Parse => Sys2Proof.Machine.execIcmp4Parse s
  | .udpParse => Sys2Proof.Machine.execUdpParse s
  | .txEnqueue => Sys2Proof.Machine.execTxEnqueue s
  | .sqStart => Sys2Proof.Machine.execSqStart s
  | .regRead n => Sys2Proof.Machine.execRegRead n s
  | .regWrite n v => Sys2Proof.Machine.execRegWrite n v s
  | .bufRead b a => Sys2Proof.Machine.execBufRead b a s
  | .bufWrite b a x => Sys2Proof.Machine.execBufWrite b a x s
  | .optEol => Sys2Proof.Machine.execOptEol s
  | .optNop => Sys2Proof.Machine.execOptNop s
  | .optMss len v => Sys2Proof.Machine.execOptMss len v s
  | .optWs len sc => Sys2Proof.Machine.execOptWs len sc s
  | .optSackperm len => Sys2Proof.Machine.execOptSackperm len s
  | .optTs len tsval tsecr => Sys2Proof.Machine.execOptTs len tsval tsecr s
  | .optUnknown tag len data => Sys2Proof.Machine.execOptUnknown tag len data s
  | .etypeIpv4 => Sys2Proof.Machine.execEtypeIpv4 s
  | .etypeArp => Sys2Proof.Machine.execEtypeArp s
  | .ipprotoIcmp => Sys2Proof.Machine.execIpprotoIcmp s
  | .ipprotoTcp => Sys2Proof.Machine.execIpprotoTcp s
  | .ipprotoUdp => Sys2Proof.Machine.execIpprotoUdp s

end Sys2Proof.Machine
end

