-- ==== Sys2Proof/Machine/Sequencer.lean ====
section
/-! DEFINITION. The steps of the sequencer SEQ: the dequeue step and one parse step per layer (44_pipeline.md R204, R205), and when it has none (R200, R204, R206; 60_exceptions.md R231). -/

namespace Sys2Proof.Machine

/-- `drop`: DROPS <- (DROPS + 1) mod 2^32; SQ_PHASE <- IDLE (R205). -/
def State.dropFrame (s : State) : State :=
  { s with sq := { s.sq with drops := s.sq.drops + 1 }, seqr := { s.seqr with phase := .idle } }

/-- IOFF and ILEN as SEQ sets them (R205). -/
def State.setWindow (s : State) (off len : U32) : State := { s with win := ⟨off, len⟩ }

/-- SQ_PHASE <- p. -/
def State.setPhase (s : State) (p : Phase) : State := { s with seqr := { s.seqr with phase := p } }

/-- `if ERR != NONE: drop`, otherwise go on (R205). -/
def dropOnError (k : State → Out) (s : State) : Out :=
  if s.status.err = .none then k s else .next s.dropFrame

/-- The dequeue step for the frame at the head of RXQ (R204): the frame takes an identity, and is loaded, or dropped if it exceeds IBUF_BYTES (D49). -/
def dequeueFrame (F : Frame) (rest : List Frame) (s : State) : State :=
  let s1 := { s with
    rxq := rest
    track := { s.track with inTrk := s.track.nextTrk, nextTrk := s.track.nextTrk + 1 } }
  if F.length > s.cfg.ibufBytes then { s1 with sq := { s1.sq with drops := s1.sq.drops + 1 } }
  else
    { s1 with
      ibuf := s1.ibuf.writeRange 0 F
      seqr := { s1.seqr with flen := BitVec.ofNat 32 F.length, phase := .parse .eth } }

/-- PARSE(ETH) (R205). -/
def parseEth (s : State) : Out :=
  andThen (execEthParse (s.setWindow 0 s.seqr.flen)) <| dropOnError fun s =>
    .next { s with seqr := { s.seqr with
      sel := s.eth.etype, noff := s.lpay.poff, nlen := s.lpay.plen, phase := .handle .eth } }

/-- PARSE(ARP) (R205). -/
def parseArp (s : State) : Out :=
  andThen (execArpParse (s.setWindow s.seqr.noff s.seqr.nlen)) <| dropOnError fun s =>
    .next (s.setPhase (.handle .arp))

/-- PARSE(IP) (R205): the header checksum is verified and left in CSUM_OK for the handler. -/
def parseIp (s : State) : Out :=
  andThen (execIp4Parse (s.setWindow s.seqr.noff s.seqr.nlen)) <| dropOnError fun s =>
    andThen (execCsumVerifyIp4 s) fun s =>
      .next { s with seqr := { s.seqr with
        sel := s.ip.proto.setWidth 16, noff := s.lpay.poff, nlen := s.lpay.plen
        psrc := s.ip.src, pdst := s.ip.dst, phase := .handle .ip } }

/-- PARSE(ICMP) (R205). -/
def parseIcmp (s : State) : Out :=
  andThen (execIcmp4Parse (s.setWindow s.seqr.noff s.seqr.nlen)) <| dropOnError fun s =>
    andThen (execCsumVerifyIcmp s) fun s => .next (s.setPhase (.handle .icmp))

/-- PARSE(UDP) (R205): the window becomes the datagram, the pseudo-header protocol 17 and the UDP length. -/
def parseUdp (s : State) : Out :=
  andThen (execUdpParse (s.setWindow s.seqr.noff s.seqr.nlen)) <| dropOnError fun s =>
    andThen (execCsumVerifyUdp { s with
      win := { s.win with ilen := s.udp.len.setWidth 32 }
      ph := ⟨s.seqr.psrc, s.seqr.pdst, 17, s.udp.len⟩ }) fun s => .next (s.setPhase (.handle .udp))

/-- PARSE(TCP) (R205): the pseudo-header has protocol 6 and the length of the packet's payload. -/
def parseTcp (s : State) : Out :=
  andThen (execSegDecode { s.setWindow s.seqr.noff s.seqr.nlen with
      ph := ⟨s.seqr.psrc, s.seqr.pdst, 6, s.seqr.nlen.setWidth 16⟩ }) <| dropOnError fun s =>
    andThen (execCsumVerifyTcp s) fun s => .next (s.setPhase (.handle .tcp))

/-- The parse step of a layer (R205). -/
def parseLayer (l : Layer) (s : State) : Out :=
  match l with
  | .eth => parseEth s
  | .arp => parseArp s
  | .ip => parseIp s
  | .icmp => parseIcmp s
  | .udp => parseUdp s
  | .tcp => parseTcp s

/-- SEQ may move at all: it is RUNNING and the block is not halted (R200, R204, R231). -/
def State.seqEnabled (s : State) : Bool := s.sq.running && !s.status.fatal

/-- SEQ's step. Where it has none (UNINIT, halted, RXQ empty, a handler running) nothing changes: a hold, not a fault (R204, R206, R210). -/
def seqStep (s : State) : Out :=
  if s.seqEnabled then
    match s.seqr.phase with
    | .idle =>
      match s.rxq with
      | [] => .next s
      | F :: rest => .next (dequeueFrame F rest s)
    | .parse l => parseLayer l s
    | .handle _ => .next s
  else .next s

end Sys2Proof.Machine
end

