-- ==== Sys2Proof/Machine/Fetch.lean ====
section
/-! DEFINITION. What the next step is: an instruction to run, or a move of an agent that runs none.
The block fetches nothing (10_state.md R21): what comes next is the next event of `inputs` (log 2, 3), or, with a scan in progress, the next record of its area (log 10). -/

namespace Sys2Proof.Machine

/-- The next thing a step does. -/
inductive Fetched where
  /-- run this instruction on this state -/
  | run (i : Instr) (s : State)
  /-- a move that runs no instruction, with its outcome -/
  | move (o : Out)

/-! ### Enabledness -/

/-- The layer whose handler is running (44_pipeline.md R206). -/
def State.handling (s : State) : Option Layer :=
  if s.sq.running then
    match s.seqr.phase with
    | .handle l => some l
    | .parse _ => none
    | .idle => none
  else none

/-- The thread an agent acts on (00_scope.md R6, 44_pipeline.md R203). -/
def Agent.thread : Agent → Thread
  | .host => .host
  | .handler => .worker
  | .arpc => .worker

/-- The thread has a TX_ENQUEUE held, so it can do nothing else (20_memory.md R67). -/
def State.held (s : State) : Thread → Bool
  | .host => s.hostHeld
  | .worker => s.workerHeld

/-- The hold of a thread ends. -/
def State.release (s : State) : Thread → State
  | .host => { s with hostHeld := false, issuer := .host }
  | .worker => { s with workerHeld := false, issuer := .worker }

/-- An agent may issue a transaction: HOST always, a handler in its HANDLE phase, ARPC there and while WIRED = 1; never past a held TX_ENQUEUE of its thread (45_host_port.md R220, 44_pipeline.md R203, R206). -/
def State.mayIssue (s : State) (who : Agent) : Bool :=
  match who with
  | .host => !s.hostHeld
  | .handler => s.handling.isSome && !s.workerHeld
  | .arpc => s.handling.isSome && s.sq.wired && !s.workerHeld

/-! ### Moves of the environment -/

/-- Reset (70_reset_and_hazards.md R250): every register, buffer and sequencer field takes its reset value and held commands are abandoned.
The external agents keep their state (R253); parameters, waiting inputs and what was already answered to agents stay (log 18). -/
def State.resetFrom (s : State) : State :=
  { State.reset with
    cfg := s.cfg
    rxq := s.rxq
    txq := s.txq
    arpcCache := s.arpcCache
    inputs := s.inputs
    resp := s.resp
    arpcResp := s.arpcResp }

/-- The producer enqueues a frame, if RXQ has room (10_state.md R46, log 15). -/
def State.rxArrive (s : State) (f : Frame) : State :=
  if Config.room s.cfg.rxqCap s.rxq.length then { s with rxq := s.rxq ++ [f] } else s

/-- Another block instance enqueues a frame to the shared TXQ, if TXQ has room (44_pipeline.md R211, log 21). -/
def State.txPutOther (s : State) (f : Frame) : State :=
  if s.txRoom then { s with txq := s.txq ++ [f] } else s

/-- A thread's TX_ENQUEUE is held and TXQ now has room: only then has it a step (44_pipeline.md R202, R210). -/
def State.mayResume (s : State) (t : Thread) : Bool := s.held t && s.txRoom

/-- The phase after HANDLE(l) ends with a verdict, where no selector instruction is run (44_pipeline.md R205's table). -/
def endHandler (v : Verdict) (l : Layer) (s : State) : Fetched :=
  match v, l with
  | .cont, .eth =>
    match decodeEtype s.seqr.sel with
    | .ok i => .run i s
    | .error _ => .move (.next (s.setPhase .idle))
  | .cont, .ip =>
    match decodeIpproto s.seqr.sel with
    | .ok i => .run i s
    | .error _ => .move (.next (s.setPhase .idle))
  | .cont, .arp | .cont, .icmp | .cont, .udp | .cont, .tcp => .move (.next (s.setPhase .idle))
  | .drop, _ => .move (.next (s.setPhase .idle))

/-- One event, taken from the inputs of a state that holds the ones after it. An event that is not enabled passes and changes nothing (log 3). -/
def fetchEvent (e : Event) (s : State) : Fetched :=
  match e with
  | .txn who bytes =>
    if s.mayIssue who then
      match decodeTxn bytes with
      | .ok i => .run i { s with issuer := who.thread }
      | .error r => .move (.refused (.noTransaction r))
    else .move (.next s)
  | .verdict v =>
    match s.handling with
    | some l => if s.workerHeld then .move (.next s) else endHandler v l s
    | none => .move (.next s)
  | .seq => .move (seqStep s)
  | .resume t => if s.mayResume t then .run .txEnqueue (s.release t) else .move (.next s)
  | .rxArrive f => .move (.next (s.rxArrive f))
  | .txTake => .move (.next { s with txq := s.txq.drop 1 })
  | .rxTakeOther => .move (.next { s with rxq := s.rxq.drop 1 })
  | .txPutOther f => .move (.next (s.txPutOther f))
  | .resolve addr answer => .move (.next { s with arpcResp := some (addr, answer) })
  | .arpcStore cache => .move (.next { s with arpcCache := cache })
  | .reset => .move (.next s.resetFrom)

/-- With no input waiting the block's own agents move: a held TX_ENQUEUE that finds room, else SEQ (log 2). -/
def ownMove (s : State) : Fetched :=
  if s.mayResume .worker then .run .txEnqueue (s.release .worker)
  else if s.mayResume .host then .run .txEnqueue (s.release .host)
  else .move (seqStep s)

/-- The end of a scan in progress: the commit of OPT_DECODE, or its error (42_option_chain.md R170, log 10). -/
def endScan (chain : List TcpOption) (s : State) : Out :=
  complete (State.commitChain { s with scan := .idle } chain)

/-- What the next step does. -/
def fetch (s : State) : Fetched :=
  match s.scan with
  | .scanning [] chain => .move (endScan chain s)
  | .scanning (b :: r) _ =>
    match decodeOption (b :: r) with
    | .ok i => .run i s
    | .error _ => .move (.next { s with scan := .failed })
  | .failed => .move (raise .malformedOptions { s with scan := .idle })
  | .idle =>
    match s.inputs with
    | [] => ownMove s
    | e :: es => fetchEvent e { s with inputs := es }

/-! ### Placing one instruction where the next step takes it -/

/-- A state in which the instruction that the given bytes stand for in the given format is the next thing a step runs (log 4, 7). -/
def State.place (s : State) (f : Format) (b : Bytes) : State :=
  match f with
  | .cmd32 =>
    match b with
    | [w, x, y, z] =>
      { s with
        scan := .idle
        hostHeld := false
        inputs := .txn .host (encode (.regWrite 0 (.num ((be32 z y x w).setWidth 64)))) :: s.inputs }
    | _ => s
  | .hostTxn => { s with scan := .idle, hostHeld := false, inputs := .txn .host b :: s.inputs }
  | .tcpOpt => { s with scan := .scanning b [] }
  | .etype16 =>
    match b with
    | [x, y] =>
      { s with
        scan := .idle
        workerHeld := false
        sq := { s.sq with running := true, wired := true }
        seqr := { s.seqr with phase := .handle .eth, sel := be16 x y }
        inputs := .verdict .cont :: s.inputs }
    | _ => s
  | .ipproto8 =>
    match b with
    | [x] =>
      { s with
        scan := .idle
        workerHeld := false
        sq := { s.sq with running := true, wired := true }
        seqr := { s.seqr with phase := .handle .ip, sel := x.setWidth 16 }
        inputs := .verdict .cont :: s.inputs }
    | _ => s

end Sys2Proof.Machine
end

