-- ==== Sys2Proof/Machine/Step.lean ====
section
/-! DEFINITION. One step of the machine: one atomic step of one agent (20_memory.md R67, R72). -/

namespace Sys2Proof.Machine

/-- One step: run the fetched instruction, or take the fetched move. -/
def step (s : State) : Host.Outcome State Fault Refusal :=
  match fetch s with
  | .run i t => exec i t
  | .move o => o

/-- s with the instruction of a table word placed where the next step takes it (log 4, 7). -/
def State.withFetchWord (s : State) (nbits w : Nat) : State :=
  s.place (tableFetch nbits w).1 (tableFetch nbits w).2

end Sys2Proof.Machine
end

