-- ==== Sys2Proof/Safety.lean ====
section
/-! DEFINITION. What a sound state is, in the terms the statements use: the parameters in range (00_scope.md R7), buffers in canonical form and inside their size (10_state.md R50, 20_memory.md R60),
registers in their legal ranges (45_host_port.md R222), slots that hold legal records (R33), queues within capacity (R46), sequencer bits and phase that belong together (R44, R45), windows inside IBUF (R43, R45). -/

namespace Sys2Proof.Machine

/-- A buffer in canonical form with no byte at or above the size. -/
def Memory.Ok (m : Memory) (size : Nat) : Prop := m.wf = true ∧ m.within size = true

/-- The three buffers (R60). -/
def State.BuffersOk (s : State) : Prop :=
  s.ibuf.Ok s.cfg.ibufBytes ∧ s.pbuf.Ok s.cfg.pbufBytes ∧ s.obuf.Ok s.cfg.obufBytes

/-- The registers with a legal range are in it (R222). -/
def State.RangesOk (s : State) : Prop :=
  s.win.ioff.toNat ≤ s.cfg.ibufBytes ∧ s.win.ilen.toNat ≤ s.cfg.ibufBytes ∧
  s.seg.optcnt.toNat ≤ Config.maxOpts ∧ s.seg.plen.toNat ≤ s.cfg.pbufBytes ∧
  s.out.ooff.toNat ≤ Config.ooffMax ∧ s.out.txlen.toNat ≤ s.cfg.obufBytes

/-- Forty slots, each a record with at most 38 data bytes (R33), and FOPT such a record if it is one (R37). -/
def State.SlotsOk (s : State) : Prop :=
  s.opts.length = Config.maxOpts ∧ (∀ o ∈ s.opts, slotOk o = true) ∧ (∀ o ∈ s.fopt, slotOk o = true)

/-- The queues hold no more frames than their capacity (R46). -/
def State.QueuesOk (s : State) : Prop :=
  (∀ c ∈ s.cfg.rxqCap, s.rxq.length ≤ c) ∧ (∀ c ∈ s.cfg.txqCap, s.txq.length ≤ c)

/-- STATE = WIRED in every reachable state (R44); in UNINIT the phase is IDLE (R45); the worker holds a TX_ENQUEUE only while a handler runs (44_pipeline.md R210). -/
def State.SequencerOk (s : State) : Prop :=
  s.sq.running = s.sq.wired ∧ (s.sq.running = false → s.seqr.phase = .idle) ∧
  (s.workerHeld = true → s.handling.isSome = true)

/-- The layer payload and the sequencer's windows lie inside IBUF (R43, R45). -/
def State.WindowsOk (s : State) : Prop :=
  s.lpay.poff.toNat + s.lpay.plen.toNat ≤ s.cfg.ibufBytes ∧
  s.seqr.noff.toNat + s.seqr.nlen.toNat ≤ s.cfg.ibufBytes ∧
  s.seqr.flen.toNat ≤ s.cfg.ibufBytes

/-- A scan in progress is inside an area of at most 40 bytes (42_option_chain.md R160: at most n entries; R170). -/
def State.ScanOk (s : State) : Prop :=
  match s.scan with
  | .scanning rest chain => rest.length + chain.length ≤ Config.maxOpts ∧ ∀ o ∈ chain, slotOk o = true
  | .idle => True
  | .failed => True

/-- The invariant of the machine. -/
structure State.Inv (s : State) : Prop where
  cfg : s.cfg.Ok
  buffers : s.BuffersOk
  ranges : s.RangesOk
  slots : s.SlotsOk
  queues : s.QueuesOk
  sequencer : s.SequencerOk
  windows : s.WindowsOk
  scan : s.ScanOk

/-- The window W is the bytes W: it lies inside IBUF and every byte of it is written (20_memory.md R64, 70_reset_and_hazards.md R255). -/
abbrev State.WindowIs (s : State) (W : Bytes) : Prop :=
  s.win.ioff.toNat + s.win.ilen.toNat ≤ s.cfg.ibufBytes ∧ W.length = s.win.ilen.toNat ∧
  ∀ k, k < W.length → s.byte? .ibuf (s.win.ioff.toNat + k) = some (byteAt W k)

/-- The buffer holds the bytes B from address a on, each of them written. -/
abbrev State.Holds (s : State) (b : BufId) (a : Nat) (B : Bytes) : Prop :=
  ∀ k, k < B.length → s.byte? b (a + k) = some (byteAt B k)

/-- From s to t no byte of the buffer changed outside the n bytes at address a. -/
def State.SameOutside (s t : State) (b : BufId) (a n : Nat) : Prop :=
  ∀ x, ¬ (a ≤ x ∧ x < a + n) → t.byte? b x = s.byte? b x

/-- The reset event is the next thing that happens. -/
def State.ResetNext (s : State) : Prop :=
  s.scan = .idle ∧ s.inputs.head? = some .reset

end Sys2Proof.Machine
end

