-- ==== Sys2Proof/Certificates/Slice0/Obligations.lean ====
section
/-! DEFINITION. The statements for the provers. Each cites the rule of spec/ it formalises.
First the words they share, written from the spec and not from the model: legal command words, legal register values, the header layout, the codes of each command, the phase table. -/

namespace Sys2Proof.Statement

open Sys2Proof Sys2Proof.Machine

/-- `raise Err(e)`: STATUS.ERR is e and nothing else changed (60_exceptions.md R230 b). -/
def raised (e : Err) (s : State) : Out := .next { s with status := { s.status with err := e } }

/-- EIV: STATUS.ERR and STATUS.FATAL and nothing else changed (R231). -/
def halted (s : State) : Out := .next { s with status := { s.status with err := .eiv, fatal := true } }

/-- STATUS after a command that completed and writes no flag. -/
def doneStatus (s : State) : Status := { s.status with err := .none }

/-- IOFF + ILEN > IBUF_BYTES (20_memory.md R64). -/
abbrev badWindow (s : State) : Prop := s.cfg.ibufBytes < s.win.ioff.toNat + s.win.ilen.toNat

/-- OP is in the opcode map of 30_encoding.md R82 and ARG is legal for it (R83). -/
abbrev legalOp (op arg : Byte) : Prop :=
  (op ∈ [0x01#8, 0x02#8, 0x03#8, 0x04#8, 0x07#8, 0x10#8, 0x11#8, 0x12#8, 0x13#8, 0x14#8, 0x20#8, 0x30#8] ∧ arg = 0) ∨
  (op = 0x05 ∧ arg.toNat ≤ 3) ∨ op = 0x06 ∨ op = 0x08 ∨ (op = 0x09 ∧ arg.toNat ≤ 1)

/-- A legal command word (R81, R84): bits 31:16 are 0, and OP and ARG are legal. -/
abbrev legalWord (w : U32) : Prop :=
  w.toNat < 2 ^ 16 ∧ legalOp (BitVec.ofNat 8 w.toNat) (BitVec.ofNat 8 (w.toNat / 256))

/-- A host write of command word w: REG_WRITE 0x00, w (45_host_port.md R225). -/
def writeCmd (w : U32) : Instr := .regWrite 0x00 (.num (w.setWidth 64))

/-- An integer of a register's width as the value of a transfer. -/
def int {w : Nat} (v : BitVec w) : Value := .num (v.setWidth 64)

/-- A value is not over a legal maximum, if there is one (45_host_port.md R222). -/
abbrev inRange (max : Option Nat) (v : Nat) : Prop := ∀ x ∈ max, v ≤ x

/-- The integer registers a host may write: number, width, and the largest legal value of those with a legal range (10_state.md R27 to R30, R36, R44; 45_host_port.md R222).
That IN_TRK (0x0A) is among them follows R36 (log 23). -/
def integerRegisters (c : Config) : List (Byte × Nat × Option Nat) :=
  ([(0x03, 32, some c.ibufBytes), (0x04, 32, some c.ibufBytes), (0x5C, 32, some 128), (0x5D, 32, some (c.ibufBytes + 60 + 128))] : List (Byte × Nat × Option Nat)) ++
  ([(0x06, 32, none), (0x07, 32, none), (0x08, 16, none), (0x09, 16, none), (0x0A, 32, none), (0x0E, 48, none), (0x0F, 32, none)] : List (Byte × Nat × Option Nat)) ++
  ([(0x10, 16, none), (0x11, 16, none), (0x12, 32, none), (0x13, 32, none), (0x14, 8, none), (0x15, 9, none), (0x16, 16, none),
   (0x17, 16, none), (0x18, 16, none), (0x19, 6, some 40), (0x1A, 32, some c.ibufBytes)] : List (Byte × Nat × Option Nat))

/-- The number is not that of an option slot, 0x80 to 0xA7 (10_state.md R33). -/
abbrev noSlot (n : Byte) : Prop := n.toNat < 0x80 ∨ 0xA8 ≤ n.toNat

/-- The number of slot i (R33). -/
def slotNumber (i : Fin 40) : Byte := BitVec.ofNat 8 (0x80 + i.val)

/-- The buffers by id, with their sizes and contents (20_memory.md R60, 45_host_port.md R223). -/
def bufferTable (s : State) : List (Byte × BufId × Nat × Memory) :=
  [(0, .ibuf, s.cfg.ibufBytes, s.ibuf), (1, .pbuf, s.cfg.ibufBytes, s.pbuf), (2, .obuf, s.cfg.ibufBytes + 60 + 128, s.obuf)]

/-- TXQ holds fewer frames than its capacity (44_pipeline.md R202). -/
abbrev txqHasRoom (s : State) : Prop := ∀ cap ∈ s.cfg.txqCap, s.txq.length < cap

/-- E begins with the 20 fixed bytes of a TCP header of h bytes with the fields of g and checksum field c (30_encoding.md R87, R88, R90). -/
def tcpHeader (E : Bytes) (g : Seg) (h : Nat) (c : U16) : Prop :=
  20 ≤ E.length ∧ be16At E 0 = g.sport ∧ be16At E 2 = g.dport ∧ be32At E 4 = g.seqno ∧ be32At E 8 = g.ackno ∧
  (byteAt E 12).toNat = (h / 4) * 16 + g.flags.toNat / 256 ∧ (byteAt E 13).toNat = g.flags.toNat % 256 ∧
  be16At E 14 = g.win ∧ be16At E 16 = c ∧ be16At E 18 = g.urp

/-- The option bytes O make a header length that can be encoded: a multiple of 4 and at most 60 (40_segment_codec.md R123, 90_conflicts.md C10). -/
abbrev goodLength (O : Bytes) : Prop := (20 + O.length) % 4 = 0 ∧ 20 + O.length ≤ 60

/-- The codes a command may raise beside FATAL_HALTED: the table of 60_exceptions.md R232. -/
def codesOf : Instr → List Err
  | .segDecode => [.truncated, .malformedOptions, .badWindow]
  | .segEncode | .segChecksum | .segGetRaw => [.eiv]
  | .csumVerifyTcp | .csumVerifyUdp | .csumVerifyIcmp => [.truncated, .badWindow]
  | .csumVerifyIp4 => [.truncated, .malformedHeader, .badWindow]
  | .optDecode => [.malformedOptions, .badWindow]
  | .optEncode _ => [.eiv, .indexRange]
  | .ethParse | .icmp4Parse => [.truncated, .badWindow]
  | .arpParse | .ip4Parse | .udpParse => [.truncated, .malformedHeader, .badWindow]
  | .sqStart => [.badState]
  | _ => []

/-- The phase after HANDLE(l) ends with a verdict: the second table of 44_pipeline.md R205. -/
def phaseAfter (v : Verdict) (l : Layer) (sel : U16) : Phase :=
  match v, l with
  | .cont, .eth => if sel = 0x0806 then .parse .arp else if sel = 0x0800 then .parse .ip else .idle
  | .cont, .ip =>
    if sel = 1 then .parse .icmp else if sel = 17 then .parse .udp else if sel = 6 then .parse .tcp else .idle
  | _, _ => .idle

/-- EOL stands in the chain at most as its last element (40_segment_codec.md R125 b, 42_option_chain.md R172). -/
abbrev eolOnlyLast (c : List TcpOption) : Prop := TcpOption.eol ∉ c.dropLast

/-- The next event is e and the ones after it are `rest`; no scan is open. -/
abbrev nextEvent (s : State) (e : Event) (rest : List Event) : Prop := s.scan = .idle ∧ s.inputs = e :: rest

/-- The number of a result code: the table of 10_state.md R25. -/
def codeNumber : Err → Nat
  | .none => 0
  | .truncated => 1
  | .malformedOptions => 2
  | .eiv => 3
  | .malformedHeader => 4
  | .badWindow => 5
  | .illegalCommand => 6
  | .fatalHalted => 7
  | .indexRange => 8
  | .badState => 9

/-- Every defined register but the slots, by number, with the value a host reads (10_state.md R23 to R30, R36 to R44).
That NEXT_TRK (0x0B) is readable follows R36 (log 22). -/
def registerTable (s : State) : List (Byte × Value) :=
  ([(0x00, .num 0),
   (0x01, .num (BitVec.ofNat 64
     (codeNumber s.status.err + 16 * s.status.fatal.toNat + 32 * s.status.found.toNat + 64 * s.status.csumOk.toNat))),
   (0x02, int s.result), (0x03, int s.win.ioff), (0x04, int s.win.ilen), (0x05, int s.out.olen),
   (0x5C, int s.out.ooff), (0x5D, int s.out.txlen),
   (0x06, int s.ph.src), (0x07, int s.ph.dst), (0x08, int s.ph.proto), (0x09, int s.ph.len),
   (0x0A, int s.track.inTrk), (0x0B, int s.track.nextTrk),
   (0x0C, .num (BitVec.ofNat 64 (s.sq.running.toNat + 2 * s.sq.wired.toNat))),
   (0x0D, int s.sq.drops), (0x0E, int s.sq.cfgMac), (0x0F, int s.sq.cfgIp)] : List (Byte × Value)) ++
  ([(0x10, int s.seg.sport), (0x11, int s.seg.dport), (0x12, int s.seg.seqno), (0x13, int s.seg.ackno), (0x14, int s.seg.hlen),
   (0x15, int s.seg.flags), (0x16, int s.seg.win), (0x17, int s.seg.csum), (0x18, int s.seg.urp), (0x19, int s.seg.optcnt),
   (0x1A, int s.seg.plen), (0x1B, int s.track.trk), (0x1C, int s.track.parent),
   (0x1D, .num (BitVec.ofNat 64 s.track.hasParent.toNat)),
   (0x1E, match s.fopt with | none => .none | some o => .opt o)] : List (Byte × Value)) ++
  ([(0x20, int s.eth.dst), (0x21, int s.eth.src), (0x22, int s.eth.etype),
   (0x28, int s.arp.htype), (0x29, int s.arp.ptype), (0x2A, int s.arp.hlen), (0x2B, int s.arp.plen), (0x2C, int s.arp.oper),
   (0x2D, int s.arp.sha), (0x2E, int s.arp.spa), (0x2F, int s.arp.tha), (0x30, int s.arp.tpa)] : List (Byte × Value)) ++
  ([(0x38, int s.ip.ver), (0x39, int s.ip.hlen), (0x3A, int s.ip.tos), (0x3B, int s.ip.tlen), (0x3C, int s.ip.ident),
   (0x3D, int s.ip.flags), (0x3E, int s.ip.frag), (0x3F, int s.ip.ttl), (0x40, int s.ip.proto), (0x41, int s.ip.csum),
   (0x42, int s.ip.src), (0x43, int s.ip.dst)] : List (Byte × Value)) ++
  ([(0x48, int s.icmp.type), (0x49, int s.icmp.code), (0x4A, int s.icmp.csum), (0x4B, int s.icmp.rest),
   (0x50, int s.udp.sport), (0x51, int s.udp.dport), (0x52, int s.udp.len), (0x53, int s.udp.csum),
   (0x58, int s.lpay.poff), (0x59, int s.lpay.plen)] : List (Byte × Value))

/-- The commands that read the input window (20_memory.md R64). -/
abbrev windowCommands : List Instr :=
  [.segDecode, .optDecode, .csumVerifyTcp, .csumVerifyUdp, .csumVerifyIcmp, .csumVerifyIp4, .ethParse, .arpParse, .ip4Parse,
   .icmp4Parse, .udpParse]

/-- Byte a + k is the first unwritten one of the n bytes at a. -/
abbrev firstUnwritten (s : State) (b : BufId) (a n k : Nat) : Prop :=
  k < n ∧ s.byte? b (a + k) = none ∧ ∀ j, j < k → (s.byte? b (a + j)).isSome = true

/-- The commands of format CMD32. -/
abbrev command (i : Instr) : Prop := i.format = .cmd32

/-- s and t agree on the sequencer, the buffers, the queues, the parameters and every model field but the read response. -/
def sameButRegisters (s t : State) : Prop :=
  t.cfg = s.cfg ∧ t.seqr = s.seqr ∧ t.ibuf = s.ibuf ∧ t.pbuf = s.pbuf ∧ t.obuf = s.obuf ∧ t.rxq = s.rxq ∧ t.txq = s.txq ∧
  t.arpcCache = s.arpcCache ∧ t.inputs = s.inputs ∧ t.issuer = s.issuer ∧ t.hostHeld = s.hostHeld ∧
  t.workerHeld = s.workerHeld ∧ t.resp = s.resp ∧ t.arpcResp = s.arpcResp ∧ t.scan = s.scan

end Sys2Proof.Statement

open Sys2Proof Sys2Proof.Machine Sys2Proof.Statement

/-! ### Encoding -/

/-- Decode and encode agree on every well-formed instruction of every format (30_encoding.md R81, R82, R86, R91, R99, R100; the byte layouts are the model's, log 5 and 6). -/
def Obligations.DecodeOfEncodeIsTheInstruction : Prop :=
  ∀ i : Instr, i.wf = true → decode i.format (encode i) = .ok i

/-- A record is read the same whatever follows it in the area (R92; the instruction form is the model's, log 11). -/
def Obligations.OptionRecordIsReadInFrontOfAnyBytes : Prop :=
  ∀ (i : Instr) (rest : Bytes), i.format = .tcpOpt → i.wf = true → decodeOption (encode i ++ rest) = .ok i

/-- A command word has one meaning: a word that decodes to a command is that command's encoding (R81, R82; the byte order of the encoder is the model's, log 6). -/
def Obligations.CommandWordIsTheEncodingOfItsMeaning : Prop :=
  ∀ (w : U32) (i : Instr), decodeCommand w = .ok i →
    command i ∧ encode i = [w.extractLsb' 0 8, w.extractLsb' 8 8, w.extractLsb' 16 8, w.extractLsb' 24 8]

/-- Words written out from the tables of 30_encoding.md R82, R91, R99 and R100. -/
def Obligations.WrittenOutWordsDecode : Prop :=
  decodeCommand 0b00000000000000000000000000000001#32 = .ok .segDecode ∧
  decodeCommand 0b00000000000000000000001100000101#32 = .ok .csumVerifyIp4 ∧
  decodeCommand 0b00000000000000000000001000000110#32 = .ok (.segFindOption 2) ∧
  decodeCommand 0b00000000000000000000000100001001#32 = .ok (.segNew true) ∧
  decodeCommand 0b00000000000000000000000000110000#32 = .ok .sqStart ∧
  decodeCommand 0b00000000000000000000001000001001#32 = .error (.illegalArg 9 2) ∧
  decodeOption [0x02#8, 0x04#8, 0x05#8, 0xB4#8] = .ok (.optMss 4 1460) ∧
  decodeOption [0x03#8, 0x03#8, 0x07#8] = .ok (.optWs 3 7) ∧
  decodeEtype 0b0000100000000110#16 = .ok .etypeArp ∧
  decodeIpproto 0b0000000000010001#16 = .ok .ipprotoUdp

/-- 30_encoding.md R84: an illegal command word raises ILLEGAL_COMMAND and changes nothing else; every other word runs its command. -/
def Obligations.IllegalCommandWordOnlyRaisesIllegalCommand : Prop :=
  ∀ (s : State) (w : U32), s.status.fatal = false →
    (¬ legalWord w → exec (writeCmd w) s = raised .illegalCommand s) ∧
    (legalWord w → ∃ i, decodeCommand w = .ok i ∧ command i ∧ exec (writeCmd w) s = exec i s)

/-- 60_exceptions.md R231, 45_host_port.md R225: while FATAL = 1 every command, and every write to CMD, only writes FATAL_HALTED. -/
def Obligations.HaltedBlockRefusesEveryCommand : Prop :=
  ∀ (s : State), s.status.fatal = true →
    (∀ w : U32, exec (writeCmd w) s = raised .fatalHalted s) ∧
    (∀ i : Instr, command i → exec i s = raised .fatalHalted s)

/-! ### The step -/

/-- A step runs the decoded instruction: a presented transaction (45_host_port.md), a selector after a handler (44_pipeline.md R205), a record under the scanner, a held TX_ENQUEUE that finds room.
The inputs, the issuer and the scanner are the model's (log 2, 10, 14). -/
def Obligations.StepRunsTheFetchedInstruction : Prop :=
  (∀ (s : State) (who : Agent) (bytes : Bytes) (rest : List Event) (i : Instr),
    nextEvent s (.txn who bytes) rest → s.mayIssue who = true → decodeTxn bytes = .ok i →
      step s = exec i { s with inputs := rest, issuer := who.thread }) ∧
  (∀ (s : State) (rest : List Event) (i : Instr),
    nextEvent s (.verdict .cont) rest → s.handling = some .eth → s.workerHeld = false →
      decodeEtype s.seqr.sel = .ok i → step s = exec i { s with inputs := rest }) ∧
  (∀ (s : State) (rest : List Event) (i : Instr),
    nextEvent s (.verdict .cont) rest → s.handling = some .ip → s.workerHeld = false →
      decodeIpproto s.seqr.sel = .ok i → step s = exec i { s with inputs := rest }) ∧
  (∀ (s : State) (area : Bytes) (chain : List TcpOption) (i : Instr),
    s.scan = .scanning area chain → decodeOption area = .ok i → step s = exec i s) ∧
  (∀ (s : State) (rest : List Event), nextEvent s (.resume .host) rest → s.hostHeld = true → txqHasRoom s →
      step s = exec .txEnqueue { s with inputs := rest, issuer := .host, hostHeld := false }) ∧
  (∀ (s : State) (rest : List Event), nextEvent s (.resume .worker) rest → s.workerHeld = true → txqHasRoom s →
      step s = exec .txEnqueue { s with inputs := rest, issuer := .worker, workerHeld := false })

/-! ### The host port -/

/-- 45_host_port.md R221: REG_READ of every number of 10_state.md gives the register that stands there, of CMD and of a reserved number 0, and changes nothing else.
STATUS and SQ_CTRL read as the bits of 10_state.md R24, R25 and R44. The last clause ties regValue, by which later statements read a register, to REG_READ.
Where the value goes (the field resp) is the model's (log 9), and that NEXT_TRK is readable is its reading (log 22). -/
def Obligations.RegReadGivesTheValueAndChangesNothing : Prop :=
  ∀ s : State,
    (∀ p ∈ registerTable s, exec (.regRead p.1) s = .next { s with resp := some p.2 }) ∧
    (∀ (i : Fin 40) (o : TcpOption), s.opts[i.val]? = some o →
      exec (.regRead (slotNumber i)) s = .next { s with resp := some (.opt o) }) ∧
    (∀ n, n ∉ (registerTable s).map Prod.fst → noSlot n → exec (.regRead n) s = .next { s with resp := some (.num 0) }) ∧
    ∀ n, exec (.regRead n) s = .next { s with resp := some (regValue n s) }

/-- 45_host_port.md R222: a legal value written to an integer register is read back cut to the register's width; no other register changes, nor anything else.
That the host may write IN_TRK is the model's reading (log 23). -/
def Obligations.IntegerRegisterKeepsTheValueCutToItsWidth : Prop :=
  ∀ (s : State) (n : Byte) (w : Nat) (max : Option Nat) (v : BitVec 64),
    (n, w, max) ∈ integerRegisters s.cfg → inRange max v.toNat →
    ∃ t, exec (.regWrite n (.num v)) s = .next t ∧
      regValue n t = .num (BitVec.ofNat 64 (v.toNat % 2 ^ w)) ∧
      (∀ m, m ≠ n → regValue m t = regValue m s) ∧ sameButRegisters s t

/-- R222, 10_state.md R33: a slot takes a record whose UNKNOWN data is at most 38 bytes; only that slot changes. -/
def Obligations.SlotKeepsTheWrittenRecord : Prop :=
  ∀ (s : State) (i : Fin 40) (o : TcpOption), s.opts.length = 40 →
    (∀ tag data, o = .unknown tag data → data.length ≤ 38) →
    ∃ t, exec (.regWrite (slotNumber i) (.opt o)) s = .next t ∧
      regValue (slotNumber i) t = .opt o ∧
      (∀ m, m ≠ slotNumber i → regValue m t = regValue m s) ∧ sameButRegisters s t

/-- R222: a write to a reserved number or a read-only register, of a value outside the legal range, of a record with too much data, or of no record to a slot, is ignored.
That a write of no integer to an integer register or to CMD is ignored too is the model's (log 8). -/
def Obligations.IgnoredRegisterWritesChangeNothing : Prop :=
  ∀ s : State,
    (∀ (n : Byte) (v : Value), n ≠ 0x00 → n ∉ (integerRegisters s.cfg).map Prod.fst → noSlot n → exec (.regWrite n v) s = .next s) ∧
    (∀ (n : Byte) (w : Nat) (max : Option Nat) (x : BitVec 64), (n, w, max) ∈ integerRegisters s.cfg → ¬ inRange max x.toNat →
      exec (.regWrite n (.num x)) s = .next s) ∧
    (∀ (i : Fin 40) (tag : Byte) (data : Bytes), 38 < data.length →
      exec (.regWrite (slotNumber i) (.opt (.unknown tag data))) s = .next s) ∧
    (∀ (i : Fin 40) (v : Value), (∀ o, v ≠ .opt o) → exec (.regWrite (slotNumber i) v) s = .next s) ∧
    (∀ (n : Byte) (v : Value), n = 0x00 ∨ n ∈ (integerRegisters s.cfg).map Prod.fst → (∀ x, v ≠ .num x) →
      exec (.regWrite n v) s = .next s)

/-- 45_host_port.md R223: BUF_READ gives the byte of the buffer that the id names, 0x00 outside it and for an id of 3 or more, and faults on an unwritten byte.
Where the byte goes (resp) is the model's (log 9). -/
def Obligations.BufReadGivesTheByteOrFaults : Prop :=
  ∀ (s : State) (b : Byte) (a : U32),
    (3 ≤ b.toNat → exec (.bufRead b a) s = .next { s with resp := some (.num 0) }) ∧
    (∀ id size mem, (b, id, size, mem) ∈ bufferTable s →
      (size ≤ a.toNat → exec (.bufRead b a) s = .next { s with resp := some (.num 0) }) ∧
      (a.toNat < size → mem.read? a.toNat = none → exec (.bufRead b a) s = .fault (.unwrittenByte id a.toNat)) ∧
      (∀ x, a.toNat < size → mem.read? a.toNat = some x → exec (.bufRead b a) s = .next { s with resp := some (int x) }))

/-- 45_host_port.md R224: BUF_WRITE writes one byte of the buffer that the id names and nothing else; outside a buffer it is ignored. -/
def Obligations.BufWriteWritesOneByte : Prop :=
  ∀ (s : State) (b : Byte) (a : U32) (x : Byte),
    (3 ≤ b.toNat → exec (.bufWrite b a x) s = .next s) ∧
    (∀ id size mem, (b, id, size, mem) ∈ bufferTable s →
      (size ≤ a.toNat → exec (.bufWrite b a x) s = .next s) ∧
      (a.toNat < size →
        ∃ t, exec (.bufWrite b a x) s = .next t ∧ t.byte? id a.toNat = some x ∧
          (∀ c y, ¬ (c = id ∧ y = a.toNat) → t.byte? c y = s.byte? c y) ∧
          (id = .ibuf → t = { s with ibuf := t.ibuf }) ∧ (id = .pbuf → t = { s with pbuf := t.pbuf }) ∧
          (id = .obuf → t = { s with obuf := t.obuf })))

/-! ### Errors -/

/-- 60_exceptions.md R230, 40_segment_codec.md R120: a command that ends with a code has written only STATUS.ERR, and STATUS.FATAL if the code is EIV.
TX_ENQUEUE raises no code of its own (R202). -/
def Obligations.RaisingCommandWritesOnlyStatus : Prop :=
  ∀ (i : Instr) (s t : State), command i → i ≠ .txEnqueue → exec i s = .next t → t.status.err ≠ .none →
    t = { s with status := { s.status with err := t.status.err, fatal := s.status.fatal || t.status.err == .eiv } }

/-- 60_exceptions.md R232: a command ends with NONE, with FATAL_HALTED if the block is halted, or with a code listed against it.
A TX_ENQUEUE that is held has not ended (44_pipeline.md R202), so it is left out here. -/
def Obligations.CommandRaisesOnlyItsListedCodes : Prop :=
  ∀ (i : Instr) (s t : State), command i → exec i s = .next t →
    (i = .txEnqueue → s.txRoom = true ∨ s.cfg.txqFull = .drop ∨ s.status.fatal = true) →
    t.status.err = .none ∨ (t.status.err = .fatalHalted ∧ s.status.fatal = true) ∨ t.status.err ∈ codesOf i

/-- 60_exceptions.md R231, 44_pipeline.md R207: only the four encode commands set FATAL, always with ERR = EIV; no step of SEQ does. -/
def Obligations.OnlyEncodingCommandsSetFatal : Prop :=
  (∀ (i : Instr) (s t : State), command i → exec i s = .next t → s.status.fatal = false → t.status.fatal = true →
    t.status.err = .eiv ∧ (i = .segEncode ∨ i = .segChecksum ∨ i = .segGetRaw ∨ ∃ n, i = .optEncode n)) ∧
  (∀ (s t : State), seqStep s = .next t → t.status.fatal = s.status.fatal)

/-- 20_memory.md R69: a command that reads an unwritten byte of the window, of PBUF or of OBUF faults.
That the fault names the first such byte, and that the window is read before any other check, is the model's (log 19). -/
def Obligations.UnwrittenBytesFault : Prop :=
  ∀ s : State, s.status.fatal = false →
    (∀ (i : Instr) (k : Nat), i ∈ windowCommands → ¬ badWindow s → firstUnwritten s .ibuf s.win.ioff.toNat s.win.ilen.toNat k →
      exec i s = .fault (.unwrittenByte .ibuf (s.win.ioff.toNat + k))) ∧
    (∀ (i : Instr) (O : Bytes) (k : Nat), i = .segEncode ∨ i = .segChecksum ∨ i = .segGetRaw →
      encChain s.chain = some O → goodLength O → firstUnwritten s .pbuf 0 s.seg.plen.toNat k →
      exec i s = .fault (.unwrittenByte .pbuf k)) ∧
    (∀ k : Nat, s.txRoom = true ∨ s.cfg.txqFull = .drop → firstUnwritten s .obuf 0 s.out.txlen.toNat k →
      exec .txEnqueue s = .fault (.unwrittenByte .obuf k))

/-- R231, 44_pipeline.md R200, 70_reset_and_hazards.md R250: only a reset clears FATAL and only a reset leaves RUNNING; the parameters never change. -/
def Obligations.OnlyResetClearsFatalAndLeavesRunning : Prop :=
  ∀ s t : State, step s = .next t →
    (s.status.fatal = true → ¬ s.ResetNext → t.status.fatal = true) ∧
    (s.sq.running = true → ¬ s.ResetNext → t.sq.running = true) ∧ t.cfg = s.cfg

/-! ### Segment commands -/

/-- 40_segment_codec.md R121: SEG_NEW.
That it increments NEXT_TRK follows R121 and 10_state.md R36, where 20_memory.md R61's table differs (log 23). -/
def Obligations.SegNewMakesAnEmptySegment : Prop :=
  ∀ (s : State) (link : Bool), s.status.fatal = false →
    exec (.segNew link) s = .next { s with
      status := doneStatus s
      seg := { sport := 0, dport := 0, seqno := 0, ackno := 0, hlen := 20, flags := 0, win := 0, csum := 0, urp := 0,
               optcnt := 0, plen := 0 }
      track := { inTrk := s.track.inTrk, nextTrk := BitVec.ofNat 32 ((s.track.nextTrk.toNat + 1) % 2 ^ 32),
                 trk := s.track.nextTrk, parent := if link then s.track.inTrk else 0, hasParent := link } }

/-- 40_segment_codec.md R122: SEG_DECODE, its checks in order, the fields, chain, payload and identity it writes, and its frame. -/
def Obligations.SegDecodeFollowsItsRule : Prop :=
  ∀ s : State, s.status.fatal = false →
    (badWindow s → exec .segDecode s = raised .badWindow s) ∧
    ∀ W : Bytes, s.WindowIs W →
      (W.length < 20 → exec .segDecode s = raised .truncated s) ∧
      ∀ h : Nat, 20 ≤ W.length → h = (byteAt W 12).toNat / 16 * 4 →
        (h < 20 → exec .segDecode s = raised .malformedOptions s) ∧
        (20 ≤ h → W.length < h → exec .segDecode s = raised .truncated s) ∧
        (20 ≤ h → h ≤ W.length → decodeOptions ((W.take h).drop 20) = none →
          exec .segDecode s = raised .malformedOptions s) ∧
        (∀ ch, 20 ≤ h → h ≤ W.length → decodeOptions ((W.take h).drop 20) = some ch →
          ∃ t, exec .segDecode s = .next t ∧
            t.seg.sport = be16At W 0 ∧ t.seg.dport = be16At W 2 ∧ t.seg.seqno = be32At W 4 ∧ t.seg.ackno = be32At W 8 ∧
            t.seg.hlen.toNat = h ∧
            t.seg.flags.toNat = (byteAt W 12).toNat % 2 * 256 + (byteAt W 13).toNat ∧
            t.seg.win = be16At W 14 ∧ t.seg.csum = be16At W 16 ∧ t.seg.urp = be16At W 18 ∧
            t.seg.optcnt.toNat = ch.length ∧ t.seg.plen.toNat = W.length - h ∧
            (∀ k, k < ch.length → t.opts[k]? = ch[k]?) ∧ (∀ k, ch.length ≤ k → t.opts[k]? = s.opts[k]?) ∧
            t.Holds .pbuf 0 (W.drop h) ∧ s.SameOutside t .pbuf 0 (W.length - h) ∧
            t.track = { s.track with trk := s.track.inTrk, parent := 0, hasParent := false } ∧
            t = { s with status := doneStatus s, seg := t.seg, opts := t.opts, pbuf := t.pbuf, track := t.track })

/-- 40_segment_codec.md R123: SEG_ENCODE writes the header, the options and the payload at OBUF[OOFF..), recomputes HLEN, and emits CSUM as stored; a chain it cannot encode is EIV. -/
def Obligations.SegEncodeFollowsItsRule : Prop :=
  ∀ s : State, s.status.fatal = false →
    (encChain s.chain = none → exec .segEncode s = halted s) ∧
    ∀ O, encChain s.chain = some O →
      (¬ goodLength O → exec .segEncode s = halted s) ∧
      ∀ P, goodLength O → P.length = s.seg.plen.toNat → s.Holds .pbuf 0 P →
        ∃ t E, exec .segEncode s = .next t ∧
          tcpHeader E s.seg (20 + O.length) s.seg.csum ∧ E.drop 20 = O ++ P ∧
          t.Holds .obuf s.out.ooff.toNat E ∧ s.SameOutside t .obuf s.out.ooff.toNat E.length ∧
          t = { s with
            status := doneStatus s
            seg := { s.seg with hlen := BitVec.ofNat 8 (20 + O.length) }
            out := { s.out with olen := BitVec.ofNat 32 E.length }
            obuf := t.obuf }

/-- 40_segment_codec.md R124: SEG_FIND_OPTION finds the first chain option of the kind. -/
def Obligations.SegFindOptionFindsTheFirst : Prop :=
  ∀ (s : State) (kind : Byte), s.status.fatal = false →
    (∀ (i : Nat) (o : TcpOption), s.chain[i]? = some o → o.kind = kind → (∀ j p, j < i → s.chain[j]? = some p → p.kind ≠ kind) →
      exec (.segFindOption kind) s = .next { s with fopt := some o, status := { s.status with err := .none, found := true } }) ∧
    ((∀ o ∈ s.chain, o.kind ≠ kind) →
      exec (.segFindOption kind) s = .next { s with fopt := none, status := { s.status with err := .none, found := false } })

/-- 41_checksum.md R143: SEG_CHECKSUM writes RESULT only, whatever the stored CSUM is; a chain that cannot be encoded is EIV. -/
def Obligations.SegChecksumWritesResultOnly : Prop :=
  ∀ s : State, s.status.fatal = false →
    (encChain s.chain = none → exec .segChecksum s = halted s) ∧
    ∀ O, encChain s.chain = some O →
      (¬ goodLength O → exec .segChecksum s = halted s) ∧
      ∀ P E c, goodLength O → P.length = s.seg.plen.toNat → s.Holds .pbuf 0 P →
        tcpHeader E s.seg (20 + O.length) c → E.drop 20 = O ++ P →
        exec .segChecksum s = .next { s with status := doneStatus s, result := ocsum (tcpSumInput s.ph E) }

/-- 41_checksum.md R144: SEG_GET_RAW computes the checksum, stores it in CSUM and RESULT, and writes the final bytes at OBUF[OOFF..). -/
def Obligations.SegGetRawStoresTheChecksumAndTheBytes : Prop :=
  ∀ s : State, s.status.fatal = false →
    (encChain s.chain = none → exec .segGetRaw s = halted s) ∧
    ∀ O, encChain s.chain = some O →
      (¬ goodLength O → exec .segGetRaw s = halted s) ∧
      ∀ P, goodLength O → P.length = s.seg.plen.toNat → s.Holds .pbuf 0 P →
        ∃ t E, exec .segGetRaw s = .next t ∧
          tcpHeader E s.seg (20 + O.length) (ocsum (tcpSumInput s.ph E)) ∧ E.drop 20 = O ++ P ∧
          t.Holds .obuf s.out.ooff.toNat E ∧ s.SameOutside t .obuf s.out.ooff.toNat E.length ∧
          t = { s with
            status := doneStatus s
            result := ocsum (tcpSumInput s.ph E)
            seg := { s.seg with csum := ocsum (tcpSumInput s.ph E), hlen := BitVec.ofNat 8 (20 + O.length) }
            out := { s.out with olen := BitVec.ofNat 32 E.length }
            obuf := t.obuf }

/-! ### Checksums -/

/-- 41_checksum.md R145 to R147: CSUM_VERIFY with a pseudo-header, TCP and UDP. -/
def Obligations.CsumVerifyWithPseudoHeader : Prop :=
  ∀ s : State, s.status.fatal = false →
    (badWindow s → exec .csumVerifyTcp s = raised .badWindow s ∧ exec .csumVerifyUdp s = raised .badWindow s) ∧
    ∀ W, s.WindowIs W →
      (W.length < 20 → exec .csumVerifyTcp s = raised .truncated s) ∧
      (20 ≤ W.length → exec .csumVerifyTcp s = .next { s with
        result := ocsum (tcpSumInput s.ph W)
        status := { s.status with err := .none, csumOk := ocsum (tcpSumInput s.ph W) == be16At W 16 } }) ∧
      (W.length < 8 → exec .csumVerifyUdp s = raised .truncated s) ∧
      (∀ c0 c : U16, 8 ≤ W.length → c0 = ocsum (zeroTwo (s.ph.bytes ++ W) 18) → c = (if c0 = 0 then 0xFFFF else c0) →
        exec .csumVerifyUdp s = .next { s with
          result := c
          status := { s.status with err := .none, csumOk := be16At W 6 == 0 || c == be16At W 6 } })

/-- 41_checksum.md R145, R148, R149: CSUM_VERIFY without a pseudo-header, ICMP and the IPv4 header.
For an ICMP window of 4 to 7 bytes R148 and 60_exceptions.md R232 differ; the statement follows R148 (log 24). -/
def Obligations.CsumVerifyWithoutPseudoHeader : Prop :=
  ∀ s : State, s.status.fatal = false →
    (badWindow s → exec .csumVerifyIcmp s = raised .badWindow s ∧ exec .csumVerifyIp4 s = raised .badWindow s) ∧
    ∀ W, s.WindowIs W →
      (W.length < 4 → exec .csumVerifyIcmp s = raised .truncated s) ∧
      (4 ≤ W.length → exec .csumVerifyIcmp s = .next { s with
        result := ocsum (zeroTwo W 2)
        status := { s.status with err := .none, csumOk := ocsum (zeroTwo W 2) == be16At W 2 } }) ∧
      (W.length < 20 → exec .csumVerifyIp4 s = raised .truncated s) ∧
      ∀ ihl : Nat, 20 ≤ W.length → ihl = (byteAt W 0).toNat % 16 →
        (ihl < 5 → exec .csumVerifyIp4 s = raised .malformedHeader s) ∧
        (5 ≤ ihl → W.length < 4 * ihl → exec .csumVerifyIp4 s = raised .truncated s) ∧
        (5 ≤ ihl → 4 * ihl ≤ W.length → exec .csumVerifyIp4 s = .next { s with
          result := ocsum (zeroTwo (W.take (4 * ihl)) 10)
          status := { s.status with
            err := .none, csumOk := ocsum (zeroTwo (W.take (4 * ihl)) 10) == be16At W 10 } })

/-- 41_checksum.md R141, 30_encoding.md R93: the checksummed sequence is the 12 pseudo-header bytes and then the segment with its checksum field zeroed. -/
def Obligations.ChecksumInputIsPseudoHeaderAndSegment : Prop :=
  ∀ (p : PseudoHdr) (E : Bytes), 20 ≤ E.length →
    (tcpSumInput p E).length = 12 + E.length ∧
    be32At (tcpSumInput p E) 0 = p.src ∧ be32At (tcpSumInput p E) 4 = p.dst ∧
    be16At (tcpSumInput p E) 8 = p.proto ∧ be16At (tcpSumInput p E) 10 = p.len ∧
    be16At (tcpSumInput p E) 28 = 0 ∧
    ∀ k, k ≠ 16 → k ≠ 17 → byteAt (tcpSumInput p E) (12 + k) = byteAt E k

/-- 41_checksum.md R142 (b), (c) and (d): the folded sum, the two special results, and that the order of the words does not matter. -/
def Obligations.ChecksumArithmetic : Prop :=
  (∀ D : Bytes, foldedSum D ≤ 0xFFFF ∧ foldedSum D % 0xFFFF = wordSum D % 0xFFFF ∧
    (ocsum D = 0xFFFF ↔ ∀ x ∈ D, x = 0) ∧ (ocsum D = 0x0000 ↔ foldedSum D = 0xFFFF)) ∧
  (∀ (A B : Bytes) (a b c d : Byte), A.length % 2 = 0 →
    ocsum (A ++ a :: b :: c :: d :: B) = ocsum (A ++ c :: d :: a :: b :: B))

/-! ### Options -/

/-- 42_option_chain.md R170: OPT_DECODE. -/
def Obligations.OptDecodeFollowsItsRule : Prop :=
  ∀ s : State, s.status.fatal = false →
    (badWindow s → exec .optDecode s = raised .badWindow s) ∧
    ∀ W, s.WindowIs W →
      (40 < W.length → exec .optDecode s = raised .malformedOptions s) ∧
      (W.length ≤ 40 → decodeOptions W = none → exec .optDecode s = raised .malformedOptions s) ∧
      (∀ ch, W.length ≤ 40 → decodeOptions W = some ch →
        ∃ t, exec .optDecode s = .next t ∧ t.seg.optcnt.toNat = ch.length ∧
          (∀ k, k < ch.length → t.opts[k]? = ch[k]?) ∧ (∀ k, ch.length ≤ k → t.opts[k]? = s.opts[k]?) ∧
          t = { s with status := doneStatus s, seg := { s.seg with optcnt := t.seg.optcnt }, opts := t.opts })

/-- 42_option_chain.md R171: OPT_ENCODE. R168: the bytes of each of the seven kinds; only an UNKNOWN with a known tag has none. R169: a chain's bytes are its options' bytes one after another, and it has none if an option has none. -/
def Obligations.OptEncodeFollowsItsRule : Prop :=
  (∀ (s : State) (slot : Byte), s.status.fatal = false →
    (s.seg.optcnt.toNat ≤ slot.toNat → exec (.optEncode slot) s = raised .indexRange s) ∧
    ∀ o, slot.toNat < s.seg.optcnt.toNat → s.opts[slot.toNat]? = some o →
      (encOpt o = none → exec (.optEncode slot) s = halted s) ∧
      ∀ B, encOpt o = some B →
        ∃ t, exec (.optEncode slot) s = .next t ∧
          t.Holds .obuf s.out.ooff.toNat B ∧ s.SameOutside t .obuf s.out.ooff.toNat B.length ∧
          t = { s with
            status := doneStatus s, out := { s.out with olen := BitVec.ofNat 32 B.length }, obuf := t.obuf }) ∧
  encOpt .eol = some [0x00] ∧ encOpt .nop = some [0x01] ∧ encOpt .sackperm = some [0x04, 0x02] ∧
  (∀ x, encOpt (.ws x) = some [0x03, 0x03, x]) ∧
  (∀ a b : Byte, encOpt (.mss (be16 a b)) = some [0x02, 0x04, a, b]) ∧
  (∀ a b c d e f g h : Byte, encOpt (.ts (be32 a b c d) (be32 e f g h)) = some [0x08, 0x0A, a, b, c, d, e, f, g, h]) ∧
  (∀ (tag : Byte) (data : Bytes), tag.toNat ∈ [0, 1, 2, 3, 4, 8] → encOpt (.unknown tag data) = none) ∧
  (∀ (tag len : Byte) (data : Bytes), tag.toNat ∉ [0, 1, 2, 3, 4, 8] → len.toNat = 2 + data.length →
    encOpt (.unknown tag data) = some (tag :: len :: data)) ∧
  (∀ (c : List TcpOption) (Bs : List Bytes), c.map encOpt = Bs.map some → encChain c = some Bs.flatten) ∧
  (∀ c : List TcpOption, (∃ o ∈ c, encOpt o = none) → encChain c = none)

/-- 42_option_chain.md R161 to R167: each record, run by the scanner, appends its option and goes on behind the record; EOL stops the scan; a wrong length and a record that overruns the area fail it.
That the scanner's place is a field of the state is the model's (log 10). -/
def Obligations.OptionRecordsExtendTheScannedChain : Prop :=
  ∀ (s : State) (rest : Bytes) (c : List TcpOption), s.scan = .scanning rest c →
    exec .optEol s = .next { s with scan := .scanning [] (c ++ [.eol]) } ∧
    (1 ≤ rest.length → exec .optNop s = .next { s with scan := .scanning (rest.drop 1) (c ++ [.nop]) }) ∧
    (∀ v, 4 ≤ rest.length → exec (.optMss 4 v) s = .next { s with scan := .scanning (rest.drop 4) (c ++ [.mss v]) }) ∧
    (∀ x, 3 ≤ rest.length → exec (.optWs 3 x) s = .next { s with scan := .scanning (rest.drop 3) (c ++ [.ws x]) }) ∧
    (2 ≤ rest.length → exec (.optSackperm 2) s = .next { s with scan := .scanning (rest.drop 2) (c ++ [.sackperm]) }) ∧
    (∀ a b, 10 ≤ rest.length →
      exec (.optTs 10 a b) s = .next { s with scan := .scanning (rest.drop 10) (c ++ [.ts a b]) }) ∧
    (∀ (tag len : Byte) (d : Bytes), 2 ≤ len.toNat → len.toNat ≤ rest.length →
      exec (.optUnknown tag len d) s = .next { s with scan := .scanning (rest.drop len.toNat) (c ++ [.unknown tag d]) }) ∧
    (∀ len v, len ≠ 4 → exec (.optMss len v) s = .next { s with scan := .failed }) ∧
    (∀ len x, len ≠ 3 → exec (.optWs len x) s = .next { s with scan := .failed }) ∧
    (∀ len, len ≠ 2 → exec (.optSackperm len) s = .next { s with scan := .failed }) ∧
    (∀ len a b, len ≠ 10 → exec (.optTs len a b) s = .next { s with scan := .failed }) ∧
    (∀ v, rest.length < 4 → exec (.optMss 4 v) s = .next { s with scan := .failed }) ∧
    (∀ x, rest.length < 3 → exec (.optWs 3 x) s = .next { s with scan := .failed }) ∧
    (rest.length < 2 → exec (.optSackperm 2) s = .next { s with scan := .failed }) ∧
    (∀ a b, rest.length < 10 → exec (.optTs 10 a b) s = .next { s with scan := .failed }) ∧
    (∀ tag (len : Byte) d, len.toNat < 2 ∨ rest.length < len.toNat →
      exec (.optUnknown tag len d) s = .next { s with scan := .failed })

/-- 42_option_chain.md R160: decode_options on the bytes of an area. -/
def Obligations.ScanFollowsItsRule : Prop :=
  decodeOptions [] = some [] ∧
  (∀ r, decodeOptions (0 :: r) = some [.eol]) ∧
  (∀ r, decodeOptions (1 :: r) = (decodeOptions r).map (.nop :: ·)) ∧
  (∀ a b r, decodeOptions (2 :: 4 :: a :: b :: r) = (decodeOptions r).map (.mss (be16 a b) :: ·)) ∧
  (∀ x r, decodeOptions (3 :: 3 :: x :: r) = (decodeOptions r).map (.ws x :: ·)) ∧
  (∀ r, decodeOptions (4 :: 2 :: r) = (decodeOptions r).map (.sackperm :: ·)) ∧
  (∀ a b c d e f g h r, decodeOptions (8 :: 10 :: a :: b :: c :: d :: e :: f :: g :: h :: r) =
    (decodeOptions r).map (.ts (be32 a b c d) (be32 e f g h) :: ·)) ∧
  (∀ (t l : Byte) (d r : Bytes), knownTag t = false → l.toNat = 2 + d.length →
    decodeOptions (t :: l :: (d ++ r)) = (decodeOptions r).map (.unknown t d :: ·)) ∧
  (∀ t : Byte, t ≠ 0 → t ≠ 1 → decodeOptions [t] = none) ∧
  (∀ (t l : Byte) (r : Bytes), t ≠ 0 → t ≠ 1 → l.toNat < 2 ∨ 2 + r.length < l.toNat → decodeOptions (t :: l :: r) = none) ∧
  (∀ (l : Byte) (r : Bytes), l ≠ 4 → decodeOptions (2 :: l :: r) = none) ∧
  (∀ (l : Byte) (r : Bytes), l ≠ 3 → decodeOptions (3 :: l :: r) = none) ∧
  (∀ (l : Byte) (r : Bytes), l ≠ 2 → decodeOptions (4 :: l :: r) = none) ∧
  (∀ (l : Byte) (r : Bytes), l ≠ 10 → decodeOptions (8 :: l :: r) = none)

/-- The scanner run record by record ends as decode_options says: the chain is committed as OPT_DECODE commits it, or MALFORMED_OPTIONS is raised (42_option_chain.md R160, R170).
That a scan can be run record by record is the model's (log 10). -/
def Obligations.ScanningRecordByRecordIsDecodeOptions : Prop :=
  ∀ (s : State) (A : Bytes), s.scan = .scanning A [] →
    ∃ n, Sys2Proof.core.run n s =
      match decodeOptions A with
      | some c => .next { s with
          scan := .idle, status := doneStatus s
          opts := putChain s.opts c, seg := { s.seg with optcnt := BitVec.ofNat 6 c.length } }
      | none => .next { s with scan := .idle, status := { s.status with err := .malformedOptions } }

/-- 42_option_chain.md R172: the option round trip. -/
def Obligations.OptionChainRoundTrip : Prop :=
  ∀ (c : List TcpOption) (b : Bytes), eolOnlyLast c → encChain c = some b → b.length ≤ 40 → decodeOptions b = some c

/-! ### Laws of the codec -/

/-- 40_segment_codec.md R125: decoding an encoded segment gives the segment back.
The invariant of the machine rules out states whose registers are outside their ranges. -/
def Obligations.SegmentRoundTrip : Prop :=
  ∀ s t u : State, s.Inv → s.status.fatal = false → s.out.ooff = 0 → eolOnlyLast s.chain →
    exec .segEncode s = .next t → t.status.err = .none →
    u.status.fatal = false → u.win.ilen = t.out.olen →
    u.win.ioff.toNat + u.win.ilen.toNat ≤ u.cfg.ibufBytes →
    (∀ k, k < t.out.olen.toNat → u.byte? .ibuf (u.win.ioff.toNat + k) = t.byte? .obuf k) →
    ∃ v, exec .segDecode u = .next v ∧ v.status.err = .none ∧
      v.seg = { s.seg with hlen := t.seg.hlen } ∧ v.chain = s.chain ∧
      (∀ k, k < s.seg.plen.toNat → v.byte? .pbuf k = s.byte? .pbuf k) ∧
      v.track = { u.track with trk := u.track.inTrk, parent := 0, hasParent := false }

/-- 40_segment_codec.md R126: one flag set is one bit set, in its place, and decodes to itself. -/
def Obligations.EachFlagHasItsOwnBit : Prop :=
  ∀ (s : State) (j : Nat), j < 9 → s.status.fatal = false → s.out.ooff = 0 →
    s.seg = { Seg.empty with flags := 1#9 <<< j } →
    ∃ t, exec .segEncode s = .next t ∧ t.status.err = .none ∧
      t.byte? .obuf 12 = some (if j = 8 then 0x51 else 0x50) ∧
      t.byte? .obuf 13 = some (if j = 8 then 0x00 else 1#8 <<< j) ∧
      ∀ u, u.status.fatal = false → u.win.ilen = 20 → u.win.ioff.toNat + 20 ≤ u.cfg.ibufBytes →
        (∀ k, k < 20 → u.byte? .ibuf (u.win.ioff.toNat + k) = t.byte? .obuf k) →
        ∃ v, exec .segDecode u = .next v ∧ v.status.err = .none ∧ v.seg.flags = 1#9 <<< j

/-- 40_segment_codec.md R127: a SEG_ENCODE that does not raise EIV writes a header length that is a multiple of 4 in [20, 60], in HLEN and in the nibble, and zero reserved bits. -/
def Obligations.EncodedHeaderLengthIsLegal : Prop :=
  ∀ s t : State, s.status.fatal = false → s.out.ooff = 0 → exec .segEncode s = .next t →
    (t.status.err = .eiv ∧ t.status.fatal = true) ∨
    (t.status.err = .none ∧ 20 ≤ t.seg.hlen.toNat ∧ t.seg.hlen.toNat ≤ 60 ∧ t.seg.hlen.toNat % 4 = 0 ∧
      ∃ x, t.byte? .obuf 12 = some x ∧ (x.extractLsb' 4 4).toNat * 4 = t.seg.hlen.toNat ∧ x.extractLsb' 1 3 = 0)

/-- 41_checksum.md R150: what SEG_GET_RAW finalised verifies, and the checksum over the stored bytes is 0. -/
def Obligations.FinalisedSegmentVerifies : Prop :=
  ∀ s t u : State, s.Inv → s.status.fatal = false → s.out.ooff = 0 →
    exec .segGetRaw s = .next t → t.status.err = .none →
    u.status.fatal = false → u.ph = s.ph → u.win.ilen = t.out.olen →
    u.win.ioff.toNat + u.win.ilen.toNat ≤ u.cfg.ibufBytes →
    (∀ k, k < t.out.olen.toNat → u.byte? .ibuf (u.win.ioff.toNat + k) = t.byte? .obuf k) →
    (∃ v, exec .csumVerifyTcp u = .next v ∧ v.status.err = .none ∧ v.status.csumOk = true ∧ v.result = t.seg.csum) ∧
    (∀ E : Bytes, E.length = t.out.olen.toNat → t.Holds .obuf 0 E → ocsum (s.ph.bytes ++ E) = 0)

/-! ### Parsers -/

/-- 43_frame_parsers.md R181: ETH_PARSE. -/
def Obligations.EthParseFollowsItsRule : Prop :=
  ∀ s : State, s.status.fatal = false →
    (badWindow s → exec .ethParse s = raised .badWindow s) ∧
    ∀ W, s.WindowIs W →
      (W.length < 14 → exec .ethParse s = raised .truncated s) ∧
      (14 ≤ W.length → exec .ethParse s = .next { s with
        status := doneStatus s
        eth := { dst := be48At W 0, src := be48At W 6, etype := be16At W 12 }
        lpay := { poff := BitVec.ofNat 32 (s.win.ioff.toNat + 14), plen := BitVec.ofNat 32 (W.length - 14) } })

/-- 43_frame_parsers.md R182: ARP_PARSE. -/
def Obligations.ArpParseFollowsItsRule : Prop :=
  ∀ s : State, s.status.fatal = false →
    (badWindow s → exec .arpParse s = raised .badWindow s) ∧
    ∀ W, s.WindowIs W →
      (W.length < 28 → exec .arpParse s = raised .truncated s) ∧
      (28 ≤ W.length → ¬ (be16At W 0 = 1 ∧ be16At W 2 = 0x0800 ∧ byteAt W 4 = 6 ∧ byteAt W 5 = 4) →
        exec .arpParse s = raised .malformedHeader s) ∧
      (28 ≤ W.length → be16At W 0 = 1 → be16At W 2 = 0x0800 → byteAt W 4 = 6 → byteAt W 5 = 4 →
        exec .arpParse s = .next { s with
          status := doneStatus s
          arp := { htype := 1, ptype := 0x0800, hlen := 6, plen := 4, oper := be16At W 6, sha := be48At W 8,
                   spa := be32At W 14, tha := be48At W 18, tpa := be32At W 24 }
          lpay := { poff := BitVec.ofNat 32 (s.win.ioff.toNat + 28), plen := 0 } })

/-- 43_frame_parsers.md R183: IP4_PARSE, its checks in order. -/
def Obligations.Ip4ParseFollowsItsRule : Prop :=
  ∀ s : State, s.status.fatal = false →
    (badWindow s → exec .ip4Parse s = raised .badWindow s) ∧
    ∀ W, s.WindowIs W →
      (W.length < 20 → exec .ip4Parse s = raised .truncated s) ∧
      ∀ ver hl tlen : Nat, 20 ≤ W.length → ver = (byteAt W 0).toNat / 16 → hl = 4 * ((byteAt W 0).toNat % 16) →
        tlen = (byteAt W 2).toNat * 256 + (byteAt W 3).toNat →
        (ver ≠ 4 ∨ hl < 20 → exec .ip4Parse s = raised .malformedHeader s) ∧
        (ver = 4 → 20 ≤ hl → W.length < hl → exec .ip4Parse s = raised .truncated s) ∧
        (ver = 4 → 20 ≤ hl → hl ≤ W.length → tlen < hl → exec .ip4Parse s = raised .malformedHeader s) ∧
        (ver = 4 → 20 ≤ hl → hl ≤ tlen → hl ≤ W.length → W.length < tlen → exec .ip4Parse s = raised .truncated s) ∧
        (ver = 4 → 20 ≤ hl → hl ≤ tlen → tlen ≤ W.length →
          exec .ip4Parse s = .next { s with
            status := doneStatus s
            ip := { ver := 4, hlen := BitVec.ofNat 8 hl, tos := byteAt W 1, tlen := be16At W 2, ident := be16At W 4,
                    flags := BitVec.ofNat 3 ((byteAt W 6).toNat / 32),
                    frag := BitVec.ofNat 13 ((byteAt W 6).toNat % 32 * 256 + (byteAt W 7).toNat),
                    ttl := byteAt W 8, proto := byteAt W 9, csum := be16At W 10, src := be32At W 12, dst := be32At W 16 }
            lpay := { poff := BitVec.ofNat 32 (s.win.ioff.toNat + hl), plen := BitVec.ofNat 32 (tlen - hl) } })

/-- 43_frame_parsers.md R184: ICMP4_PARSE. -/
def Obligations.Icmp4ParseFollowsItsRule : Prop :=
  ∀ s : State, s.status.fatal = false →
    (badWindow s → exec .icmp4Parse s = raised .badWindow s) ∧
    ∀ W, s.WindowIs W →
      (W.length < 8 → exec .icmp4Parse s = raised .truncated s) ∧
      (8 ≤ W.length → exec .icmp4Parse s = .next { s with
        status := doneStatus s
        icmp := { type := byteAt W 0, code := byteAt W 1, csum := be16At W 2, rest := be32At W 4 }
        lpay := { poff := BitVec.ofNat 32 (s.win.ioff.toNat + 8), plen := BitVec.ofNat 32 (W.length - 8) } })

/-- 43_frame_parsers.md R185: UDP_PARSE. -/
def Obligations.UdpParseFollowsItsRule : Prop :=
  ∀ s : State, s.status.fatal = false →
    (badWindow s → exec .udpParse s = raised .badWindow s) ∧
    ∀ W, s.WindowIs W →
      (W.length < 8 → exec .udpParse s = raised .truncated s) ∧
      ∀ ulen : Nat, 8 ≤ W.length → ulen = (byteAt W 4).toNat * 256 + (byteAt W 5).toNat →
        (ulen < 8 → exec .udpParse s = raised .malformedHeader s) ∧
        (8 ≤ ulen → W.length < ulen → exec .udpParse s = raised .truncated s) ∧
        (8 ≤ ulen → ulen ≤ W.length → exec .udpParse s = .next { s with
          status := doneStatus s
          udp := { sport := be16At W 0, dport := be16At W 2, len := be16At W 4, csum := be16At W 6 }
          lpay := { poff := BitVec.ofNat 32 (s.win.ioff.toNat + 8), plen := BitVec.ofNat 32 (ulen - 8) } })

/-! ### Pipeline -/

/-- 44_pipeline.md R202, R210: TX_ENQUEUE with room, dropping, and held; a hold ends only when TXQ has room, or at a reset, and until then the handler whose command it is cannot end.
How a hold is kept (hostHeld, workerHeld), and that a held command's resume passes, is the model's (log 3, 14). -/
def Obligations.TxEnqueueFollowsItsRule : Prop :=
  (∀ s : State, s.status.fatal = false →
    (∀ F, F.length = s.out.txlen.toNat → s.Holds .obuf 0 F → txqHasRoom s →
      exec .txEnqueue s = .next { s with status := doneStatus s, txq := s.txq ++ [F] }) ∧
    (¬ txqHasRoom s →
      (∀ F, s.cfg.txqFull = .drop → F.length = s.out.txlen.toNat → s.Holds .obuf 0 F →
        exec .txEnqueue s = .next { s with status := doneStatus s }) ∧
      (s.cfg.txqFull = .hold → s.issuer = .host → exec .txEnqueue s = .next { s with hostHeld := true }) ∧
      (s.cfg.txqFull = .hold → s.issuer = .worker → exec .txEnqueue s = .next { s with workerHeld := true }))) ∧
  (∀ s t : State, step s = .next t → ¬ txqHasRoom s → ¬ s.ResetNext →
    (s.hostHeld = true → t.hostHeld = true) ∧ (s.workerHeld = true → t.workerHeld = true)) ∧
  (∀ (s : State) (th : Thread) (rest : List Event), nextEvent s (.resume th) rest → ¬ txqHasRoom s →
    step s = .next { s with inputs := rest }) ∧
  (∀ (s : State) (v : Verdict) (rest : List Event), nextEvent s (.verdict v) rest → s.workerHeld = true →
    step s = .next { s with inputs := rest })

/-- 44_pipeline.md R201: SQ_START wires the cache and starts the worker, once. -/
def Obligations.SqStartStartsTheWorkerOnce : Prop :=
  ∀ s : State, s.status.fatal = false →
    (s.sq.running = true → exec .sqStart s = raised .badState s) ∧
    (s.sq.running = false → exec .sqStart s = .next { s with
      status := doneStatus s
      sq := { s.sq with wired := true, running := true }
      seqr := { s.seqr with phase := .idle } })

/-- 30_encoding.md R99, R100, 44_pipeline.md R205: the selectors choose the layer to parse after the Ethernet and the IP handler.
That a selector run in any other phase changes nothing is the model's (log 12). -/
def Obligations.SelectorsChooseTheNextLayer : Prop :=
  (∀ s : State, s.seqr.phase = .handle .eth →
    exec .etypeIpv4 s = .next { s with seqr := { s.seqr with phase := .parse .ip } } ∧
    exec .etypeArp s = .next { s with seqr := { s.seqr with phase := .parse .arp } }) ∧
  (∀ s : State, s.seqr.phase = .handle .ip →
    exec .ipprotoIcmp s = .next { s with seqr := { s.seqr with phase := .parse .icmp } } ∧
    exec .ipprotoTcp s = .next { s with seqr := { s.seqr with phase := .parse .tcp } } ∧
    exec .ipprotoUdp s = .next { s with seqr := { s.seqr with phase := .parse .udp } }) ∧
  (∀ (s : State) (i : Instr), (i.format = .etype16 ∧ s.seqr.phase ≠ .handle .eth) ∨ (i.format = .ipproto8 ∧ s.seqr.phase ≠ .handle .ip) →
    exec i s = .next s)

/-- 44_pipeline.md R205, second table: a verdict moves SQ_PHASE and nothing else.
That it does so while FATAL = 1 too is the model's reading (log 13). -/
def Obligations.VerdictMovesThePhaseByTheTable : Prop :=
  ∀ (s : State) (v : Verdict) (l : Layer) (rest : List Event),
    nextEvent s (.verdict v) rest → s.sq.running = true → s.seqr.phase = .handle l → s.workerHeld = false →
    step s = .next { s with inputs := rest, seqr := { s.seqr with phase := phaseAfter v l s.seqr.sel } }

/-- 44_pipeline.md R204: the dequeue step, an oversized frame, and the hold on an empty RXQ.
That SEQ's turn on an empty RXQ is a step which only takes its event is the model's choice (log 3). -/
def Obligations.DequeueFollowsItsRule : Prop :=
  ∀ (s : State) (rest : List Event), nextEvent s .seq rest → s.sq.running = true → s.status.fatal = false →
    s.seqr.phase = .idle →
    (s.rxq = [] → step s = .next { s with inputs := rest }) ∧
    ∀ F more, s.rxq = F :: more →
      (s.cfg.ibufBytes < F.length → step s = .next { s with
        inputs := rest, rxq := more
        track := { s.track with inTrk := s.track.nextTrk, nextTrk := s.track.nextTrk + 1 }
        sq := { s.sq with drops := s.sq.drops + 1 } }) ∧
      (F.length ≤ s.cfg.ibufBytes → ∃ t, step s = .next t ∧
        t.Holds .ibuf 0 F ∧ s.SameOutside t .ibuf 0 F.length ∧
        t = { s with
          inputs := rest, rxq := more, ibuf := t.ibuf
          track := { s.track with inTrk := s.track.nextTrk, nextTrk := s.track.nextTrk + 1 }
          seqr := { s.seqr with flen := BitVec.ofNat 32 F.length, phase := .parse .eth } })

/-- 44_pipeline.md R205, first table: each parse step sets the window, runs the layer's parser and its checksum, saves what the next layer needs, and moves to HANDLE; an error drops the frame. -/
def Obligations.ParseStepsFollowTheTable : Prop :=
  ∀ (s : State) (rest : List Event) (s0 : State), nextEvent s .seq rest → s.sq.running = true → s.status.fatal = false →
    s0 = { s with inputs := rest } →
    (∀ (l : Layer) (i : Instr) (u : State),
      s.seqr.phase = .parse l →
      (l = .eth ∧ i = .ethParse ∧ exec i { s0 with win := ⟨0, s.seqr.flen⟩ } = .next u ∨
       l = .arp ∧ i = .arpParse ∧ exec i { s0 with win := ⟨s.seqr.noff, s.seqr.nlen⟩ } = .next u ∨
       l = .ip ∧ i = .ip4Parse ∧ exec i { s0 with win := ⟨s.seqr.noff, s.seqr.nlen⟩ } = .next u ∨
       l = .icmp ∧ i = .icmp4Parse ∧ exec i { s0 with win := ⟨s.seqr.noff, s.seqr.nlen⟩ } = .next u ∨
       l = .udp ∧ i = .udpParse ∧ exec i { s0 with win := ⟨s.seqr.noff, s.seqr.nlen⟩ } = .next u ∨
       l = .tcp ∧ i = .segDecode ∧ exec i { s0 with
          win := ⟨s.seqr.noff, s.seqr.nlen⟩
          ph := ⟨s.seqr.psrc, s.seqr.pdst, 6, s.seqr.nlen.setWidth 16⟩ } = .next u) →
      (u.status.err ≠ .none → step s = .next { u with
        sq := { u.sq with drops := u.sq.drops + 1 }, seqr := { u.seqr with phase := .idle } }) ∧
      (u.status.err = .none →
        (l = .eth → step s = .next { u with seqr := { u.seqr with
          sel := u.eth.etype, noff := u.lpay.poff, nlen := u.lpay.plen, phase := .handle .eth } }) ∧
        (l = .arp → step s = .next { u with seqr := { u.seqr with phase := .handle .arp } }) ∧
        (∀ w, l = .ip → exec .csumVerifyIp4 u = .next w → step s = .next { w with seqr := { w.seqr with
          sel := w.ip.proto.setWidth 16, noff := w.lpay.poff, nlen := w.lpay.plen
          psrc := w.ip.src, pdst := w.ip.dst, phase := .handle .ip } }) ∧
        (∀ w, l = .icmp → exec .csumVerifyIcmp u = .next w →
          step s = .next { w with seqr := { w.seqr with phase := .handle .icmp } }) ∧
        (∀ w, l = .udp → exec .csumVerifyUdp { u with
            win := { u.win with ilen := u.udp.len.setWidth 32 }
            ph := ⟨s.seqr.psrc, s.seqr.pdst, 17, u.udp.len⟩ } = .next w →
          step s = .next { w with seqr := { w.seqr with phase := .handle .udp } }) ∧
        (∀ w, l = .tcp → exec .csumVerifyTcp u = .next w →
          step s = .next { w with seqr := { w.seqr with phase := .handle .tcp } })))

/-- 44_pipeline.md R207: a parse step never stops SEQ: where the layer's window lies in IBUF and its bytes are written, whatever they are, it goes on to the handler, or the frame is dropped and counted and SEQ is IDLE.
The invariant gives every window that SEQ uses inside IBUF (10_state.md R43, R45). -/
def Obligations.DecodeErrorsNeverStopTheLoop : Prop :=
  ∀ (s : State) (l : Layer) (rest : List Event) (off len : Nat) (W : Bytes),
    nextEvent s .seq rest → s.sq.running = true → s.status.fatal = false → s.seqr.phase = .parse l →
    off = (if l = .eth then 0 else s.seqr.noff.toNat) → len = (if l = .eth then s.seqr.flen.toNat else s.seqr.nlen.toNat) →
    off + len ≤ s.cfg.ibufBytes → W.length = len → s.Holds .ibuf off W →
    ∃ t, step s = .next t ∧
      t.sq.running = true ∧ t.status.fatal = false ∧ t.rxq = s.rxq ∧ t.txq = s.txq ∧
      ((t.seqr.phase = .handle l ∧ t.sq.drops = s.sq.drops ∧ t.status.err = .none) ∨
       (t.seqr.phase = .idle ∧ t.sq.drops = s.sq.drops + 1 ∧ t.status.err ≠ .none))

/-- 44_pipeline.md R200, R206, 60_exceptions.md R231: SEQ takes no step in UNINIT, while halted, or while a handler runs.
That its turn is then a step which changes nothing but takes its event is the model's choice (log 3). -/
def Obligations.SequencerHoldsStill : Prop :=
  ∀ (s : State) (rest : List Event), nextEvent s .seq rest →
    s.sq.running = false ∨ s.status.fatal = true ∨ (∃ l, s.seqr.phase = .handle l) →
    step s = .next { s with inputs := rest }

/-- 44_pipeline.md R208 (a), 20_memory.md R73: RXQ loses only its oldest frame, to SEQ while it is RUNNING, not halted and IDLE, or to another instance connected to RXQ (44_pipeline.md R211); otherwise it is unchanged or gets one frame at its end.
How another instance is seen is the model's choice (log 21). -/
def Obligations.FramesAreTakenInOrderAndOneAtATime : Prop :=
  ∀ s t : State, step s = .next t →
    t.rxq = s.rxq ∨ (∃ F, s.inputs.head? = some (.rxArrive F) ∧ t.rxq = s.rxq ++ [F]) ∨
    (s.inputs.head? = some .rxTakeOther ∧ t.rxq = s.rxq.tail) ∨
    (s.sq.running = true ∧ s.status.fatal = false ∧ s.seqr.phase = .idle ∧ ∃ F, s.rxq = F :: t.rxq)

/-- 44_pipeline.md R202, R208 (c), 20_memory.md R73: TXQ gets one frame at its end, which finds room and is OBUF[0..TXLEN) or comes from another instance connected to TXQ (44_pipeline.md R211), or loses its oldest to the consumer, or is unchanged.
How another instance is seen is the model's choice (log 21). -/
def Obligations.TransmitQueueIsFirstInFirstOut : Prop :=
  ∀ s t : State, step s = .next t →
    t.txq = s.txq ∨
    (∃ F, F.length = s.out.txlen.toNat ∧ s.Holds .obuf 0 F ∧ txqHasRoom s ∧ t.txq = s.txq ++ [F]) ∨
    (∃ F, s.inputs.head? = some (.txPutOther F) ∧ txqHasRoom s ∧ t.txq = s.txq ++ [F]) ∨
    (s.inputs.head? = some .txTake ∧ t.txq = s.txq.tail)

/-- 44_pipeline.md R203, R206: a transaction of ARPC takes effect only while WIRED = 1 and a handler runs, a handler's only while it runs; otherwise the block is unchanged. That such an input passes is the model's (log 3). -/
def Obligations.WorkerAgentsActOnlyInsideAHandler : Prop :=
  ∀ (s : State) (bytes : Bytes) (rest : List Event),
    (nextEvent s (.txn .arpc bytes) rest → s.sq.wired = false ∨ s.handling = none →
      step s = .next { s with inputs := rest }) ∧
    (nextEvent s (.txn .handler bytes) rest → s.handling = none → step s = .next { s with inputs := rest })

/-! ### Whole-machine rules -/

/-- 20_memory.md R61, 10_state.md R24, R26: which command writes which state; all the rest it leaves alone.
For the tracking registers R61's table and R36 differ; the statement follows R36 (log 23). -/
def Obligations.CommandsWriteOnlyTheirOwnState : Prop :=
  ∀ (i : Instr) (s t : State), command i → exec i s = .next t →
    t.cfg = s.cfg ∧ t.win = s.win ∧ t.ph = s.ph ∧ t.ibuf = s.ibuf ∧ t.rxq = s.rxq ∧ t.resp = s.resp ∧
    t.out.ooff = s.out.ooff ∧ t.out.txlen = s.out.txlen ∧ t.track.inTrk = s.track.inTrk ∧ t.sq.drops = s.sq.drops ∧
    t.sq.cfgMac = s.sq.cfgMac ∧ t.sq.cfgIp = s.sq.cfgIp ∧
    (t.pbuf ≠ s.pbuf → i = .segDecode) ∧
    (t.obuf ≠ s.obuf ∨ t.out.olen ≠ s.out.olen → i = .segEncode ∨ i = .segGetRaw ∨ ∃ n, i = .optEncode n) ∧
    (t.seg ≠ s.seg → i = .segDecode ∨ (∃ b, i = .segNew b) ∨
      (i = .segEncode ∧ t.seg = { s.seg with hlen := t.seg.hlen }) ∨
      (i = .segGetRaw ∧ t.seg = { s.seg with hlen := t.seg.hlen, csum := t.seg.csum }) ∨
      (i = .optDecode ∧ t.seg = { s.seg with optcnt := t.seg.optcnt })) ∧
    (t.opts ≠ s.opts → i = .segDecode ∨ i = .optDecode) ∧
    (t.track ≠ s.track → i = .segDecode ∨ ∃ b, i = .segNew b) ∧
    (t.fopt ≠ s.fopt ∨ t.status.found ≠ s.status.found → ∃ k, i = .segFindOption k) ∧
    (t.status.csumOk ≠ s.status.csumOk →
      i = .csumVerifyTcp ∨ i = .csumVerifyUdp ∨ i = .csumVerifyIcmp ∨ i = .csumVerifyIp4) ∧
    (t.result ≠ s.result → i = .segChecksum ∨ i = .segGetRaw ∨
      i = .csumVerifyTcp ∨ i = .csumVerifyUdp ∨ i = .csumVerifyIcmp ∨ i = .csumVerifyIp4) ∧
    (t.eth ≠ s.eth → i = .ethParse) ∧ (t.arp ≠ s.arp → i = .arpParse) ∧ (t.ip ≠ s.ip → i = .ip4Parse) ∧
    (t.icmp ≠ s.icmp → i = .icmp4Parse) ∧ (t.udp ≠ s.udp → i = .udpParse) ∧
    (t.lpay ≠ s.lpay → i = .ethParse ∨ i = .arpParse ∨ i = .ip4Parse ∨ i = .icmp4Parse ∨ i = .udpParse) ∧
    (t.sq ≠ s.sq ∨ t.seqr ≠ s.seqr → i = .sqStart) ∧ (t.txq ≠ s.txq → i = .txEnqueue)

/-- 10_state.md R36: no tracking identity affects what a command or a step of SEQ does to anything but the tracking registers. -/
def Obligations.TrackingIdentitiesAffectNothingElse : Prop :=
  ∀ (s t : State) (k : Track),
    (∀ i : Instr, command i → exec i s = .next t → ∃ k', exec i { s with track := k } = .next { t with track := k' }) ∧
    (seqStep s = .next t → ∃ k', seqStep { s with track := k } = .next { t with track := k' })

/-- 20_memory.md R67: a command is one atomic step: no step leaves a scan open that was not open before it. That a scan is a field of the state is the model's (log 10). -/
def Obligations.NoStepLeavesAScanOpen : Prop :=
  ∀ s t : State, s.scan = .idle → step s = .next t → t.scan = .idle

/-- 70_reset_and_hazards.md R250, R253: the reset event gives every register, buffer and sequencer field its reset value and keeps the external state.
What of the model's own fields it keeps is the model's choice (log 18). -/
def Obligations.ResetEventRestoresTheBlock : Prop :=
  ∀ (s : State) (rest : List Event), nextEvent s .reset rest →
    step s = .next { State.reset with
      cfg := s.cfg, rxq := s.rxq, txq := s.txq, arpcCache := s.arpcCache
      inputs := rest, resp := s.resp, arpcResp := s.arpcResp }

/-- The state after reset meets the invariant and holds the values of 70_reset_and_hazards.md R250 and R251, in every register of 10_state.md R24 to R45, in the sequencer's private state and in the buffers; every register a host reads gives them.
The parameters and the empty queues are the model's choice (log 1, 17). -/
def Obligations.ResetStateHoldsItsValues : Prop :=
  State.reset.Inv ∧
  State.reset.status = { err := .none, fatal := false, found := false, csumOk := false } ∧
  State.reset.result = 0 ∧ State.reset.win = { ioff := 0, ilen := 0 } ∧ State.reset.out = { olen := 0, ooff := 0, txlen := 0 } ∧
  State.reset.ph = { src := 0, dst := 0, proto := 0, len := 0 } ∧
  State.reset.seg = { sport := 0, dport := 0, seqno := 0, ackno := 0, hlen := 20, flags := 0, win := 0, csum := 0, urp := 0,
                      optcnt := 0, plen := 0 } ∧
  State.reset.opts = List.replicate 40 .eol ∧ State.reset.fopt = none ∧
  State.reset.track = { inTrk := 0, nextTrk := 0, trk := 0, parent := 0, hasParent := false } ∧
  State.reset.eth = { dst := 0, src := 0, etype := 0 } ∧
  State.reset.arp = { htype := 0, ptype := 0, hlen := 0, plen := 0, oper := 0, sha := 0, spa := 0, tha := 0, tpa := 0 } ∧
  State.reset.ip = { ver := 0, hlen := 0, tos := 0, tlen := 0, ident := 0, flags := 0, frag := 0, ttl := 0, proto := 0, csum := 0,
                     src := 0, dst := 0 } ∧
  State.reset.icmp = { type := 0, code := 0, csum := 0, rest := 0 } ∧
  State.reset.udp = { sport := 0, dport := 0, len := 0, csum := 0 } ∧
  State.reset.lpay = { poff := 0, plen := 0 } ∧
  State.reset.sq = { running := false, wired := false, drops := 0, cfgMac := 0, cfgIp := 0 } ∧
  State.reset.seqr = { phase := .idle, flen := 0, noff := 0, nlen := 0, sel := 0, psrc := 0, pdst := 0 } ∧
  State.reset.hostHeld = false ∧ State.reset.workerHeld = false ∧
  (∀ b a, State.reset.byte? b a = none) ∧
  (∀ n, n ≠ 0x14 → n ≠ 0x1E → noSlot n → regValue n State.reset = .num 0) ∧
  regValue 0x14 State.reset = .num 20 ∧ regValue 0x1E State.reset = .none ∧
  ∀ i, regValue (slotNumber i) State.reset = .opt .eol

/-- Every step keeps the invariant, from every state that meets it: registers in range (45_host_port.md R222), slots legal (10_state.md R33), buffers in canonical form and inside their size (20_memory.md R60),
queues within capacity (R46), STATE = WIRED (R44), and every window the sequencer uses inside IBUF (R43, R45). -/
def Obligations.EveryStepKeepsTheInvariant : Prop :=
  ∀ s t : State, s.Inv → step s = .next t → t.Inv
end

