-- ==== Sys2Proof/Laws/Bytes.lean ====
section
/-! SUPPORT. The byte-order functions are inverses of one another (00_scope.md R9). -/

namespace Sys2Proof

theorem extract_append_low {w v : Nat} (x : BitVec w) (y : BitVec v) : (x ++ y).extractLsb' 0 v = y := by
  ext i hi; simp [BitVec.getLsbD_append, hi]

theorem extract_append_high {w v : Nat} (x : BitVec w) (y : BitVec v) : (x ++ y).extractLsb' v w = x := by
  ext i hi; simp [BitVec.getLsbD_append, hi]

/-- Two neighbouring fields join to one. -/
theorem extract_join {n : Nat} (v : BitVec n) (k a b : Nat) :
    v.extractLsb' (k + b) a ++ v.extractLsb' k b = v.extractLsb' k (a + b) := by
  apply BitVec.eq_of_getLsbD_eq
  intro i hi
  simp only [BitVec.getLsbD_append, BitVec.getLsbD_extractLsb']
  rcases Nat.lt_or_ge i b with h | h
  · simp [h, hi]
  · have h2 : i - b < a := by omega
    simp [Nat.not_lt.mpr h, h2, hi, show k + b + (i - b) = k + i by omega]

theorem extract_all {n : Nat} (v : BitVec n) : v.extractLsb' 0 n = v := by
  ext i hi; simp

@[simp] theorem be16_toBe16 (v : U16) : be16 (v.extractLsb' 8 8) (v.extractLsb' 0 8) = v :=
  (extract_join v 0 8 8).trans (extract_all v)

@[simp] theorem be32_toBe32 (v : U32) :
    be32 (v.extractLsb' 24 8) (v.extractLsb' 16 8) (v.extractLsb' 8 8) (v.extractLsb' 0 8) = v := by
  unfold be32
  rw [show v.extractLsb' 24 8 ++ v.extractLsb' 16 8 = v.extractLsb' 16 16 from extract_join v 16 8 8,
    show v.extractLsb' 8 8 ++ v.extractLsb' 0 8 = v.extractLsb' 0 16 from extract_join v 0 8 8]
  exact (extract_join v 0 16 16).trans (extract_all v)

@[simp] theorem be64_toBe64 (v : BitVec 64) :
    be64 (v.extractLsb' 56 8) (v.extractLsb' 48 8) (v.extractLsb' 40 8) (v.extractLsb' 32 8)
      (v.extractLsb' 24 8) (v.extractLsb' 16 8) (v.extractLsb' 8 8) (v.extractLsb' 0 8) = v := by
  unfold be64
  rw [show v.extractLsb' 56 8 ++ v.extractLsb' 48 8 = v.extractLsb' 48 16 from extract_join v 48 8 8,
    show v.extractLsb' 40 8 ++ v.extractLsb' 32 8 = v.extractLsb' 32 16 from extract_join v 32 8 8,
    show v.extractLsb' 24 8 ++ v.extractLsb' 16 8 = v.extractLsb' 16 16 from extract_join v 16 8 8,
    show v.extractLsb' 8 8 ++ v.extractLsb' 0 8 = v.extractLsb' 0 16 from extract_join v 0 8 8,
    show v.extractLsb' 48 16 ++ v.extractLsb' 32 16 = v.extractLsb' 32 32 from extract_join v 32 16 16,
    show v.extractLsb' 16 16 ++ v.extractLsb' 0 16 = v.extractLsb' 0 32 from extract_join v 0 16 16]
  exact (extract_join v 0 32 32).trans (extract_all v)

@[simp] theorem toBe16_be16 (a b : Byte) : toBe16 (be16 a b) = [a, b] := by
  unfold toBe16 be16
  rw [extract_append_high a b, extract_append_low a b]

/-- The value of two bytes: a*256 + b (R9). -/
theorem be16_toNat (a b : Byte) : (be16 a b).toNat = a.toNat * 256 + b.toNat := by
  unfold be16
  rw [BitVec.toNat_append, ← Nat.shiftLeft_add_eq_or_of_lt b.isLt, Nat.shiftLeft_eq]

@[simp] theorem toBe16_length (v : U16) : (toBe16 v).length = 2 := rfl
@[simp] theorem toBe32_length (v : U32) : (toBe32 v).length = 4 := rfl
@[simp] theorem toBe64_length (v : BitVec 64) : (toBe64 v).length = 8 := rfl

@[simp] theorem zeroTwo_length (D : Bytes) (i : Nat) : (zeroTwo D i).length = D.length := by simp [zeroTwo]
@[simp] theorem putBe16_length (E : Bytes) (i : Nat) (c : U16) : (putBe16 E i c).length = E.length := by simp [putBe16]

end Sys2Proof
end

