-- ==== Sys2Proof/Laws/State.lean ====
section
/-! SUPPORT. One lemma per field of State and per named update: what the update leaves alone and what it writes. All by rfl, all in the simp set. -/

namespace Sys2Proof.Machine

@[simp] theorem State.setErr_cfg (s : State) (e : Err) : (s.setErr e).cfg = s.cfg := rfl
@[simp] theorem State.setErr_status_err (s : State) (e : Err) : (s.setErr e).status.err = e := rfl
@[simp] theorem State.setErr_status_fatal (s : State) (e : Err) : (s.setErr e).status.fatal = s.status.fatal := rfl
@[simp] theorem State.setErr_status_found (s : State) (e : Err) : (s.setErr e).status.found = s.status.found := rfl
@[simp] theorem State.setErr_status_csumOk (s : State) (e : Err) : (s.setErr e).status.csumOk = s.status.csumOk := rfl
@[simp] theorem State.setErr_result (s : State) (e : Err) : (s.setErr e).result = s.result := rfl
@[simp] theorem State.setErr_win (s : State) (e : Err) : (s.setErr e).win = s.win := rfl
@[simp] theorem State.setErr_out (s : State) (e : Err) : (s.setErr e).out = s.out := rfl
@[simp] theorem State.setErr_ph (s : State) (e : Err) : (s.setErr e).ph = s.ph := rfl
@[simp] theorem State.setErr_seg (s : State) (e : Err) : (s.setErr e).seg = s.seg := rfl
@[simp] theorem State.setErr_opts (s : State) (e : Err) : (s.setErr e).opts = s.opts := rfl
@[simp] theorem State.setErr_track (s : State) (e : Err) : (s.setErr e).track = s.track := rfl
@[simp] theorem State.setErr_fopt (s : State) (e : Err) : (s.setErr e).fopt = s.fopt := rfl
@[simp] theorem State.setErr_eth (s : State) (e : Err) : (s.setErr e).eth = s.eth := rfl
@[simp] theorem State.setErr_arp (s : State) (e : Err) : (s.setErr e).arp = s.arp := rfl
@[simp] theorem State.setErr_ip (s : State) (e : Err) : (s.setErr e).ip = s.ip := rfl
@[simp] theorem State.setErr_icmp (s : State) (e : Err) : (s.setErr e).icmp = s.icmp := rfl
@[simp] theorem State.setErr_udp (s : State) (e : Err) : (s.setErr e).udp = s.udp := rfl
@[simp] theorem State.setErr_lpay (s : State) (e : Err) : (s.setErr e).lpay = s.lpay := rfl
@[simp] theorem State.setErr_sq (s : State) (e : Err) : (s.setErr e).sq = s.sq := rfl
@[simp] theorem State.setErr_seqr (s : State) (e : Err) : (s.setErr e).seqr = s.seqr := rfl
@[simp] theorem State.setErr_ibuf (s : State) (e : Err) : (s.setErr e).ibuf = s.ibuf := rfl
@[simp] theorem State.setErr_pbuf (s : State) (e : Err) : (s.setErr e).pbuf = s.pbuf := rfl
@[simp] theorem State.setErr_obuf (s : State) (e : Err) : (s.setErr e).obuf = s.obuf := rfl
@[simp] theorem State.setErr_rxq (s : State) (e : Err) : (s.setErr e).rxq = s.rxq := rfl
@[simp] theorem State.setErr_txq (s : State) (e : Err) : (s.setErr e).txq = s.txq := rfl
@[simp] theorem State.setErr_arpcCache (s : State) (e : Err) : (s.setErr e).arpcCache = s.arpcCache := rfl
@[simp] theorem State.setErr_inputs (s : State) (e : Err) : (s.setErr e).inputs = s.inputs := rfl
@[simp] theorem State.setErr_issuer (s : State) (e : Err) : (s.setErr e).issuer = s.issuer := rfl
@[simp] theorem State.setErr_hostHeld (s : State) (e : Err) : (s.setErr e).hostHeld = s.hostHeld := rfl
@[simp] theorem State.setErr_workerHeld (s : State) (e : Err) : (s.setErr e).workerHeld = s.workerHeld := rfl
@[simp] theorem State.setErr_resp (s : State) (e : Err) : (s.setErr e).resp = s.resp := rfl
@[simp] theorem State.setErr_arpcResp (s : State) (e : Err) : (s.setErr e).arpcResp = s.arpcResp := rfl
@[simp] theorem State.setErr_scan (s : State) (e : Err) : (s.setErr e).scan = s.scan := rfl

@[simp] theorem State.setFound_cfg (s : State) (b : Bool) : (s.setFound b).cfg = s.cfg := rfl
@[simp] theorem State.setFound_status_err (s : State) (b : Bool) : (s.setFound b).status.err = s.status.err := rfl
@[simp] theorem State.setFound_status_fatal (s : State) (b : Bool) : (s.setFound b).status.fatal = s.status.fatal := rfl
@[simp] theorem State.setFound_status_found (s : State) (b : Bool) : (s.setFound b).status.found = b := rfl
@[simp] theorem State.setFound_status_csumOk (s : State) (b : Bool) : (s.setFound b).status.csumOk = s.status.csumOk := rfl
@[simp] theorem State.setFound_result (s : State) (b : Bool) : (s.setFound b).result = s.result := rfl
@[simp] theorem State.setFound_win (s : State) (b : Bool) : (s.setFound b).win = s.win := rfl
@[simp] theorem State.setFound_out (s : State) (b : Bool) : (s.setFound b).out = s.out := rfl
@[simp] theorem State.setFound_ph (s : State) (b : Bool) : (s.setFound b).ph = s.ph := rfl
@[simp] theorem State.setFound_seg (s : State) (b : Bool) : (s.setFound b).seg = s.seg := rfl
@[simp] theorem State.setFound_opts (s : State) (b : Bool) : (s.setFound b).opts = s.opts := rfl
@[simp] theorem State.setFound_track (s : State) (b : Bool) : (s.setFound b).track = s.track := rfl
@[simp] theorem State.setFound_fopt (s : State) (b : Bool) : (s.setFound b).fopt = s.fopt := rfl
@[simp] theorem State.setFound_eth (s : State) (b : Bool) : (s.setFound b).eth = s.eth := rfl
@[simp] theorem State.setFound_arp (s : State) (b : Bool) : (s.setFound b).arp = s.arp := rfl
@[simp] theorem State.setFound_ip (s : State) (b : Bool) : (s.setFound b).ip = s.ip := rfl
@[simp] theorem State.setFound_icmp (s : State) (b : Bool) : (s.setFound b).icmp = s.icmp := rfl
@[simp] theorem State.setFound_udp (s : State) (b : Bool) : (s.setFound b).udp = s.udp := rfl
@[simp] theorem State.setFound_lpay (s : State) (b : Bool) : (s.setFound b).lpay = s.lpay := rfl
@[simp] theorem State.setFound_sq (s : State) (b : Bool) : (s.setFound b).sq = s.sq := rfl
@[simp] theorem State.setFound_seqr (s : State) (b : Bool) : (s.setFound b).seqr = s.seqr := rfl
@[simp] theorem State.setFound_ibuf (s : State) (b : Bool) : (s.setFound b).ibuf = s.ibuf := rfl
@[simp] theorem State.setFound_pbuf (s : State) (b : Bool) : (s.setFound b).pbuf = s.pbuf := rfl
@[simp] theorem State.setFound_obuf (s : State) (b : Bool) : (s.setFound b).obuf = s.obuf := rfl
@[simp] theorem State.setFound_rxq (s : State) (b : Bool) : (s.setFound b).rxq = s.rxq := rfl
@[simp] theorem State.setFound_txq (s : State) (b : Bool) : (s.setFound b).txq = s.txq := rfl
@[simp] theorem State.setFound_arpcCache (s : State) (b : Bool) : (s.setFound b).arpcCache = s.arpcCache := rfl
@[simp] theorem State.setFound_inputs (s : State) (b : Bool) : (s.setFound b).inputs = s.inputs := rfl
@[simp] theorem State.setFound_issuer (s : State) (b : Bool) : (s.setFound b).issuer = s.issuer := rfl
@[simp] theorem State.setFound_hostHeld (s : State) (b : Bool) : (s.setFound b).hostHeld = s.hostHeld := rfl
@[simp] theorem State.setFound_workerHeld (s : State) (b : Bool) : (s.setFound b).workerHeld = s.workerHeld := rfl
@[simp] theorem State.setFound_resp (s : State) (b : Bool) : (s.setFound b).resp = s.resp := rfl
@[simp] theorem State.setFound_arpcResp (s : State) (b : Bool) : (s.setFound b).arpcResp = s.arpcResp := rfl
@[simp] theorem State.setFound_scan (s : State) (b : Bool) : (s.setFound b).scan = s.scan := rfl

@[simp] theorem State.setCsumOk_cfg (s : State) (b : Bool) : (s.setCsumOk b).cfg = s.cfg := rfl
@[simp] theorem State.setCsumOk_status_err (s : State) (b : Bool) : (s.setCsumOk b).status.err = s.status.err := rfl
@[simp] theorem State.setCsumOk_status_fatal (s : State) (b : Bool) : (s.setCsumOk b).status.fatal = s.status.fatal := rfl
@[simp] theorem State.setCsumOk_status_found (s : State) (b : Bool) : (s.setCsumOk b).status.found = s.status.found := rfl
@[simp] theorem State.setCsumOk_status_csumOk (s : State) (b : Bool) : (s.setCsumOk b).status.csumOk = b := rfl
@[simp] theorem State.setCsumOk_result (s : State) (b : Bool) : (s.setCsumOk b).result = s.result := rfl
@[simp] theorem State.setCsumOk_win (s : State) (b : Bool) : (s.setCsumOk b).win = s.win := rfl
@[simp] theorem State.setCsumOk_out (s : State) (b : Bool) : (s.setCsumOk b).out = s.out := rfl
@[simp] theorem State.setCsumOk_ph (s : State) (b : Bool) : (s.setCsumOk b).ph = s.ph := rfl
@[simp] theorem State.setCsumOk_seg (s : State) (b : Bool) : (s.setCsumOk b).seg = s.seg := rfl
@[simp] theorem State.setCsumOk_opts (s : State) (b : Bool) : (s.setCsumOk b).opts = s.opts := rfl
@[simp] theorem State.setCsumOk_track (s : State) (b : Bool) : (s.setCsumOk b).track = s.track := rfl
@[simp] theorem State.setCsumOk_fopt (s : State) (b : Bool) : (s.setCsumOk b).fopt = s.fopt := rfl
@[simp] theorem State.setCsumOk_eth (s : State) (b : Bool) : (s.setCsumOk b).eth = s.eth := rfl
@[simp] theorem State.setCsumOk_arp (s : State) (b : Bool) : (s.setCsumOk b).arp = s.arp := rfl
@[simp] theorem State.setCsumOk_ip (s : State) (b : Bool) : (s.setCsumOk b).ip = s.ip := rfl
@[simp] theorem State.setCsumOk_icmp (s : State) (b : Bool) : (s.setCsumOk b).icmp = s.icmp := rfl
@[simp] theorem State.setCsumOk_udp (s : State) (b : Bool) : (s.setCsumOk b).udp = s.udp := rfl
@[simp] theorem State.setCsumOk_lpay (s : State) (b : Bool) : (s.setCsumOk b).lpay = s.lpay := rfl
@[simp] theorem State.setCsumOk_sq (s : State) (b : Bool) : (s.setCsumOk b).sq = s.sq := rfl
@[simp] theorem State.setCsumOk_seqr (s : State) (b : Bool) : (s.setCsumOk b).seqr = s.seqr := rfl
@[simp] theorem State.setCsumOk_ibuf (s : State) (b : Bool) : (s.setCsumOk b).ibuf = s.ibuf := rfl
@[simp] theorem State.setCsumOk_pbuf (s : State) (b : Bool) : (s.setCsumOk b).pbuf = s.pbuf := rfl
@[simp] theorem State.setCsumOk_obuf (s : State) (b : Bool) : (s.setCsumOk b).obuf = s.obuf := rfl
@[simp] theorem State.setCsumOk_rxq (s : State) (b : Bool) : (s.setCsumOk b).rxq = s.rxq := rfl
@[simp] theorem State.setCsumOk_txq (s : State) (b : Bool) : (s.setCsumOk b).txq = s.txq := rfl
@[simp] theorem State.setCsumOk_arpcCache (s : State) (b : Bool) : (s.setCsumOk b).arpcCache = s.arpcCache := rfl
@[simp] theorem State.setCsumOk_inputs (s : State) (b : Bool) : (s.setCsumOk b).inputs = s.inputs := rfl
@[simp] theorem State.setCsumOk_issuer (s : State) (b : Bool) : (s.setCsumOk b).issuer = s.issuer := rfl
@[simp] theorem State.setCsumOk_hostHeld (s : State) (b : Bool) : (s.setCsumOk b).hostHeld = s.hostHeld := rfl
@[simp] theorem State.setCsumOk_workerHeld (s : State) (b : Bool) : (s.setCsumOk b).workerHeld = s.workerHeld := rfl
@[simp] theorem State.setCsumOk_resp (s : State) (b : Bool) : (s.setCsumOk b).resp = s.resp := rfl
@[simp] theorem State.setCsumOk_arpcResp (s : State) (b : Bool) : (s.setCsumOk b).arpcResp = s.arpcResp := rfl
@[simp] theorem State.setCsumOk_scan (s : State) (b : Bool) : (s.setCsumOk b).scan = s.scan := rfl

@[simp] theorem State.setPhase_cfg (s : State) (p : Phase) : (s.setPhase p).cfg = s.cfg := rfl
@[simp] theorem State.setPhase_status (s : State) (p : Phase) : (s.setPhase p).status = s.status := rfl
@[simp] theorem State.setPhase_result (s : State) (p : Phase) : (s.setPhase p).result = s.result := rfl
@[simp] theorem State.setPhase_win (s : State) (p : Phase) : (s.setPhase p).win = s.win := rfl
@[simp] theorem State.setPhase_out (s : State) (p : Phase) : (s.setPhase p).out = s.out := rfl
@[simp] theorem State.setPhase_ph (s : State) (p : Phase) : (s.setPhase p).ph = s.ph := rfl
@[simp] theorem State.setPhase_seg (s : State) (p : Phase) : (s.setPhase p).seg = s.seg := rfl
@[simp] theorem State.setPhase_opts (s : State) (p : Phase) : (s.setPhase p).opts = s.opts := rfl
@[simp] theorem State.setPhase_track (s : State) (p : Phase) : (s.setPhase p).track = s.track := rfl
@[simp] theorem State.setPhase_fopt (s : State) (p : Phase) : (s.setPhase p).fopt = s.fopt := rfl
@[simp] theorem State.setPhase_eth (s : State) (p : Phase) : (s.setPhase p).eth = s.eth := rfl
@[simp] theorem State.setPhase_arp (s : State) (p : Phase) : (s.setPhase p).arp = s.arp := rfl
@[simp] theorem State.setPhase_ip (s : State) (p : Phase) : (s.setPhase p).ip = s.ip := rfl
@[simp] theorem State.setPhase_icmp (s : State) (p : Phase) : (s.setPhase p).icmp = s.icmp := rfl
@[simp] theorem State.setPhase_udp (s : State) (p : Phase) : (s.setPhase p).udp = s.udp := rfl
@[simp] theorem State.setPhase_lpay (s : State) (p : Phase) : (s.setPhase p).lpay = s.lpay := rfl
@[simp] theorem State.setPhase_sq (s : State) (p : Phase) : (s.setPhase p).sq = s.sq := rfl
@[simp] theorem State.setPhase_seqr_phase (s : State) (p : Phase) : (s.setPhase p).seqr.phase = p := rfl
@[simp] theorem State.setPhase_seqr_flen (s : State) (p : Phase) : (s.setPhase p).seqr.flen = s.seqr.flen := rfl
@[simp] theorem State.setPhase_seqr_noff (s : State) (p : Phase) : (s.setPhase p).seqr.noff = s.seqr.noff := rfl
@[simp] theorem State.setPhase_seqr_nlen (s : State) (p : Phase) : (s.setPhase p).seqr.nlen = s.seqr.nlen := rfl
@[simp] theorem State.setPhase_seqr_sel (s : State) (p : Phase) : (s.setPhase p).seqr.sel = s.seqr.sel := rfl
@[simp] theorem State.setPhase_seqr_psrc (s : State) (p : Phase) : (s.setPhase p).seqr.psrc = s.seqr.psrc := rfl
@[simp] theorem State.setPhase_seqr_pdst (s : State) (p : Phase) : (s.setPhase p).seqr.pdst = s.seqr.pdst := rfl
@[simp] theorem State.setPhase_ibuf (s : State) (p : Phase) : (s.setPhase p).ibuf = s.ibuf := rfl
@[simp] theorem State.setPhase_pbuf (s : State) (p : Phase) : (s.setPhase p).pbuf = s.pbuf := rfl
@[simp] theorem State.setPhase_obuf (s : State) (p : Phase) : (s.setPhase p).obuf = s.obuf := rfl
@[simp] theorem State.setPhase_rxq (s : State) (p : Phase) : (s.setPhase p).rxq = s.rxq := rfl
@[simp] theorem State.setPhase_txq (s : State) (p : Phase) : (s.setPhase p).txq = s.txq := rfl
@[simp] theorem State.setPhase_arpcCache (s : State) (p : Phase) : (s.setPhase p).arpcCache = s.arpcCache := rfl
@[simp] theorem State.setPhase_inputs (s : State) (p : Phase) : (s.setPhase p).inputs = s.inputs := rfl
@[simp] theorem State.setPhase_issuer (s : State) (p : Phase) : (s.setPhase p).issuer = s.issuer := rfl
@[simp] theorem State.setPhase_hostHeld (s : State) (p : Phase) : (s.setPhase p).hostHeld = s.hostHeld := rfl
@[simp] theorem State.setPhase_workerHeld (s : State) (p : Phase) : (s.setPhase p).workerHeld = s.workerHeld := rfl
@[simp] theorem State.setPhase_resp (s : State) (p : Phase) : (s.setPhase p).resp = s.resp := rfl
@[simp] theorem State.setPhase_arpcResp (s : State) (p : Phase) : (s.setPhase p).arpcResp = s.arpcResp := rfl
@[simp] theorem State.setPhase_scan (s : State) (p : Phase) : (s.setPhase p).scan = s.scan := rfl

@[simp] theorem State.dropFrame_cfg (s : State) : (s.dropFrame).cfg = s.cfg := rfl
@[simp] theorem State.dropFrame_status (s : State) : (s.dropFrame).status = s.status := rfl
@[simp] theorem State.dropFrame_result (s : State) : (s.dropFrame).result = s.result := rfl
@[simp] theorem State.dropFrame_win (s : State) : (s.dropFrame).win = s.win := rfl
@[simp] theorem State.dropFrame_out (s : State) : (s.dropFrame).out = s.out := rfl
@[simp] theorem State.dropFrame_ph (s : State) : (s.dropFrame).ph = s.ph := rfl
@[simp] theorem State.dropFrame_seg (s : State) : (s.dropFrame).seg = s.seg := rfl
@[simp] theorem State.dropFrame_opts (s : State) : (s.dropFrame).opts = s.opts := rfl
@[simp] theorem State.dropFrame_track (s : State) : (s.dropFrame).track = s.track := rfl
@[simp] theorem State.dropFrame_fopt (s : State) : (s.dropFrame).fopt = s.fopt := rfl
@[simp] theorem State.dropFrame_eth (s : State) : (s.dropFrame).eth = s.eth := rfl
@[simp] theorem State.dropFrame_arp (s : State) : (s.dropFrame).arp = s.arp := rfl
@[simp] theorem State.dropFrame_ip (s : State) : (s.dropFrame).ip = s.ip := rfl
@[simp] theorem State.dropFrame_icmp (s : State) : (s.dropFrame).icmp = s.icmp := rfl
@[simp] theorem State.dropFrame_udp (s : State) : (s.dropFrame).udp = s.udp := rfl
@[simp] theorem State.dropFrame_lpay (s : State) : (s.dropFrame).lpay = s.lpay := rfl
@[simp] theorem State.dropFrame_sq_running (s : State) : (s.dropFrame).sq.running = s.sq.running := rfl
@[simp] theorem State.dropFrame_sq_wired (s : State) : (s.dropFrame).sq.wired = s.sq.wired := rfl
@[simp] theorem State.dropFrame_sq_drops (s : State) : (s.dropFrame).sq.drops = s.sq.drops + 1 := rfl
@[simp] theorem State.dropFrame_sq_cfgMac (s : State) : (s.dropFrame).sq.cfgMac = s.sq.cfgMac := rfl
@[simp] theorem State.dropFrame_sq_cfgIp (s : State) : (s.dropFrame).sq.cfgIp = s.sq.cfgIp := rfl
@[simp] theorem State.dropFrame_seqr_phase (s : State) : (s.dropFrame).seqr.phase = .idle := rfl
@[simp] theorem State.dropFrame_seqr_flen (s : State) : (s.dropFrame).seqr.flen = s.seqr.flen := rfl
@[simp] theorem State.dropFrame_seqr_noff (s : State) : (s.dropFrame).seqr.noff = s.seqr.noff := rfl
@[simp] theorem State.dropFrame_seqr_nlen (s : State) : (s.dropFrame).seqr.nlen = s.seqr.nlen := rfl
@[simp] theorem State.dropFrame_seqr_sel (s : State) : (s.dropFrame).seqr.sel = s.seqr.sel := rfl
@[simp] theorem State.dropFrame_seqr_psrc (s : State) : (s.dropFrame).seqr.psrc = s.seqr.psrc := rfl
@[simp] theorem State.dropFrame_seqr_pdst (s : State) : (s.dropFrame).seqr.pdst = s.seqr.pdst := rfl
@[simp] theorem State.dropFrame_ibuf (s : State) : (s.dropFrame).ibuf = s.ibuf := rfl
@[simp] theorem State.dropFrame_pbuf (s : State) : (s.dropFrame).pbuf = s.pbuf := rfl
@[simp] theorem State.dropFrame_obuf (s : State) : (s.dropFrame).obuf = s.obuf := rfl
@[simp] theorem State.dropFrame_rxq (s : State) : (s.dropFrame).rxq = s.rxq := rfl
@[simp] theorem State.dropFrame_txq (s : State) : (s.dropFrame).txq = s.txq := rfl
@[simp] theorem State.dropFrame_arpcCache (s : State) : (s.dropFrame).arpcCache = s.arpcCache := rfl
@[simp] theorem State.dropFrame_inputs (s : State) : (s.dropFrame).inputs = s.inputs := rfl
@[simp] theorem State.dropFrame_issuer (s : State) : (s.dropFrame).issuer = s.issuer := rfl
@[simp] theorem State.dropFrame_hostHeld (s : State) : (s.dropFrame).hostHeld = s.hostHeld := rfl
@[simp] theorem State.dropFrame_workerHeld (s : State) : (s.dropFrame).workerHeld = s.workerHeld := rfl
@[simp] theorem State.dropFrame_resp (s : State) : (s.dropFrame).resp = s.resp := rfl
@[simp] theorem State.dropFrame_arpcResp (s : State) : (s.dropFrame).arpcResp = s.arpcResp := rfl
@[simp] theorem State.dropFrame_scan (s : State) : (s.dropFrame).scan = s.scan := rfl

@[simp] theorem State.setWindow_cfg (s : State) (off len : U32) : (s.setWindow off len).cfg = s.cfg := rfl
@[simp] theorem State.setWindow_status (s : State) (off len : U32) : (s.setWindow off len).status = s.status := rfl
@[simp] theorem State.setWindow_result (s : State) (off len : U32) : (s.setWindow off len).result = s.result := rfl
@[simp] theorem State.setWindow_win (s : State) (off len : U32) : (s.setWindow off len).win = ⟨off, len⟩ := rfl
@[simp] theorem State.setWindow_out (s : State) (off len : U32) : (s.setWindow off len).out = s.out := rfl
@[simp] theorem State.setWindow_ph (s : State) (off len : U32) : (s.setWindow off len).ph = s.ph := rfl
@[simp] theorem State.setWindow_seg (s : State) (off len : U32) : (s.setWindow off len).seg = s.seg := rfl
@[simp] theorem State.setWindow_opts (s : State) (off len : U32) : (s.setWindow off len).opts = s.opts := rfl
@[simp] theorem State.setWindow_track (s : State) (off len : U32) : (s.setWindow off len).track = s.track := rfl
@[simp] theorem State.setWindow_fopt (s : State) (off len : U32) : (s.setWindow off len).fopt = s.fopt := rfl
@[simp] theorem State.setWindow_eth (s : State) (off len : U32) : (s.setWindow off len).eth = s.eth := rfl
@[simp] theorem State.setWindow_arp (s : State) (off len : U32) : (s.setWindow off len).arp = s.arp := rfl
@[simp] theorem State.setWindow_ip (s : State) (off len : U32) : (s.setWindow off len).ip = s.ip := rfl
@[simp] theorem State.setWindow_icmp (s : State) (off len : U32) : (s.setWindow off len).icmp = s.icmp := rfl
@[simp] theorem State.setWindow_udp (s : State) (off len : U32) : (s.setWindow off len).udp = s.udp := rfl
@[simp] theorem State.setWindow_lpay (s : State) (off len : U32) : (s.setWindow off len).lpay = s.lpay := rfl
@[simp] theorem State.setWindow_sq (s : State) (off len : U32) : (s.setWindow off len).sq = s.sq := rfl
@[simp] theorem State.setWindow_seqr (s : State) (off len : U32) : (s.setWindow off len).seqr = s.seqr := rfl
@[simp] theorem State.setWindow_ibuf (s : State) (off len : U32) : (s.setWindow off len).ibuf = s.ibuf := rfl
@[simp] theorem State.setWindow_pbuf (s : State) (off len : U32) : (s.setWindow off len).pbuf = s.pbuf := rfl
@[simp] theorem State.setWindow_obuf (s : State) (off len : U32) : (s.setWindow off len).obuf = s.obuf := rfl
@[simp] theorem State.setWindow_rxq (s : State) (off len : U32) : (s.setWindow off len).rxq = s.rxq := rfl
@[simp] theorem State.setWindow_txq (s : State) (off len : U32) : (s.setWindow off len).txq = s.txq := rfl
@[simp] theorem State.setWindow_arpcCache (s : State) (off len : U32) : (s.setWindow off len).arpcCache = s.arpcCache := rfl
@[simp] theorem State.setWindow_inputs (s : State) (off len : U32) : (s.setWindow off len).inputs = s.inputs := rfl
@[simp] theorem State.setWindow_issuer (s : State) (off len : U32) : (s.setWindow off len).issuer = s.issuer := rfl
@[simp] theorem State.setWindow_hostHeld (s : State) (off len : U32) : (s.setWindow off len).hostHeld = s.hostHeld := rfl
@[simp] theorem State.setWindow_workerHeld (s : State) (off len : U32) : (s.setWindow off len).workerHeld = s.workerHeld := rfl
@[simp] theorem State.setWindow_resp (s : State) (off len : U32) : (s.setWindow off len).resp = s.resp := rfl
@[simp] theorem State.setWindow_arpcResp (s : State) (off len : U32) : (s.setWindow off len).arpcResp = s.arpcResp := rfl
@[simp] theorem State.setWindow_scan (s : State) (off len : U32) : (s.setWindow off len).scan = s.scan := rfl

@[simp] theorem State.commitChain_cfg (s : State) (c : List TcpOption) : (s.commitChain c).cfg = s.cfg := rfl
@[simp] theorem State.commitChain_status (s : State) (c : List TcpOption) : (s.commitChain c).status = s.status := rfl
@[simp] theorem State.commitChain_result (s : State) (c : List TcpOption) : (s.commitChain c).result = s.result := rfl
@[simp] theorem State.commitChain_win (s : State) (c : List TcpOption) : (s.commitChain c).win = s.win := rfl
@[simp] theorem State.commitChain_out (s : State) (c : List TcpOption) : (s.commitChain c).out = s.out := rfl
@[simp] theorem State.commitChain_ph (s : State) (c : List TcpOption) : (s.commitChain c).ph = s.ph := rfl
@[simp] theorem State.commitChain_seg_sport (s : State) (c : List TcpOption) : (s.commitChain c).seg.sport = s.seg.sport := rfl
@[simp] theorem State.commitChain_seg_dport (s : State) (c : List TcpOption) : (s.commitChain c).seg.dport = s.seg.dport := rfl
@[simp] theorem State.commitChain_seg_seqno (s : State) (c : List TcpOption) : (s.commitChain c).seg.seqno = s.seg.seqno := rfl
@[simp] theorem State.commitChain_seg_ackno (s : State) (c : List TcpOption) : (s.commitChain c).seg.ackno = s.seg.ackno := rfl
@[simp] theorem State.commitChain_seg_hlen (s : State) (c : List TcpOption) : (s.commitChain c).seg.hlen = s.seg.hlen := rfl
@[simp] theorem State.commitChain_seg_flags (s : State) (c : List TcpOption) : (s.commitChain c).seg.flags = s.seg.flags := rfl
@[simp] theorem State.commitChain_seg_win (s : State) (c : List TcpOption) : (s.commitChain c).seg.win = s.seg.win := rfl
@[simp] theorem State.commitChain_seg_csum (s : State) (c : List TcpOption) : (s.commitChain c).seg.csum = s.seg.csum := rfl
@[simp] theorem State.commitChain_seg_urp (s : State) (c : List TcpOption) : (s.commitChain c).seg.urp = s.seg.urp := rfl
@[simp] theorem State.commitChain_seg_optcnt (s : State) (c : List TcpOption) : (s.commitChain c).seg.optcnt = BitVec.ofNat 6 c.length := rfl
@[simp] theorem State.commitChain_seg_plen (s : State) (c : List TcpOption) : (s.commitChain c).seg.plen = s.seg.plen := rfl
@[simp] theorem State.commitChain_opts (s : State) (c : List TcpOption) : (s.commitChain c).opts = putChain s.opts c := rfl
@[simp] theorem State.commitChain_track (s : State) (c : List TcpOption) : (s.commitChain c).track = s.track := rfl
@[simp] theorem State.commitChain_fopt (s : State) (c : List TcpOption) : (s.commitChain c).fopt = s.fopt := rfl
@[simp] theorem State.commitChain_eth (s : State) (c : List TcpOption) : (s.commitChain c).eth = s.eth := rfl
@[simp] theorem State.commitChain_arp (s : State) (c : List TcpOption) : (s.commitChain c).arp = s.arp := rfl
@[simp] theorem State.commitChain_ip (s : State) (c : List TcpOption) : (s.commitChain c).ip = s.ip := rfl
@[simp] theorem State.commitChain_icmp (s : State) (c : List TcpOption) : (s.commitChain c).icmp = s.icmp := rfl
@[simp] theorem State.commitChain_udp (s : State) (c : List TcpOption) : (s.commitChain c).udp = s.udp := rfl
@[simp] theorem State.commitChain_lpay (s : State) (c : List TcpOption) : (s.commitChain c).lpay = s.lpay := rfl
@[simp] theorem State.commitChain_sq (s : State) (c : List TcpOption) : (s.commitChain c).sq = s.sq := rfl
@[simp] theorem State.commitChain_seqr (s : State) (c : List TcpOption) : (s.commitChain c).seqr = s.seqr := rfl
@[simp] theorem State.commitChain_ibuf (s : State) (c : List TcpOption) : (s.commitChain c).ibuf = s.ibuf := rfl
@[simp] theorem State.commitChain_pbuf (s : State) (c : List TcpOption) : (s.commitChain c).pbuf = s.pbuf := rfl
@[simp] theorem State.commitChain_obuf (s : State) (c : List TcpOption) : (s.commitChain c).obuf = s.obuf := rfl
@[simp] theorem State.commitChain_rxq (s : State) (c : List TcpOption) : (s.commitChain c).rxq = s.rxq := rfl
@[simp] theorem State.commitChain_txq (s : State) (c : List TcpOption) : (s.commitChain c).txq = s.txq := rfl
@[simp] theorem State.commitChain_arpcCache (s : State) (c : List TcpOption) : (s.commitChain c).arpcCache = s.arpcCache := rfl
@[simp] theorem State.commitChain_inputs (s : State) (c : List TcpOption) : (s.commitChain c).inputs = s.inputs := rfl
@[simp] theorem State.commitChain_issuer (s : State) (c : List TcpOption) : (s.commitChain c).issuer = s.issuer := rfl
@[simp] theorem State.commitChain_hostHeld (s : State) (c : List TcpOption) : (s.commitChain c).hostHeld = s.hostHeld := rfl
@[simp] theorem State.commitChain_workerHeld (s : State) (c : List TcpOption) : (s.commitChain c).workerHeld = s.workerHeld := rfl
@[simp] theorem State.commitChain_resp (s : State) (c : List TcpOption) : (s.commitChain c).resp = s.resp := rfl
@[simp] theorem State.commitChain_arpcResp (s : State) (c : List TcpOption) : (s.commitChain c).arpcResp = s.arpcResp := rfl
@[simp] theorem State.commitChain_scan (s : State) (c : List TcpOption) : (s.commitChain c).scan = s.scan := rfl

@[simp] theorem State.putOut_cfg (s : State) (E : Bytes) : (s.putOut E).cfg = s.cfg := rfl
@[simp] theorem State.putOut_status (s : State) (E : Bytes) : (s.putOut E).status = s.status := rfl
@[simp] theorem State.putOut_result (s : State) (E : Bytes) : (s.putOut E).result = s.result := rfl
@[simp] theorem State.putOut_win (s : State) (E : Bytes) : (s.putOut E).win = s.win := rfl
@[simp] theorem State.putOut_out_olen (s : State) (E : Bytes) : (s.putOut E).out.olen = BitVec.ofNat 32 E.length := rfl
@[simp] theorem State.putOut_out_ooff (s : State) (E : Bytes) : (s.putOut E).out.ooff = s.out.ooff := rfl
@[simp] theorem State.putOut_out_txlen (s : State) (E : Bytes) : (s.putOut E).out.txlen = s.out.txlen := rfl
@[simp] theorem State.putOut_ph (s : State) (E : Bytes) : (s.putOut E).ph = s.ph := rfl
@[simp] theorem State.putOut_seg (s : State) (E : Bytes) : (s.putOut E).seg = s.seg := rfl
@[simp] theorem State.putOut_opts (s : State) (E : Bytes) : (s.putOut E).opts = s.opts := rfl
@[simp] theorem State.putOut_track (s : State) (E : Bytes) : (s.putOut E).track = s.track := rfl
@[simp] theorem State.putOut_fopt (s : State) (E : Bytes) : (s.putOut E).fopt = s.fopt := rfl
@[simp] theorem State.putOut_eth (s : State) (E : Bytes) : (s.putOut E).eth = s.eth := rfl
@[simp] theorem State.putOut_arp (s : State) (E : Bytes) : (s.putOut E).arp = s.arp := rfl
@[simp] theorem State.putOut_ip (s : State) (E : Bytes) : (s.putOut E).ip = s.ip := rfl
@[simp] theorem State.putOut_icmp (s : State) (E : Bytes) : (s.putOut E).icmp = s.icmp := rfl
@[simp] theorem State.putOut_udp (s : State) (E : Bytes) : (s.putOut E).udp = s.udp := rfl
@[simp] theorem State.putOut_lpay (s : State) (E : Bytes) : (s.putOut E).lpay = s.lpay := rfl
@[simp] theorem State.putOut_sq (s : State) (E : Bytes) : (s.putOut E).sq = s.sq := rfl
@[simp] theorem State.putOut_seqr (s : State) (E : Bytes) : (s.putOut E).seqr = s.seqr := rfl
@[simp] theorem State.putOut_ibuf (s : State) (E : Bytes) : (s.putOut E).ibuf = s.ibuf := rfl
@[simp] theorem State.putOut_pbuf (s : State) (E : Bytes) : (s.putOut E).pbuf = s.pbuf := rfl
@[simp] theorem State.putOut_obuf (s : State) (E : Bytes) : (s.putOut E).obuf = s.obuf.writeRange s.out.ooff.toNat E := rfl
@[simp] theorem State.putOut_rxq (s : State) (E : Bytes) : (s.putOut E).rxq = s.rxq := rfl
@[simp] theorem State.putOut_txq (s : State) (E : Bytes) : (s.putOut E).txq = s.txq := rfl
@[simp] theorem State.putOut_arpcCache (s : State) (E : Bytes) : (s.putOut E).arpcCache = s.arpcCache := rfl
@[simp] theorem State.putOut_inputs (s : State) (E : Bytes) : (s.putOut E).inputs = s.inputs := rfl
@[simp] theorem State.putOut_issuer (s : State) (E : Bytes) : (s.putOut E).issuer = s.issuer := rfl
@[simp] theorem State.putOut_hostHeld (s : State) (E : Bytes) : (s.putOut E).hostHeld = s.hostHeld := rfl
@[simp] theorem State.putOut_workerHeld (s : State) (E : Bytes) : (s.putOut E).workerHeld = s.workerHeld := rfl
@[simp] theorem State.putOut_resp (s : State) (E : Bytes) : (s.putOut E).resp = s.resp := rfl
@[simp] theorem State.putOut_arpcResp (s : State) (E : Bytes) : (s.putOut E).arpcResp = s.arpcResp := rfl
@[simp] theorem State.putOut_scan (s : State) (E : Bytes) : (s.putOut E).scan = s.scan := rfl

@[simp] theorem State.commitSegment_cfg (s : State) (W : Bytes) (h : Nat) (c : List TcpOption) : (s.commitSegment W h c).cfg = s.cfg := rfl
@[simp] theorem State.commitSegment_status (s : State) (W : Bytes) (h : Nat) (c : List TcpOption) : (s.commitSegment W h c).status = s.status := rfl
@[simp] theorem State.commitSegment_result (s : State) (W : Bytes) (h : Nat) (c : List TcpOption) : (s.commitSegment W h c).result = s.result := rfl
@[simp] theorem State.commitSegment_win (s : State) (W : Bytes) (h : Nat) (c : List TcpOption) : (s.commitSegment W h c).win = s.win := rfl
@[simp] theorem State.commitSegment_out (s : State) (W : Bytes) (h : Nat) (c : List TcpOption) : (s.commitSegment W h c).out = s.out := rfl
@[simp] theorem State.commitSegment_ph (s : State) (W : Bytes) (h : Nat) (c : List TcpOption) : (s.commitSegment W h c).ph = s.ph := rfl
@[simp] theorem State.commitSegment_seg (s : State) (W : Bytes) (h : Nat) (c : List TcpOption) : (s.commitSegment W h c).seg = decodedSeg W h c := rfl
@[simp] theorem State.commitSegment_opts (s : State) (W : Bytes) (h : Nat) (c : List TcpOption) : (s.commitSegment W h c).opts = putChain s.opts c := rfl
@[simp] theorem State.commitSegment_track_inTrk (s : State) (W : Bytes) (h : Nat) (c : List TcpOption) : (s.commitSegment W h c).track.inTrk = s.track.inTrk := rfl
@[simp] theorem State.commitSegment_track_nextTrk (s : State) (W : Bytes) (h : Nat) (c : List TcpOption) : (s.commitSegment W h c).track.nextTrk = s.track.nextTrk := rfl
@[simp] theorem State.commitSegment_track_trk (s : State) (W : Bytes) (h : Nat) (c : List TcpOption) : (s.commitSegment W h c).track.trk = s.track.inTrk := rfl
@[simp] theorem State.commitSegment_track_parent (s : State) (W : Bytes) (h : Nat) (c : List TcpOption) : (s.commitSegment W h c).track.parent = 0 := rfl
@[simp] theorem State.commitSegment_track_hasParent (s : State) (W : Bytes) (h : Nat) (c : List TcpOption) : (s.commitSegment W h c).track.hasParent = false := rfl
@[simp] theorem State.commitSegment_fopt (s : State) (W : Bytes) (h : Nat) (c : List TcpOption) : (s.commitSegment W h c).fopt = s.fopt := rfl
@[simp] theorem State.commitSegment_eth (s : State) (W : Bytes) (h : Nat) (c : List TcpOption) : (s.commitSegment W h c).eth = s.eth := rfl
@[simp] theorem State.commitSegment_arp (s : State) (W : Bytes) (h : Nat) (c : List TcpOption) : (s.commitSegment W h c).arp = s.arp := rfl
@[simp] theorem State.commitSegment_ip (s : State) (W : Bytes) (h : Nat) (c : List TcpOption) : (s.commitSegment W h c).ip = s.ip := rfl
@[simp] theorem State.commitSegment_icmp (s : State) (W : Bytes) (h : Nat) (c : List TcpOption) : (s.commitSegment W h c).icmp = s.icmp := rfl
@[simp] theorem State.commitSegment_udp (s : State) (W : Bytes) (h : Nat) (c : List TcpOption) : (s.commitSegment W h c).udp = s.udp := rfl
@[simp] theorem State.commitSegment_lpay (s : State) (W : Bytes) (h : Nat) (c : List TcpOption) : (s.commitSegment W h c).lpay = s.lpay := rfl
@[simp] theorem State.commitSegment_sq (s : State) (W : Bytes) (h : Nat) (c : List TcpOption) : (s.commitSegment W h c).sq = s.sq := rfl
@[simp] theorem State.commitSegment_seqr (s : State) (W : Bytes) (h : Nat) (c : List TcpOption) : (s.commitSegment W h c).seqr = s.seqr := rfl
@[simp] theorem State.commitSegment_ibuf (s : State) (W : Bytes) (h : Nat) (c : List TcpOption) : (s.commitSegment W h c).ibuf = s.ibuf := rfl
@[simp] theorem State.commitSegment_pbuf (s : State) (W : Bytes) (h : Nat) (c : List TcpOption) : (s.commitSegment W h c).pbuf = s.pbuf.writeRange 0 (W.drop h) := rfl
@[simp] theorem State.commitSegment_obuf (s : State) (W : Bytes) (h : Nat) (c : List TcpOption) : (s.commitSegment W h c).obuf = s.obuf := rfl
@[simp] theorem State.commitSegment_rxq (s : State) (W : Bytes) (h : Nat) (c : List TcpOption) : (s.commitSegment W h c).rxq = s.rxq := rfl
@[simp] theorem State.commitSegment_txq (s : State) (W : Bytes) (h : Nat) (c : List TcpOption) : (s.commitSegment W h c).txq = s.txq := rfl
@[simp] theorem State.commitSegment_arpcCache (s : State) (W : Bytes) (h : Nat) (c : List TcpOption) : (s.commitSegment W h c).arpcCache = s.arpcCache := rfl
@[simp] theorem State.commitSegment_inputs (s : State) (W : Bytes) (h : Nat) (c : List TcpOption) : (s.commitSegment W h c).inputs = s.inputs := rfl
@[simp] theorem State.commitSegment_issuer (s : State) (W : Bytes) (h : Nat) (c : List TcpOption) : (s.commitSegment W h c).issuer = s.issuer := rfl
@[simp] theorem State.commitSegment_hostHeld (s : State) (W : Bytes) (h : Nat) (c : List TcpOption) : (s.commitSegment W h c).hostHeld = s.hostHeld := rfl
@[simp] theorem State.commitSegment_workerHeld (s : State) (W : Bytes) (h : Nat) (c : List TcpOption) : (s.commitSegment W h c).workerHeld = s.workerHeld := rfl
@[simp] theorem State.commitSegment_resp (s : State) (W : Bytes) (h : Nat) (c : List TcpOption) : (s.commitSegment W h c).resp = s.resp := rfl
@[simp] theorem State.commitSegment_arpcResp (s : State) (W : Bytes) (h : Nat) (c : List TcpOption) : (s.commitSegment W h c).arpcResp = s.arpcResp := rfl
@[simp] theorem State.commitSegment_scan (s : State) (W : Bytes) (h : Nat) (c : List TcpOption) : (s.commitSegment W h c).scan = s.scan := rfl

@[simp] theorem State.resetFrom_cfg (s : State) : (s.resetFrom).cfg = s.cfg := rfl
@[simp] theorem State.resetFrom_status (s : State) : (s.resetFrom).status = State.reset.status := rfl
@[simp] theorem State.resetFrom_result (s : State) : (s.resetFrom).result = State.reset.result := rfl
@[simp] theorem State.resetFrom_win (s : State) : (s.resetFrom).win = State.reset.win := rfl
@[simp] theorem State.resetFrom_out (s : State) : (s.resetFrom).out = State.reset.out := rfl
@[simp] theorem State.resetFrom_ph (s : State) : (s.resetFrom).ph = State.reset.ph := rfl
@[simp] theorem State.resetFrom_seg (s : State) : (s.resetFrom).seg = State.reset.seg := rfl
@[simp] theorem State.resetFrom_opts (s : State) : (s.resetFrom).opts = State.reset.opts := rfl
@[simp] theorem State.resetFrom_track (s : State) : (s.resetFrom).track = State.reset.track := rfl
@[simp] theorem State.resetFrom_fopt (s : State) : (s.resetFrom).fopt = State.reset.fopt := rfl
@[simp] theorem State.resetFrom_eth (s : State) : (s.resetFrom).eth = State.reset.eth := rfl
@[simp] theorem State.resetFrom_arp (s : State) : (s.resetFrom).arp = State.reset.arp := rfl
@[simp] theorem State.resetFrom_ip (s : State) : (s.resetFrom).ip = State.reset.ip := rfl
@[simp] theorem State.resetFrom_icmp (s : State) : (s.resetFrom).icmp = State.reset.icmp := rfl
@[simp] theorem State.resetFrom_udp (s : State) : (s.resetFrom).udp = State.reset.udp := rfl
@[simp] theorem State.resetFrom_lpay (s : State) : (s.resetFrom).lpay = State.reset.lpay := rfl
@[simp] theorem State.resetFrom_sq (s : State) : (s.resetFrom).sq = State.reset.sq := rfl
@[simp] theorem State.resetFrom_seqr (s : State) : (s.resetFrom).seqr = State.reset.seqr := rfl
@[simp] theorem State.resetFrom_ibuf (s : State) : (s.resetFrom).ibuf = State.reset.ibuf := rfl
@[simp] theorem State.resetFrom_pbuf (s : State) : (s.resetFrom).pbuf = State.reset.pbuf := rfl
@[simp] theorem State.resetFrom_obuf (s : State) : (s.resetFrom).obuf = State.reset.obuf := rfl
@[simp] theorem State.resetFrom_rxq (s : State) : (s.resetFrom).rxq = s.rxq := rfl
@[simp] theorem State.resetFrom_txq (s : State) : (s.resetFrom).txq = s.txq := rfl
@[simp] theorem State.resetFrom_arpcCache (s : State) : (s.resetFrom).arpcCache = s.arpcCache := rfl
@[simp] theorem State.resetFrom_inputs (s : State) : (s.resetFrom).inputs = s.inputs := rfl
@[simp] theorem State.resetFrom_issuer (s : State) : (s.resetFrom).issuer = State.reset.issuer := rfl
@[simp] theorem State.resetFrom_hostHeld (s : State) : (s.resetFrom).hostHeld = State.reset.hostHeld := rfl
@[simp] theorem State.resetFrom_workerHeld (s : State) : (s.resetFrom).workerHeld = State.reset.workerHeld := rfl
@[simp] theorem State.resetFrom_resp (s : State) : (s.resetFrom).resp = s.resp := rfl
@[simp] theorem State.resetFrom_arpcResp (s : State) : (s.resetFrom).arpcResp = s.arpcResp := rfl
@[simp] theorem State.resetFrom_scan (s : State) : (s.resetFrom).scan = State.reset.scan := rfl

@[simp] theorem State.markHeld_cfg (s : State) : (s.markHeld).cfg = s.cfg := by unfold State.markHeld; cases s.issuer <;> rfl
@[simp] theorem State.markHeld_status (s : State) : (s.markHeld).status = s.status := by unfold State.markHeld; cases s.issuer <;> rfl
@[simp] theorem State.markHeld_result (s : State) : (s.markHeld).result = s.result := by unfold State.markHeld; cases s.issuer <;> rfl
@[simp] theorem State.markHeld_win (s : State) : (s.markHeld).win = s.win := by unfold State.markHeld; cases s.issuer <;> rfl
@[simp] theorem State.markHeld_out (s : State) : (s.markHeld).out = s.out := by unfold State.markHeld; cases s.issuer <;> rfl
@[simp] theorem State.markHeld_ph (s : State) : (s.markHeld).ph = s.ph := by unfold State.markHeld; cases s.issuer <;> rfl
@[simp] theorem State.markHeld_seg (s : State) : (s.markHeld).seg = s.seg := by unfold State.markHeld; cases s.issuer <;> rfl
@[simp] theorem State.markHeld_opts (s : State) : (s.markHeld).opts = s.opts := by unfold State.markHeld; cases s.issuer <;> rfl
@[simp] theorem State.markHeld_track (s : State) : (s.markHeld).track = s.track := by unfold State.markHeld; cases s.issuer <;> rfl
@[simp] theorem State.markHeld_fopt (s : State) : (s.markHeld).fopt = s.fopt := by unfold State.markHeld; cases s.issuer <;> rfl
@[simp] theorem State.markHeld_eth (s : State) : (s.markHeld).eth = s.eth := by unfold State.markHeld; cases s.issuer <;> rfl
@[simp] theorem State.markHeld_arp (s : State) : (s.markHeld).arp = s.arp := by unfold State.markHeld; cases s.issuer <;> rfl
@[simp] theorem State.markHeld_ip (s : State) : (s.markHeld).ip = s.ip := by unfold State.markHeld; cases s.issuer <;> rfl
@[simp] theorem State.markHeld_icmp (s : State) : (s.markHeld).icmp = s.icmp := by unfold State.markHeld; cases s.issuer <;> rfl
@[simp] theorem State.markHeld_udp (s : State) : (s.markHeld).udp = s.udp := by unfold State.markHeld; cases s.issuer <;> rfl
@[simp] theorem State.markHeld_lpay (s : State) : (s.markHeld).lpay = s.lpay := by unfold State.markHeld; cases s.issuer <;> rfl
@[simp] theorem State.markHeld_sq (s : State) : (s.markHeld).sq = s.sq := by unfold State.markHeld; cases s.issuer <;> rfl
@[simp] theorem State.markHeld_seqr (s : State) : (s.markHeld).seqr = s.seqr := by unfold State.markHeld; cases s.issuer <;> rfl
@[simp] theorem State.markHeld_ibuf (s : State) : (s.markHeld).ibuf = s.ibuf := by unfold State.markHeld; cases s.issuer <;> rfl
@[simp] theorem State.markHeld_pbuf (s : State) : (s.markHeld).pbuf = s.pbuf := by unfold State.markHeld; cases s.issuer <;> rfl
@[simp] theorem State.markHeld_obuf (s : State) : (s.markHeld).obuf = s.obuf := by unfold State.markHeld; cases s.issuer <;> rfl
@[simp] theorem State.markHeld_rxq (s : State) : (s.markHeld).rxq = s.rxq := by unfold State.markHeld; cases s.issuer <;> rfl
@[simp] theorem State.markHeld_txq (s : State) : (s.markHeld).txq = s.txq := by unfold State.markHeld; cases s.issuer <;> rfl
@[simp] theorem State.markHeld_arpcCache (s : State) : (s.markHeld).arpcCache = s.arpcCache := by unfold State.markHeld; cases s.issuer <;> rfl
@[simp] theorem State.markHeld_inputs (s : State) : (s.markHeld).inputs = s.inputs := by unfold State.markHeld; cases s.issuer <;> rfl
@[simp] theorem State.markHeld_issuer (s : State) : (s.markHeld).issuer = s.issuer := by unfold State.markHeld; cases s.issuer <;> rfl
@[simp] theorem State.markHeld_resp (s : State) : (s.markHeld).resp = s.resp := by unfold State.markHeld; cases s.issuer <;> rfl
@[simp] theorem State.markHeld_arpcResp (s : State) : (s.markHeld).arpcResp = s.arpcResp := by unfold State.markHeld; cases s.issuer <;> rfl
@[simp] theorem State.markHeld_scan (s : State) : (s.markHeld).scan = s.scan := by unfold State.markHeld; cases s.issuer <;> rfl

@[simp] theorem State.release_cfg (s : State) (t : Thread) : (s.release t).cfg = s.cfg := by cases t <;> rfl
@[simp] theorem State.release_status (s : State) (t : Thread) : (s.release t).status = s.status := by cases t <;> rfl
@[simp] theorem State.release_result (s : State) (t : Thread) : (s.release t).result = s.result := by cases t <;> rfl
@[simp] theorem State.release_win (s : State) (t : Thread) : (s.release t).win = s.win := by cases t <;> rfl
@[simp] theorem State.release_out (s : State) (t : Thread) : (s.release t).out = s.out := by cases t <;> rfl
@[simp] theorem State.release_ph (s : State) (t : Thread) : (s.release t).ph = s.ph := by cases t <;> rfl
@[simp] theorem State.release_seg (s : State) (t : Thread) : (s.release t).seg = s.seg := by cases t <;> rfl
@[simp] theorem State.release_opts (s : State) (t : Thread) : (s.release t).opts = s.opts := by cases t <;> rfl
@[simp] theorem State.release_track (s : State) (t : Thread) : (s.release t).track = s.track := by cases t <;> rfl
@[simp] theorem State.release_fopt (s : State) (t : Thread) : (s.release t).fopt = s.fopt := by cases t <;> rfl
@[simp] theorem State.release_eth (s : State) (t : Thread) : (s.release t).eth = s.eth := by cases t <;> rfl
@[simp] theorem State.release_arp (s : State) (t : Thread) : (s.release t).arp = s.arp := by cases t <;> rfl
@[simp] theorem State.release_ip (s : State) (t : Thread) : (s.release t).ip = s.ip := by cases t <;> rfl
@[simp] theorem State.release_icmp (s : State) (t : Thread) : (s.release t).icmp = s.icmp := by cases t <;> rfl
@[simp] theorem State.release_udp (s : State) (t : Thread) : (s.release t).udp = s.udp := by cases t <;> rfl
@[simp] theorem State.release_lpay (s : State) (t : Thread) : (s.release t).lpay = s.lpay := by cases t <;> rfl
@[simp] theorem State.release_sq (s : State) (t : Thread) : (s.release t).sq = s.sq := by cases t <;> rfl
@[simp] theorem State.release_seqr (s : State) (t : Thread) : (s.release t).seqr = s.seqr := by cases t <;> rfl
@[simp] theorem State.release_ibuf (s : State) (t : Thread) : (s.release t).ibuf = s.ibuf := by cases t <;> rfl
@[simp] theorem State.release_pbuf (s : State) (t : Thread) : (s.release t).pbuf = s.pbuf := by cases t <;> rfl
@[simp] theorem State.release_obuf (s : State) (t : Thread) : (s.release t).obuf = s.obuf := by cases t <;> rfl
@[simp] theorem State.release_rxq (s : State) (t : Thread) : (s.release t).rxq = s.rxq := by cases t <;> rfl
@[simp] theorem State.release_txq (s : State) (t : Thread) : (s.release t).txq = s.txq := by cases t <;> rfl
@[simp] theorem State.release_arpcCache (s : State) (t : Thread) : (s.release t).arpcCache = s.arpcCache := by cases t <;> rfl
@[simp] theorem State.release_inputs (s : State) (t : Thread) : (s.release t).inputs = s.inputs := by cases t <;> rfl
@[simp] theorem State.release_resp (s : State) (t : Thread) : (s.release t).resp = s.resp := by cases t <;> rfl
@[simp] theorem State.release_arpcResp (s : State) (t : Thread) : (s.release t).arpcResp = s.arpcResp := by cases t <;> rfl
@[simp] theorem State.release_scan (s : State) (t : Thread) : (s.release t).scan = s.scan := by cases t <;> rfl

@[simp] theorem State.setBuf_cfg (s : State) (b : BufId) (m : Memory) : (s.setBuf b m).cfg = s.cfg := by cases b <;> rfl
@[simp] theorem State.setBuf_status (s : State) (b : BufId) (m : Memory) : (s.setBuf b m).status = s.status := by cases b <;> rfl
@[simp] theorem State.setBuf_result (s : State) (b : BufId) (m : Memory) : (s.setBuf b m).result = s.result := by cases b <;> rfl
@[simp] theorem State.setBuf_win (s : State) (b : BufId) (m : Memory) : (s.setBuf b m).win = s.win := by cases b <;> rfl
@[simp] theorem State.setBuf_out (s : State) (b : BufId) (m : Memory) : (s.setBuf b m).out = s.out := by cases b <;> rfl
@[simp] theorem State.setBuf_ph (s : State) (b : BufId) (m : Memory) : (s.setBuf b m).ph = s.ph := by cases b <;> rfl
@[simp] theorem State.setBuf_seg (s : State) (b : BufId) (m : Memory) : (s.setBuf b m).seg = s.seg := by cases b <;> rfl
@[simp] theorem State.setBuf_opts (s : State) (b : BufId) (m : Memory) : (s.setBuf b m).opts = s.opts := by cases b <;> rfl
@[simp] theorem State.setBuf_track (s : State) (b : BufId) (m : Memory) : (s.setBuf b m).track = s.track := by cases b <;> rfl
@[simp] theorem State.setBuf_fopt (s : State) (b : BufId) (m : Memory) : (s.setBuf b m).fopt = s.fopt := by cases b <;> rfl
@[simp] theorem State.setBuf_eth (s : State) (b : BufId) (m : Memory) : (s.setBuf b m).eth = s.eth := by cases b <;> rfl
@[simp] theorem State.setBuf_arp (s : State) (b : BufId) (m : Memory) : (s.setBuf b m).arp = s.arp := by cases b <;> rfl
@[simp] theorem State.setBuf_ip (s : State) (b : BufId) (m : Memory) : (s.setBuf b m).ip = s.ip := by cases b <;> rfl
@[simp] theorem State.setBuf_icmp (s : State) (b : BufId) (m : Memory) : (s.setBuf b m).icmp = s.icmp := by cases b <;> rfl
@[simp] theorem State.setBuf_udp (s : State) (b : BufId) (m : Memory) : (s.setBuf b m).udp = s.udp := by cases b <;> rfl
@[simp] theorem State.setBuf_lpay (s : State) (b : BufId) (m : Memory) : (s.setBuf b m).lpay = s.lpay := by cases b <;> rfl
@[simp] theorem State.setBuf_sq (s : State) (b : BufId) (m : Memory) : (s.setBuf b m).sq = s.sq := by cases b <;> rfl
@[simp] theorem State.setBuf_seqr (s : State) (b : BufId) (m : Memory) : (s.setBuf b m).seqr = s.seqr := by cases b <;> rfl
@[simp] theorem State.setBuf_rxq (s : State) (b : BufId) (m : Memory) : (s.setBuf b m).rxq = s.rxq := by cases b <;> rfl
@[simp] theorem State.setBuf_txq (s : State) (b : BufId) (m : Memory) : (s.setBuf b m).txq = s.txq := by cases b <;> rfl
@[simp] theorem State.setBuf_arpcCache (s : State) (b : BufId) (m : Memory) : (s.setBuf b m).arpcCache = s.arpcCache := by cases b <;> rfl
@[simp] theorem State.setBuf_inputs (s : State) (b : BufId) (m : Memory) : (s.setBuf b m).inputs = s.inputs := by cases b <;> rfl
@[simp] theorem State.setBuf_issuer (s : State) (b : BufId) (m : Memory) : (s.setBuf b m).issuer = s.issuer := by cases b <;> rfl
@[simp] theorem State.setBuf_hostHeld (s : State) (b : BufId) (m : Memory) : (s.setBuf b m).hostHeld = s.hostHeld := by cases b <;> rfl
@[simp] theorem State.setBuf_workerHeld (s : State) (b : BufId) (m : Memory) : (s.setBuf b m).workerHeld = s.workerHeld := by cases b <;> rfl
@[simp] theorem State.setBuf_resp (s : State) (b : BufId) (m : Memory) : (s.setBuf b m).resp = s.resp := by cases b <;> rfl
@[simp] theorem State.setBuf_arpcResp (s : State) (b : BufId) (m : Memory) : (s.setBuf b m).arpcResp = s.arpcResp := by cases b <;> rfl
@[simp] theorem State.setBuf_scan (s : State) (b : BufId) (m : Memory) : (s.setBuf b m).scan = s.scan := by cases b <;> rfl

@[simp] theorem State.release_issuer (s : State) (t : Thread) : (s.release t).issuer = t := by cases t <;> rfl
@[simp] theorem State.release_held (s : State) (t : Thread) : (s.release t).held t = false := by cases t <;> rfl
@[simp] theorem State.setBuf_buf_same (s : State) (b : BufId) (m : Memory) : (s.setBuf b m).buf b = m := by cases b <;> rfl

theorem State.setBuf_buf_other (s : State) {b b' : BufId} (m : Memory) (h : b' ≠ b) :
    (s.setBuf b m).buf b' = s.buf b' := by
  cases b <;> cases b' <;> first | rfl | exact absurd rfl h

/-- Writing a code twice keeps the last. -/
@[simp] theorem State.setErr_setErr (s : State) (e f : Err) : (s.setErr e).setErr f = s.setErr f := rfl

end Sys2Proof.Machine
end

