-- ==== Sys2Proof/Laws/Memory.lean ====
section
/-! SUPPORT. The laws of a buffer: read after write, writes leave other addresses alone, the canonical form and the size are kept, what a range read answers. -/

namespace Sys2Proof.Machine

@[simp] theorem Memory.read?_nil (a : Nat) : Memory.read? [] a = none := rfl

/-- Read after one write. -/
theorem Memory.read?_write (m : Memory) (a b : Nat) (x : Byte) :
    (m.write a x).read? b = if b = a then some x else m.read? b := by
  induction m with
  | nil => simp [Memory.write, Memory.read?, eq_comm]
  | cons c r ih =>
    unfold Memory.write
    split
    · simp only [Memory.read?]; split <;> simp_all [eq_comm]
    · split
      · rename_i h; subst h; simp only [Memory.read?]; split <;> simp_all [eq_comm]
      · simp only [Memory.read?, ih]; split <;> split <;> simp_all

@[simp] theorem Memory.read?_write_same (m : Memory) (a : Nat) (x : Byte) :
    (m.write a x).read? a = some x := by simp [Memory.read?_write]

theorem Memory.read?_write_other (m : Memory) {a b : Nat} (x : Byte) (h : b ≠ a) :
    (m.write a x).read? b = m.read? b := by simp [Memory.read?_write, h]

/-- Read after a range write: the written bytes inside, the old ones outside. -/
theorem Memory.read?_writeRange (xs : Bytes) : ∀ (m : Memory) (a b : Nat),
    (m.writeRange a xs).read? b = if a ≤ b ∧ b < a + xs.length then xs[b - a]? else m.read? b := by
  induction xs with
  | nil => intro m a b; rw [if_neg (by simp)]; rfl
  | cons x xs ih =>
    intro m a b
    rw [Memory.writeRange, ih, Memory.read?_write]
    by_cases h : b = a
    · subst h; rw [if_neg (by omega), if_pos rfl, if_pos (by simp only [List.length_cons]; omega)]; simp
    · by_cases h2 : a + 1 ≤ b ∧ b < a + 1 + xs.length
      · have : b - a = (b - (a + 1)) + 1 := by omega
        rw [if_pos h2, if_pos (by simp only [List.length_cons]; omega), this, List.getElem?_cons_succ]
      · rw [if_neg h2, if_neg h, if_neg (by simp only [List.length_cons]; omega)]

theorem Memory.read?_writeRange_inside (m : Memory) (a k : Nat) (xs : Bytes) (h : k < xs.length) :
    (m.writeRange a xs).read? (a + k) = some (byteAt xs k) := by
  rw [Memory.read?_writeRange, if_pos (by omega)]
  simp [byteAt, h]

theorem Memory.read?_writeRange_outside (m : Memory) {a b : Nat} {xs : Bytes}
    (h : ¬ (a ≤ b ∧ b < a + xs.length)) : (m.writeRange a xs).read? b = m.read? b := by
  rw [Memory.read?_writeRange, if_neg h]

/-! ### The canonical form -/

/-- The head of a written buffer is the old head or the written address. -/
theorem Memory.write_wf {m : Memory} (a : Nat) (x : Byte) (h : m.wf = true) : (m.write a x).wf = true := by
  induction m with
  | nil => rfl
  | cons c r ih =>
    unfold Memory.write
    split
    · simp_all [Memory.wf]
    · split
      · rename_i h1 h2
        cases r with
        | nil => rfl
        | cons d r => simp_all [Memory.wf]
      · rename_i h1 h2
        cases r with
        | nil => simp [Memory.write, Memory.wf]; omega
        | cons d r =>
          have hr : Memory.wf (d :: r) = true := by simp_all [Memory.wf]
          have hcd : c.1 < d.1 := by simp_all [Memory.wf]
          have ih' := ih hr
          revert ih'
          unfold Memory.write
          have step : ∀ (e : Host.Cell) (t : Memory), c.1 < e.1 → Memory.wf (e :: t) = true →
              Memory.wf (c :: e :: t) = true := by
            intro e t h1 h2; rw [Memory.wf, h2, Bool.and_true, decide_eq_true_eq]; exact h1
          split
          · exact step _ _ (by simp only; omega)
          · split
            · exact step _ _ (by simp only; omega)
            · exact step _ _ hcd

theorem Memory.write_within {m : Memory} {n a : Nat} (x : Byte) (ha : a < n) (h : m.within n = true) :
    (m.write a x).within n = true := by
  induction m with
  | nil => simpa [Memory.write, Memory.within] using ha
  | cons c r ih =>
    simp only [Memory.within, List.all_cons, Bool.and_eq_true, decide_eq_true_eq] at h ih
    unfold Memory.write
    split
    · simp only [Memory.within, List.all_cons, Bool.and_eq_true, decide_eq_true_eq]; exact ⟨ha, h⟩
    · split
      · simp only [Memory.within, List.all_cons, Bool.and_eq_true, decide_eq_true_eq]; exact ⟨ha, h.2⟩
      · simp only [Memory.within, List.all_cons, Bool.and_eq_true, decide_eq_true_eq]; exact ⟨h.1, ih h.2⟩

theorem Memory.write_ok {m : Memory} {n a : Nat} (x : Byte) (ha : a < n) (h : m.Ok n) : (m.write a x).Ok n :=
  ⟨Memory.write_wf a x h.1, Memory.write_within x ha h.2⟩

/-- A range write inside the size keeps the form and the size. -/
theorem Memory.writeRange_ok (xs : Bytes) : ∀ {m : Memory} {n a : Nat}, a + xs.length ≤ n → m.Ok n → (m.writeRange a xs).Ok n := by
  induction xs with
  | nil => intro m n a _ h; exact h
  | cons x xs ih =>
    intro m n a hl h
    simp only [List.length_cons] at hl
    exact ih (by omega) (Memory.write_ok x (by omega) h)

theorem Memory.ok_nil (n : Nat) : Memory.Ok [] n := ⟨rfl, rfl⟩

/-- A range write keeps the canonical form whatever the addresses. -/
theorem Memory.writeRange_wf (xs : Bytes) : ∀ {m : Memory} {a : Nat}, m.wf = true → (m.writeRange a xs).wf = true := by
  induction xs with
  | nil => intro m a h; exact h
  | cons x xs ih => intro m a h; exact ih (Memory.write_wf a x h)

/-! ### Range reads -/

theorem byteAt_cons_zero (x : Byte) (xs : Bytes) : byteAt (x :: xs) 0 = x := rfl
theorem byteAt_cons_succ (x : Byte) (xs : Bytes) (k : Nat) : byteAt (x :: xs) (k + 1) = byteAt xs k := rfl

/-- A range read answers B exactly when B has the length asked for and each byte is B's. -/
theorem Memory.readRange_eq_ok (m : Memory) : ∀ (n a : Nat) (B : Bytes),
    m.readRange a n = .ok B ↔ B.length = n ∧ ∀ k, k < B.length → m.read? (a + k) = some (byteAt B k) := by
  intro n
  induction n with
  | zero =>
    intro a B
    simp only [Memory.readRange]
    constructor
    · intro h; cases h; simp
    · rintro ⟨h, -⟩; rw [List.length_eq_zero_iff.mp h]
  | succ n ih =>
    intro a B
    unfold Memory.readRange
    cases hr : m.read? a with
    | none =>
      simp only [reduceCtorEq, false_iff]
      rintro ⟨hl, hk⟩
      have := hk 0 (by omega)
      simp [hr] at this
    | some x =>
      simp only
      cases hrr : m.readRange (a + 1) n with
      | error e =>
        simp only [reduceCtorEq, false_iff]
        rintro ⟨hl, hk⟩
        cases B with
        | nil => simp at hl
        | cons y ys =>
          have : m.readRange (a + 1) n = .ok ys := by
            rw [ih]
            refine ⟨by simpa using hl, fun k hk' => ?_⟩
            have := hk (k + 1) (by simpa using hk')
            rw [show a + 1 + k = a + (k + 1) by omega, this, byteAt_cons_succ]
          rw [hrr] at this; cases this
      | ok xs =>
        have hx := (ih (a + 1) xs).mp hrr
        simp only [Except.ok.injEq]
        constructor
        · intro h; subst h
          refine ⟨by simp [hx.1], fun k hk => ?_⟩
          cases k with
          | zero => simpa [byteAt] using hr
          | succ k =>
            have := hx.2 k (by simpa using hk)
            rw [show a + (k + 1) = a + 1 + k by omega, this, byteAt_cons_succ]
        · rintro ⟨hl, hk⟩
          cases B with
          | nil => simp at hl
          | cons y ys =>
            have h0 := hk 0 (by simp)
            simp [hr, byteAt] at h0
            have : m.readRange (a + 1) n = .ok ys := by
              rw [ih]
              refine ⟨by simpa using hl, fun k hk' => ?_⟩
              have := hk (k + 1) (by simpa using hk')
              rw [show a + 1 + k = a + (k + 1) by omega, this, byteAt_cons_succ]
            rw [hrr] at this
            cases this; rw [h0]

theorem Memory.readRange_length {m : Memory} {a n : Nat} {B : Bytes} (h : m.readRange a n = .ok B) : B.length = n :=
  ((m.readRange_eq_ok n a B).mp h).1

/-- What a range write left is what a range read of the same place answers. -/
theorem Memory.readRange_writeRange (m : Memory) (a : Nat) (B : Bytes) :
    (m.writeRange a B).readRange a B.length = .ok B := by
  rw [Memory.readRange_eq_ok]
  exact ⟨rfl, fun k hk => Memory.read?_writeRange_inside m a k B hk⟩

/-- A byte of a state's buffer after the buffer is replaced. -/
theorem State.byte?_setBuf (s : State) (b b' : BufId) (m : Memory) (a : Nat) :
    (s.setBuf b m).byte? b' a = if b' = b then m.read? a else s.byte? b' a := by
  cases b <;> cases b' <;> rfl

end Sys2Proof.Machine
end

