-- ==== Sys2Proof/Laws/Ops.lean ====
section
/-! SUPPORT. One lemma per shared operation that says all it can answer: reading bytes, reading the window, the ways a command ends, and the common parts of the command families. -/

namespace Sys2Proof.Machine

/-! ### The ways a command ends -/

@[simp] theorem raise_eq (e : Err) (s : State) : raise e s = .next (s.setErr e) := rfl
@[simp] theorem complete_eq (s : State) : complete s = .next (s.setErr .none) := rfl

theorem issued_running {body : State → Out} {s : State} (h : s.status.fatal = false) : issued body s = body s := by
  simp [issued, h]

theorem issued_halted {body : State → Out} {s : State} (h : s.status.fatal = true) :
    issued body s = .next (s.setErr .fatalHalted) := by
  simp [issued, h]

/-- A command either was issued to a halted block, or its body ran. -/
theorem issued_next {body : State → Out} {s t : State} (h : issued body s = .next t) :
    (s.status.fatal = true ∧ t = s.setErr .fatalHalted) ∨ (s.status.fatal = false ∧ body s = .next t) := by
  unfold issued at h
  split at h
  · rename_i hf; simp only [raise_eq, Host.Outcome.next.injEq] at h; exact .inl ⟨hf, h.symm⟩
  · rename_i hf; exact .inr ⟨by simpa using hf, h⟩

theorem andThen_next {o : Out} {k : State → Out} {t : State} (h : andThen o k = .next t) :
    ∃ u, o = .next u ∧ k u = .next t := by
  cases o with
  | next u => exact ⟨u, rfl, h⟩
  | fault r => cases h
  | refused r => cases h

@[simp] theorem andThen_of_next (u : State) (k : State → Out) : andThen (.next u) k = k u := rfl

/-! ### Reading bytes -/

theorem withBytes_of_holds {s : State} {b : BufId} {a : Nat} {B : Bytes} {k : Bytes → Out}
    (h : s.Holds b a B) : withBytes s b a B.length k = k B := by
  have : (s.buf b).readRange a B.length = .ok B := by
    rw [Memory.readRange_eq_ok]; exact ⟨rfl, h⟩
  simp [withBytes, this]

theorem withBytes_next {s t : State} {b : BufId} {a n : Nat} {k : Bytes → Out}
    (h : withBytes s b a n k = .next t) : ∃ B, B.length = n ∧ s.Holds b a B ∧ k B = .next t := by
  unfold withBytes at h
  cases hr : (s.buf b).readRange a n with
  | ok B =>
    rw [hr] at h
    exact ⟨B, Memory.readRange_length hr, ((Memory.readRange_eq_ok _ _ _ _).mp hr).2, h⟩
  | error e => rw [hr] at h; cases h

theorem withWindow_of_windowIs {s : State} {W : Bytes} {k : Bytes → Out} (h : s.WindowIs W) :
    withWindow s k = k W := by
  unfold withWindow
  rw [if_neg (by omega), ← h.2.1]
  exact withBytes_of_holds h.2.2

/-- Reading the window answers BAD_WINDOW, or goes on with the bytes it holds. -/
theorem withWindow_next {s t : State} {k : Bytes → Out} (h : withWindow s k = .next t) :
    (s.cfg.ibufBytes < s.win.ioff.toNat + s.win.ilen.toNat ∧ t = s.setErr .badWindow) ∨
    ∃ W, s.WindowIs W ∧ k W = .next t := by
  unfold withWindow at h
  split at h
  · rename_i hb; simp only [raise_eq, Host.Outcome.next.injEq] at h; exact .inl ⟨hb, h.symm⟩
  · rename_i hb
    obtain ⟨W, hl, hh, hk⟩ := withBytes_next h
    exact .inr ⟨W, ⟨by omega, hl, hh⟩, hk⟩

theorem withWindow_outside {s : State} {k : Bytes → Out}
    (h : s.cfg.ibufBytes < s.win.ioff.toNat + s.win.ilen.toNat) : withWindow s k = .next (s.setErr .badWindow) := by
  unfold withWindow; rw [if_pos h]; rfl

/-! ### The command families -/

/-- CSUM_VERIFY, whatever the layer: BAD_WINDOW, the layer's code, or RESULT and CSUM_OK. -/
theorem csumVerify_next {verify : Bytes → Except Err (U16 × Bool)} {s t : State} (h : csumVerify verify s = .next t) :
    t = s.setErr .badWindow ∨ (∃ W e, verify W = .error e ∧ t = s.setErr e) ∨
    ∃ W c ok, s.WindowIs W ∧ verify W = .ok (c, ok) ∧
      t = { s with result := c, status := { s.status with err := .none, csumOk := ok } } := by
  unfold csumVerify at h
  rcases withWindow_next h with ⟨-, h⟩ | ⟨W, hW, h⟩
  · exact .inl h
  · cases hv : verify W with
    | error e => rw [hv] at h; cases h; exact .inr (.inl ⟨W, e, hv, rfl⟩)
    | ok p => obtain ⟨c, ok⟩ := p; rw [hv] at h; cases h; exact .inr (.inr ⟨W, c, ok, hW, hv, rfl⟩)

/-- The encode commands: EIV, or going on with the encoded options and the payload bytes. -/
theorem withSegment_next {s t : State} {c : U16} {k : Nat → Bytes → Out} (h : withSegment s c k = .next t) :
    (encodedOptions s = none ∧ t = { s with status := { s.status with err := .eiv, fatal := true } }) ∨
    ∃ O P, encodedOptions s = some O ∧ P.length = s.seg.plen.toNat ∧ s.Holds .pbuf 0 P ∧
      k (20 + O.length) (headerBytes s.seg (20 + O.length) c ++ O ++ P) = .next t := by
  unfold withSegment at h
  cases he : encodedOptions s with
  | none => rw [he] at h; cases h; exact .inl ⟨rfl, rfl⟩
  | some O =>
    rw [he] at h
    obtain ⟨P, hl, hh, hk⟩ := withBytes_next h
    exact .inr ⟨O, P, rfl, hl, hh, hk⟩

theorem withSegment_of {s : State} {c : U16} {k : Nat → Bytes → Out} {O P : Bytes} (ho : encodedOptions s = some O)
    (hl : P.length = s.seg.plen.toNat) (hP : s.Holds .pbuf 0 P) :
    withSegment s c k = k (20 + O.length) (headerBytes s.seg (20 + O.length) c ++ O ++ P) := by
  unfold withSegment
  rw [ho, ← hl]
  exact withBytes_of_holds hP

/-- When the options encode: the chain does, and the header length is a multiple of 4 and at most 60. -/
theorem encodedOptions_eq_some {s : State} {O : Bytes} :
    encodedOptions s = some O ↔ encChain s.chain = some O ∧ (20 + O.length) % 4 = 0 ∧ 20 + O.length ≤ 60 := by
  unfold encodedOptions
  cases h : encChain s.chain with
  | none => simp
  | some X =>
    simp only [ne_eq, Option.some.injEq]
    split
    · rename_i hc; constructor
      · intro h; cases h
      · rintro ⟨rfl, h1, h2⟩; omega
    · rename_i hc; constructor
      · intro h; cases h; exact ⟨rfl, by omega, by omega⟩
      · rintro ⟨rfl, -, -⟩; rfl

end Sys2Proof.Machine
end

