-- ==== Sys2Proof/Laws/Scan.lean ====
section
/-! SUPPORT. The option scan: what one turn can do, how a scan ends, bounds on the decoded chain, and what a turn does with an encoded option. -/

namespace Sys2Proof.Machine

/-! ### One turn -/

@[simp] theorem Scan.turn_nil (c : List TcpOption) : (Scan.scanning [] c).turn = .scanning [] c := rfl
@[simp] theorem Scan.turn_failed : Scan.failed.turn = .failed := rfl
@[simp] theorem Scan.turn_idle : Scan.idle.turn = .idle := rfl

theorem Scan.accept_cases (len fixed : Nat) (o : TcpOption) (rest : Bytes) (c : List TcpOption) :
    Scan.accept len fixed o (.scanning rest c) = .failed ∨
    (2 ≤ len ∧ len ≤ rest.length ∧ len = fixed ∧
      Scan.accept len fixed o (.scanning rest c) = .scanning (rest.drop len) (c ++ [o])) := by
  unfold Scan.accept
  simp only
  split
  · exact .inl rfl
  · exact .inr ⟨by omega, by omega, by omega, rfl⟩

/-- An UNKNOWN's data lies inside the area. -/
theorem decodeOption_unknown_data {A : Bytes} {t l : Byte} {d : Bytes}
    (h : decodeOption A = .ok (.optUnknown t l d)) : d.length + 2 ≤ A.length := by
  revert h
  unfold decodeOption
  split
  · intro h; cases h
  · rename_i x r
    split; · intro h; cases h
    split; · intro h; cases h
    split
    · intro h; cases h
    · rename_i l' d'
      repeat' split
      all_goals intro h
      all_goals first | (cases h; done) | skip
      simp only [Except.ok.injEq, Instr.optUnknown.injEq] at h
      obtain ⟨-, -, rfl⟩ := h
      simp only [List.length_take, List.length_cons]
      omega

/-- A turn that goes on appends one record, uses up at least one byte, and appends a legal record if the area has at most 40 bytes. -/
theorem Scan.apply_cases {A : Bytes} {i : Instr} (hA : A ≠ []) (h : decodeOption A = .ok i) (c : List TcpOption) :
    Scan.apply i (.scanning A c) = .failed ∨ Scan.apply i (.scanning A c) = .scanning A c ∨
    ∃ rest' o, Scan.apply i (.scanning A c) = .scanning rest' (c ++ [o]) ∧ rest'.length < A.length ∧
      (A.length ≤ 40 → slotOk o = true) := by
  have hlen : 0 < A.length := List.length_pos_iff.mpr hA
  have key : ∀ len fixed o, (len = fixed → A.length ≤ 40 → slotOk o = true) →
      Scan.accept len fixed o (.scanning A c) = .failed ∨
      ∃ rest' o', Scan.accept len fixed o (.scanning A c) = .scanning rest' (c ++ [o']) ∧
        rest'.length < A.length ∧ (A.length ≤ 40 → slotOk o' = true) := by
    intro len fixed o hs
    rcases Scan.accept_cases len fixed o A c with h | ⟨h1, h2, h3, h⟩
    · exact .inl h
    · exact .inr ⟨_, o, h, by simp only [List.length_drop]; omega, hs h3⟩
  have wrap : ∀ sc, (sc = Scan.failed ∨ ∃ rest' o', sc = .scanning rest' (c ++ [o']) ∧
        rest'.length < A.length ∧ (A.length ≤ 40 → slotOk o' = true)) →
      sc = .failed ∨ sc = .scanning A c ∨ ∃ rest' o', sc = .scanning rest' (c ++ [o']) ∧
        rest'.length < A.length ∧ (A.length ≤ 40 → slotOk o' = true) := by
    rintro sc (h | h)
    · exact .inl h
    · exact .inr (.inr h)
  cases i with
  | optEol => exact .inr (.inr ⟨[], .eol, rfl, by simpa using hlen, fun _ => rfl⟩)
  | optNop =>
    exact .inr (.inr ⟨A.drop 1, .nop, rfl, by simp only [List.length_drop]; omega, fun _ => rfl⟩)
  | optMss len v => exact wrap _ (key _ _ _ fun _ _ => rfl)
  | optWs len x => exact wrap _ (key _ _ _ fun _ _ => rfl)
  | optSackperm len => exact wrap _ (key _ _ _ fun _ _ => rfl)
  | optTs len a b => exact wrap _ (key _ _ _ fun _ _ => rfl)
  | optUnknown t l d =>
    refine wrap _ (key _ _ _ fun _ h40 => ?_)
    have := decodeOption_unknown_data h
    exact decide_eq_true (show d.length ≤ 38 by omega)
  | _ => exact .inr (.inl rfl)

/-- The decoder of records answers records. -/
theorem decodeOption_format {A : Bytes} {i : Instr} (h : decodeOption A = .ok i) : i.format = .tcpOpt := by
  revert h
  unfold decodeOption
  repeat' split
  all_goals intro h
  all_goals first | (cases h; done) | (simp only [Except.ok.injEq] at h; subst h; rfl)

/-- One turn on a non-empty rest: failure, or one more record and a shorter rest. -/
theorem Scan.turn_cases {A : Bytes} (hA : A ≠ []) (c : List TcpOption) :
    (Scan.scanning A c).turn = .failed ∨
    ∃ rest' o, (Scan.scanning A c).turn = .scanning rest' (c ++ [o]) ∧ rest'.length < A.length ∧
      (A.length ≤ 40 → slotOk o = true) := by
  cases A with
  | nil => exact absurd rfl hA
  | cons b r =>
    simp only [Scan.turn]
    cases hd : decodeOption (b :: r) with
    | error e => exact .inl rfl
    | ok i =>
      rcases Scan.apply_cases hA hd c with h | h | h
      · exact .inl h
      · have hf := decodeOption_format hd
        exfalso
        have key : ∀ len fixed o, Scan.accept len fixed o (.scanning (b :: r) c) ≠ .scanning (b :: r) c := by
          intro len fixed o hh
          rcases Scan.accept_cases len fixed o (b :: r) c with h' | ⟨h1, -, -, h'⟩
          · rw [h'] at hh; cases hh
          · rw [h'] at hh; simp only [Scan.scanning.injEq] at hh
            have := congrArg List.length hh.2; simp at this
        cases i <;> first
          | (cases hf; done)
          | exact key _ _ _ h
          | (simp only [Scan.apply, Scan.eol, Scan.nop, Scan.scanning.injEq] at h
             have := congrArg List.length h.2; simp at this)
      · exact .inr h

/-! ### Whole scans -/

@[simp] theorem Scan.turns_nil (n : Nat) (c : List TcpOption) : Scan.turns n (.scanning [] c) = .scanning [] c := by
  induction n with
  | zero => rfl
  | succ n ih => exact ih

@[simp] theorem Scan.turns_failed (n : Nat) : Scan.turns n .failed = .failed := by
  induction n with
  | zero => rfl
  | succ n ih => exact ih

theorem Scan.turns_succ (n : Nat) (sc : Scan) : Scan.turns (n + 1) sc = Scan.turns n sc.turn := rfl

/-- With as many turns as bytes a scan ends: it fails, or uses up the area and has appended no more records than there were bytes. -/
theorem Scan.turns_cases (n : Nat) : ∀ (A : Bytes) (c : List TcpOption), A.length ≤ n →
    Scan.turns n (.scanning A c) = .failed ∨
    ∃ d, Scan.turns n (.scanning A c) = .scanning [] (c ++ d) ∧ d.length ≤ A.length ∧
      (A.length ≤ 40 → ∀ o ∈ d, slotOk o = true) := by
  induction n with
  | zero =>
    intro A c h
    have : A = [] := List.length_eq_zero_iff.mp (by omega)
    subst this
    exact .inr ⟨[], by simp [Scan.turns], by simp, by simp⟩
  | succ n ih =>
    intro A c h
    by_cases hA : A = []
    · subst hA; exact .inr ⟨[], by simp, by simp, by simp⟩
    · rw [Scan.turns_succ]
      rcases Scan.turn_cases hA c with ht | ⟨rest', o, ht, hl, ho⟩
      · rw [ht]; exact .inl (Scan.turns_failed n)
      · rw [ht]
        rcases ih rest' (c ++ [o]) (by omega) with h' | ⟨d, h', hd, hs⟩
        · exact .inl h'
        · refine .inr ⟨o :: d, by rw [h']; simp, by simp only [List.length_cons]; omega, ?_⟩
          intro h40 x hx
          rcases List.mem_cons.mp hx with rfl | hx
          · exact ho h40
          · exact hs (by omega) x hx

/-- More turns than bytes change nothing. -/
theorem Scan.turns_enough (A : Bytes) (c : List TcpOption) (n : Nat) (h : A.length ≤ n) :
    Scan.turns n (.scanning A c) = Scan.turns A.length (.scanning A c) := by
  induction n generalizing A c with
  | zero =>
    have : A = [] := List.length_eq_zero_iff.mp (by omega)
    subst this; rfl
  | succ n ih =>
    by_cases hA : A = []
    · subst hA; simp
    · obtain ⟨b, r, rfl⟩ := List.exists_cons_of_ne_nil hA
      rw [Scan.turns_succ, List.length_cons, Scan.turns_succ]
      rcases Scan.turn_cases hA c with ht | ⟨rest', o, ht, hl, -⟩
      · rw [ht]; simp
      · rw [ht]
        simp only [List.length_cons] at h hl
        by_cases hn : r.length = n
        · rw [hn]
        · rw [ih rest' _ (by omega)]
          have : ∀ k, k ≤ n → rest'.length ≤ k →
              Scan.turns k (.scanning rest' (c ++ [o])) = Scan.turns rest'.length (.scanning rest' (c ++ [o])) := by
            intro k hk hr
            induction k with
            | zero => rw [show rest'.length = 0 by omega]
            | succ k ihk =>
              by_cases he : rest'.length = k + 1
              · rw [he]
              · have h1 := ihk (by omega) (by omega)
                have hk' : Scan.turns (k + 1) (.scanning rest' (c ++ [o])) = (Scan.turns k (.scanning rest' (c ++ [o]))).turn := by
                  clear h1 ihk he hr hk
                  generalize Scan.scanning rest' (c ++ [o]) = sc
                  induction k generalizing sc with
                  | zero => rfl
                  | succ k ihk => rw [Scan.turns_succ, ihk, ← Scan.turns_succ]
                rw [hk', h1]
                rcases Scan.turns_cases rest'.length rest' (c ++ [o]) (Nat.le_refl _) with h' | ⟨d, h', -, -⟩ <;> rw [h'] <;> rfl
          exact (this r.length (by omega) (by omega)).symm

/-- A decoded chain has at most one option a byte, and from an area of at most 40 bytes only legal records (42_option_chain.md R160). -/
theorem decodeOptions_bounds {A : Bytes} {c : List TcpOption} (h : decodeOptions A = some c) :
    c.length ≤ A.length ∧ (A.length ≤ 40 → ∀ o ∈ c, slotOk o = true) := by
  unfold decodeOptions at h
  rcases Scan.turns_cases A.length A [] (Nat.le_refl _) with h' | ⟨d, h', hd, hs⟩
  · rw [h'] at h; cases h
  · rw [h'] at h
    simp only [List.nil_append, Option.some.injEq] at h
    subst h; exact ⟨hd, hs⟩

/-! ### A turn on an encoded option -/

/-- A turn at the encoding of an option that is no EOL appends it and goes on behind it (42_option_chain.md R160, R168). -/
theorem Scan.turn_encOpt {o : TcpOption} {b : Bytes} (h : encOpt o = some b) (hs : slotOk o = true) (he : o ≠ .eol)
    (r : Bytes) (c : List TcpOption) : (Scan.scanning (b ++ r) c).turn = .scanning r (c ++ [o]) := by
  cases o with
  | eol => exact absurd rfl he
  | nop => cases h; rfl
  | mss v =>
    cases h
    simp [Scan.turn, decodeOption, toBe16, Scan.apply, Scan.mss, Scan.accept]
  | ws s =>
    cases h
    simp [Scan.turn, decodeOption, Scan.apply, Scan.ws, Scan.accept]
  | sackperm =>
    cases h
    simp [Scan.turn, decodeOption, Scan.apply, Scan.sackperm, Scan.accept]
  | ts x y =>
    cases h
    simp [Scan.turn, decodeOption, toBe32, Scan.apply, Scan.ts, Scan.accept]
  | unknown t d =>
    unfold encOpt at h
    simp only at h
    split at h
    · cases h
    · rename_i hk
      simp only [Option.some.injEq] at h
      subst h
      have hd : d.length ≤ 38 := of_decide_eq_true hs
      simp only [knownTag, Bool.or_eq_true, beq_iff_eq, not_or] at hk
      obtain ⟨⟨⟨⟨⟨h0, h1⟩, h2⟩, h3⟩, h4⟩, h8⟩ := hk
      have hl : (BitVec.ofNat 8 (2 + d.length)).toNat = 2 + d.length := by
        rw [BitVec.toNat_ofNat]; omega
      simp only [List.cons_append, List.nil_append, Scan.turn, decodeOption, h0, h1, h2, h3, h4, h8, if_false, hl]
      rw [if_pos (by simp)]
      simp only [Scan.apply, Scan.unknown, Scan.accept, hl]
      rw [if_neg (by simp; omega)]
      simp [show 2 + d.length = d.length + 1 + 1 by omega]

/-- A turn at an EOL appends it and stops. -/
theorem Scan.turn_eol (r : Bytes) (c : List TcpOption) :
    (Scan.scanning ((0 : Byte) :: r) c).turn = .scanning [] (c ++ [.eol]) := rfl

/-! ### A scan from its first turn on -/

theorem Scan.accept_ok {len fixed : Nat} {rest : Bytes} (o : TcpOption) (c : List TcpOption) (h2 : 2 ≤ len) (hf : len = fixed)
    (hr : len ≤ rest.length) : Scan.accept len fixed o (.scanning rest c) = .scanning (rest.drop len) (c ++ [o]) := by
  simp only [Scan.accept]; rw [if_neg (by omega)]

theorem Scan.accept_failed {len fixed : Nat} {rest : Bytes} (o : TcpOption) (c : List TcpOption)
    (h : len < 2 ∨ rest.length < len ∨ len ≠ fixed) : Scan.accept len fixed o (.scanning rest c) = .failed := by
  simp only [Scan.accept]; rw [if_pos h]

/-- The chain so far put in front of what a scan has appended. -/
def Scan.behind (c : List TcpOption) : Scan → Scan
  | .scanning rest d => .scanning rest (c ++ d)
  | .idle => .idle
  | .failed => .failed

/-- What a turn does does not depend on the chain so far. -/
theorem Scan.turn_behind (c d : List TcpOption) (A : Bytes) :
    (Scan.scanning A (c ++ d)).turn = Scan.behind c (Scan.scanning A d).turn := by
  cases A with
  | nil => rfl
  | cons b r =>
    have acc : ∀ len fixed o, Scan.accept len fixed o (.scanning (b :: r) (c ++ d)) =
        Scan.behind c (Scan.accept len fixed o (.scanning (b :: r) d)) := by
      intro len fixed o
      simp only [Scan.accept]
      split
      · rfl
      · simp only [Scan.behind, List.append_assoc]
    simp only [Scan.turn]
    cases hd : decodeOption (b :: r) with
    | error e => rfl
    | ok i =>
      have hf := decodeOption_format hd
      cases i <;> first
        | (cases hf; done)
        | exact acc _ _ _
        | simp only [Scan.apply, Scan.eol, Scan.nop, Scan.behind, List.append_assoc]

theorem Scan.turns_behind (n : Nat) : ∀ (c d : List TcpOption) (A : Bytes),
    Scan.turns n (.scanning A (c ++ d)) = Scan.behind c (Scan.turns n (.scanning A d)) := by
  induction n with
  | zero => intro c d A; rfl
  | succ n ih =>
    intro c d A
    rw [Scan.turns_succ, Scan.turns_succ, Scan.turn_behind]
    cases (Scan.scanning A d).turn with
    | scanning r e => exact ih c e r
    | failed => simp [Scan.behind]
    | idle =>
      have : ∀ k, Scan.turns k .idle = .idle := by
        intro k; induction k with
        | zero => rfl
        | succ k ihk => exact ihk
      simp only [Scan.behind, this]

/-- A scan whose first turn appends o and goes on at r decodes to o and then what r decodes to. -/
theorem decodeOptions_turn {A r : Bytes} {o : TcpOption} (h : (Scan.scanning A []).turn = .scanning r [o])
    (hl : r.length < A.length) : decodeOptions A = (decodeOptions r).map (o :: ·) := by
  obtain ⟨n, hn⟩ : ∃ n, A.length = n + 1 := ⟨A.length - 1, by omega⟩
  unfold decodeOptions
  rw [hn, Scan.turns_succ, h, show [o] = [o] ++ [] from rfl, Scan.turns_behind, Scan.turns_enough r [] n (by omega)]
  cases Scan.turns r.length (.scanning r []) <;> rfl

/-- A scan whose first turn fails decodes to nothing. -/
theorem decodeOptions_failed {A : Bytes} (h : (Scan.scanning A []).turn = .failed) : decodeOptions A = none := by
  cases A with
  | nil => cases h
  | cons b r => unfold decodeOptions; rw [List.length_cons, Scan.turns_succ, h]; simp

/-- An area that begins with an encoded option, no EOL: the option and what follows it (42_option_chain.md R160, R168). -/
theorem decodeOptions_encOpt {o : TcpOption} {b : Bytes} (h : encOpt o = some b) (hs : slotOk o = true) (he : o ≠ .eol)
    (r : Bytes) : decodeOptions (b ++ r) = (decodeOptions r).map (o :: ·) :=
  decodeOptions_turn (Scan.turn_encOpt h hs he r []) (by
    have : b ≠ [] := by
      rintro rfl
      cases o <;> simp only [encOpt] at h <;> first | (split at h <;> cases h) | cases h
    have := List.length_pos_iff.mpr this
    simp only [List.length_append]; omega)

end Sys2Proof.Machine
end

