-- ==== Sys2Proof/Laws/Commands.lean ====
section
/-! SUPPORT. One lemma per command that says all a command which answers a next state can have done: a code raised with nothing else written, or its commit.
Every command's meaning is `issued` of a body, so a halted block and a running one are told apart once. -/

namespace Sys2Proof.Machine

/-- The command raised one of the codes, or was refused by a halted block: nothing but STATUS.ERR is written (60_exceptions.md R230). -/
def Raised (codes : List Err) (s t : State) : Prop :=
  (s.status.fatal = true ∧ t = s.setErr .fatalHalted) ∨ (s.status.fatal = false ∧ ∃ e ∈ codes, t = s.setErr e)

/-- The command raised EIV: STATUS.ERR and STATUS.FATAL are written (R231). -/
def RaisedEiv (s t : State) : Prop :=
  s.status.fatal = false ∧ t = { s with status := { s.status with err := .eiv, fatal := true } }

/-- Every command is a body behind the check of 45_host_port.md R225. -/
theorem command_issued {i : Instr} (h : i.format = .cmd32) : ∃ body, ∀ s, exec i s = issued body s := by
  cases i with
  | csumVerifyTcp => exact ⟨fun s => csumVerify (verifyTcp s.ph) s, fun s => by simp only [exec, execCsumVerifyTcp, issued]⟩
  | csumVerifyUdp => exact ⟨fun s => csumVerify (verifyUdp s.ph) s, fun s => by simp only [exec, execCsumVerifyUdp, issued]⟩
  | _ => first | (cases h; done) | exact ⟨_, fun _ => rfl⟩

/-- Issuing a decoded command is executing it. -/
theorem runCommand_eq_exec {i : Instr} (h : i.format = .cmd32) (s : State) : runCommand i s = exec i s := by
  cases i <;> first | (cases h; done) | rfl

theorem exec_halted {i : Instr} {s : State} (h : i.format = .cmd32) (hf : s.status.fatal = true) :
    exec i s = .next (s.setErr .fatalHalted) := by
  obtain ⟨body, hb⟩ := command_issued h
  rw [hb, issued_halted hf]

/-- A body that reads the window: BAD_WINDOW or the window's bytes go on. -/
theorem issued_window_next {k : State → Bytes → Out} {s t : State}
    (h : issued (fun s => withWindow s (k s)) s = .next t) :
    (Raised [.badWindow] s t) ∨ (s.status.fatal = false ∧ ∃ W, s.WindowIs W ∧ k s W = .next t) := by
  rcases issued_next h with ⟨hf, rfl⟩ | ⟨hf, h⟩
  · exact .inl (.inl ⟨hf, rfl⟩)
  · rcases withWindow_next h with ⟨-, rfl⟩ | hW
    · exact .inl (.inr ⟨hf, _, by simp, rfl⟩)
    · exact .inr ⟨hf, hW⟩

theorem Raised.mono {a b : List Err} {s t : State} (h : Raised a s t) (hab : ∀ e ∈ a, e ∈ b) : Raised b s t := by
  rcases h with h | ⟨hf, e, he, ht⟩
  · exact .inl h
  · exact .inr ⟨hf, e, hab e he, ht⟩

theorem raised_next {codes : List Err} {s t : State} {e : Err} (hf : s.status.fatal = false) (he : e ∈ codes)
    (h : raise e s = .next t) : Raised codes s t := by
  simp only [raise_eq, Host.Outcome.next.injEq] at h
  exact .inr ⟨hf, e, he, h.symm⟩

/-! ### What the commits leave in the buffers -/

/-- The encoded bytes stand at OBUF[OOFF..). -/
theorem State.putOut_holds (s : State) (E : Bytes) (e : Err) : ((s.putOut E).setErr e).Holds .obuf s.out.ooff.toNat E :=
  fun k hk => Memory.read?_writeRange_inside s.obuf s.out.ooff.toNat k E hk

/-- No other byte of OBUF changed. -/
theorem State.putOut_sameOutside (s : State) (E : Bytes) (e : Err) :
    s.SameOutside ((s.putOut E).setErr e) .obuf s.out.ooff.toNat E.length :=
  fun _ hx => Memory.read?_writeRange_outside s.obuf hx

/-- The payload stands at PBUF[0..). -/
theorem State.commitSegment_holds (s : State) (W : Bytes) (h : Nat) (c : List TcpOption) (e : Err) :
    ((s.commitSegment W h c).setErr e).Holds .pbuf 0 (W.drop h) :=
  fun k hk => Memory.read?_writeRange_inside s.pbuf 0 k (W.drop h) hk

/-- No other byte of PBUF changed. -/
theorem State.commitSegment_sameOutside (s : State) (W : Bytes) (h : Nat) (c : List TcpOption) (e : Err) :
    s.SameOutside ((s.commitSegment W h c).setErr e) .pbuf 0 (W.drop h).length :=
  fun _ hx => Memory.read?_writeRange_outside s.pbuf hx

/-! ### Segment commands -/

theorem execSegNew_next {link : Bool} {s t : State} (h : execSegNew link s = .next t) :
    Raised [] s t ∨ (s.status.fatal = false ∧ t = State.setErr { s with
      seg := Seg.empty
      track := { s.track with
        trk := s.track.nextTrk
        nextTrk := s.track.nextTrk + 1
        parent := if link then s.track.inTrk else 0
        hasParent := link } } .none) := by
  rcases issued_next h with ⟨hf, rfl⟩ | ⟨hf, h⟩
  · exact .inl (.inl ⟨hf, rfl⟩)
  · cases h; exact .inr ⟨hf, rfl⟩

/-- What decoding a header can answer: a code, or a header length of 20 to 60 inside W with the chain of its area. -/
theorem decodeHeader_ok {W : Bytes} {h : Nat} {c : List TcpOption} (hd : decodeHeader W = .ok (h, c)) :
    20 ≤ W.length ∧ h = headerLength (byteAt W 12) ∧ 20 ≤ h ∧ h ≤ 60 ∧ h ≤ W.length ∧
    decodeOptions ((W.take h).drop 20) = some c ∧ c.length ≤ 40 ∧ ∀ o ∈ c, slotOk o = true := by
  unfold decodeHeader at hd
  split at hd; · cases hd
  simp only at hd
  split at hd; · cases hd
  split at hd; · cases hd
  split at hd; · cases hd
  rename_i ho
  cases hd
  have h60 : headerLength (byteAt W 12) ≤ 60 := by unfold headerLength; have := ((byteAt W 12).extractLsb' 4 4).isLt; omega
  have hlen : ((W.take (headerLength (byteAt W 12))).drop 20).length ≤ 40 := by
    simp only [List.length_drop, List.length_take]; omega
  have := decodeOptions_bounds ho
  exact ⟨by omega, rfl, by omega, h60, by omega, ho, by omega, this.2 hlen⟩

theorem decodeHeader_error {W : Bytes} {e : Err} (hd : decodeHeader W = .error e) : e ∈ [Err.truncated, .malformedOptions] := by
  unfold decodeHeader at hd
  split at hd; · cases hd; simp
  simp only at hd
  split at hd; · cases hd; simp
  split at hd; · cases hd; simp
  split at hd <;> cases hd
  simp

theorem execSegDecode_next {s t : State} (h : execSegDecode s = .next t) :
    Raised [.truncated, .malformedOptions, .badWindow] s t ∨
    (s.status.fatal = false ∧ ∃ W hl c, s.WindowIs W ∧ decodeHeader W = .ok (hl, c) ∧
      t = (s.commitSegment W hl c).setErr .none) := by
  rcases issued_window_next h with h | ⟨hf, W, hW, h⟩
  · exact .inl (h.mono (by simp))
  · cases hd : decodeHeader W with
    | error e => rw [hd] at h; exact .inl (raised_next hf (by have := decodeHeader_error hd; simp_all; tauto) h)
    | ok p => obtain ⟨hl, c⟩ := p; rw [hd] at h; cases h; exact .inr ⟨hf, W, hl, c, hW, hd, rfl⟩

theorem issued_segment_next {c : State → U16} {k : State → Nat → Bytes → Out} {s t : State}
    (h : issued (fun s => withSegment s (c s) (k s)) s = .next t) :
    Raised [] s t ∨ RaisedEiv s t ∨ (s.status.fatal = false ∧ ∃ O P, encodedOptions s = some O ∧
      P.length = s.seg.plen.toNat ∧ s.Holds .pbuf 0 P ∧
      k s (20 + O.length) (headerBytes s.seg (20 + O.length) (c s) ++ O ++ P) = .next t) := by
  rcases issued_next h with ⟨hf, rfl⟩ | ⟨hf, h⟩
  · exact .inl (.inl ⟨hf, rfl⟩)
  · rcases withSegment_next h with ⟨-, rfl⟩ | h
    · exact .inr (.inl ⟨hf, rfl⟩)
    · exact .inr (.inr ⟨hf, h⟩)

theorem execSegEncode_next {s t : State} (h : execSegEncode s = .next t) :
    Raised [] s t ∨ RaisedEiv s t ∨ (s.status.fatal = false ∧ ∃ O P E, encodedOptions s = some O ∧
      P.length = s.seg.plen.toNat ∧ s.Holds .pbuf 0 P ∧
      E = headerBytes s.seg (20 + O.length) s.seg.csum ++ O ++ P ∧
      t = (State.putOut { s with seg := { s.seg with hlen := BitVec.ofNat 8 (20 + O.length) } } E).setErr .none) := by
  rcases issued_segment_next (c := fun s => s.seg.csum) h with h | h | ⟨hf, O, P, hO, hl, hP, h⟩
  · exact .inl h
  · exact .inr (.inl h)
  · cases h; exact .inr (.inr ⟨hf, O, P, _, hO, hl, hP, rfl, rfl⟩)

theorem execSegChecksum_next {s t : State} (h : execSegChecksum s = .next t) :
    Raised [] s t ∨ RaisedEiv s t ∨ (s.status.fatal = false ∧ ∃ O P c, encodedOptions s = some O ∧
      P.length = s.seg.plen.toNat ∧ s.Holds .pbuf 0 P ∧
      c = ocsum (tcpSumInput s.ph (headerBytes s.seg (20 + O.length) 0 ++ O ++ P)) ∧
      t = State.setErr { s with result := c } .none) := by
  rcases issued_segment_next (c := fun _ => 0) h with h | h | ⟨hf, O, P, hO, hl, hP, h⟩
  · exact .inl h
  · exact .inr (.inl h)
  · cases h; exact .inr (.inr ⟨hf, O, P, _, hO, hl, hP, rfl, rfl⟩)

theorem execSegGetRaw_next {s t : State} (h : execSegGetRaw s = .next t) :
    Raised [] s t ∨ RaisedEiv s t ∨ (s.status.fatal = false ∧ ∃ O P c E, encodedOptions s = some O ∧
      P.length = s.seg.plen.toNat ∧ s.Holds .pbuf 0 P ∧
      c = ocsum (tcpSumInput s.ph (headerBytes s.seg (20 + O.length) 0 ++ O ++ P)) ∧
      E = putBe16 (headerBytes s.seg (20 + O.length) 0 ++ O ++ P) 16 c ∧
      t = (State.putOut { s with
          seg := { s.seg with csum := c, hlen := BitVec.ofNat 8 (20 + O.length) }, result := c } E).setErr .none) := by
  rcases issued_segment_next (c := fun _ => 0) h with h | h | ⟨hf, O, P, hO, hl, hP, h⟩
  · exact .inl h
  · exact .inr (.inl h)
  · cases h; exact .inr (.inr ⟨hf, O, P, _, _, hO, hl, hP, rfl, rfl, rfl⟩)

theorem execSegFindOption_next {kind : Byte} {s t : State} (h : execSegFindOption kind s = .next t) :
    Raised [] s t ∨ (s.status.fatal = false ∧ t = State.setErr (State.setFound
      { s with fopt := s.chain.find? fun o => o.kind == kind } (s.chain.find? fun o => o.kind == kind).isSome) .none) := by
  rcases issued_next h with ⟨hf, rfl⟩ | ⟨hf, h⟩
  · exact .inl (.inl ⟨hf, rfl⟩)
  · cases h; exact .inr ⟨hf, rfl⟩

/-! ### Checksum verification -/

theorem issued_csumVerify_next {verify : Bytes → Except Err (U16 × Bool)} {codes : List Err} {s t : State}
    (hv : ∀ W e, verify W = .error e → e ∈ codes) (h : issued (csumVerify verify) s = .next t) :
    Raised (.badWindow :: codes) s t ∨ (s.status.fatal = false ∧ ∃ W c ok, s.WindowIs W ∧ verify W = .ok (c, ok) ∧
      t = (State.setCsumOk { s with result := c } ok).setErr .none) := by
  rcases issued_next h with ⟨hf, rfl⟩ | ⟨hf, h⟩
  · exact .inl (.inl ⟨hf, rfl⟩)
  · rcases csumVerify_next h with ⟨-, rfl⟩ | ⟨W, e, he, rfl⟩ | ⟨W, c, ok, hW, ho, rfl⟩
    · exact .inl (.inr ⟨hf, _, by simp, rfl⟩)
    · exact .inl (.inr ⟨hf, e, by simp [hv _ _ he], rfl⟩)
    · exact .inr ⟨hf, W, c, ok, hW, ho, rfl⟩

theorem verifyTcp_error {p : PseudoHdr} {W : Bytes} {e : Err} (h : verifyTcp p W = .error e) : e ∈ [Err.truncated] := by
  unfold verifyTcp at h; split at h <;> cases h; simp

theorem verifyUdp_error {p : PseudoHdr} {W : Bytes} {e : Err} (h : verifyUdp p W = .error e) : e ∈ [Err.truncated] := by
  unfold verifyUdp at h; split at h <;> cases h; simp

theorem verifyIcmp_error {W : Bytes} {e : Err} (h : verifyIcmp W = .error e) : e ∈ [Err.truncated] := by
  unfold verifyIcmp at h; split at h <;> cases h; simp

theorem verifyIp4_error {W : Bytes} {e : Err} (h : verifyIp4 W = .error e) : e ∈ [Err.truncated, .malformedHeader] := by
  unfold verifyIp4 at h
  split at h; · cases h; simp
  simp only at h
  split at h; · cases h; simp
  split at h <;> cases h; simp

theorem execCsumVerifyTcp_next {s t : State} (h : execCsumVerifyTcp s = .next t) :
    Raised [.badWindow, .truncated] s t ∨ (s.status.fatal = false ∧ ∃ W c ok, s.WindowIs W ∧
      verifyTcp s.ph W = .ok (c, ok) ∧ t = (State.setCsumOk { s with result := c } ok).setErr .none) :=
  issued_csumVerify_next (fun _ _ => verifyTcp_error) h

theorem execCsumVerifyUdp_next {s t : State} (h : execCsumVerifyUdp s = .next t) :
    Raised [.badWindow, .truncated] s t ∨ (s.status.fatal = false ∧ ∃ W c ok, s.WindowIs W ∧
      verifyUdp s.ph W = .ok (c, ok) ∧ t = (State.setCsumOk { s with result := c } ok).setErr .none) :=
  issued_csumVerify_next (fun _ _ => verifyUdp_error) h

theorem execCsumVerifyIcmp_next {s t : State} (h : execCsumVerifyIcmp s = .next t) :
    Raised [.badWindow, .truncated] s t ∨ (s.status.fatal = false ∧ ∃ W c ok, s.WindowIs W ∧
      verifyIcmp W = .ok (c, ok) ∧ t = (State.setCsumOk { s with result := c } ok).setErr .none) :=
  issued_csumVerify_next (fun _ _ => verifyIcmp_error) h

theorem execCsumVerifyIp4_next {s t : State} (h : execCsumVerifyIp4 s = .next t) :
    Raised [.badWindow, .truncated, .malformedHeader] s t ∨ (s.status.fatal = false ∧ ∃ W c ok, s.WindowIs W ∧
      verifyIp4 W = .ok (c, ok) ∧ t = (State.setCsumOk { s with result := c } ok).setErr .none) :=
  issued_csumVerify_next (fun _ _ => verifyIp4_error) h

/-! ### Option commands -/

theorem execOptDecode_next {s t : State} (h : execOptDecode s = .next t) :
    Raised [.malformedOptions, .badWindow] s t ∨ (s.status.fatal = false ∧ ∃ W c, s.WindowIs W ∧ W.length ≤ 40 ∧
      decodeOptions W = some c ∧ t = (s.commitChain c).setErr .none) := by
  rcases issued_window_next h with h | ⟨hf, W, hW, h⟩
  · exact .inl (h.mono (by simp))
  · split at h
    · exact .inl (raised_next hf (by simp) h)
    · rename_i h40
      cases hd : decodeOptions W with
      | none => rw [hd] at h; exact .inl (raised_next hf (by simp) h)
      | some c => rw [hd] at h; cases h; exact .inr ⟨hf, W, c, hW, by omega, hd, rfl⟩

theorem execOptEncode_next {slot : Byte} {s t : State} (h : execOptEncode slot s = .next t) :
    Raised [.indexRange] s t ∨ RaisedEiv s t ∨ (s.status.fatal = false ∧ slot.toNat < s.seg.optcnt.toNat ∧
      ∃ B, encOpt (s.opts.getD slot.toNat .eol) = some B ∧ t = (s.putOut B).setErr .none) := by
  rcases issued_next h with ⟨hf, rfl⟩ | ⟨hf, h⟩
  · exact .inl (.inl ⟨hf, rfl⟩)
  · split at h
    · exact .inl (raised_next hf (by simp) h)
    · rename_i hs
      cases he : encOpt (s.opts.getD slot.toNat .eol) with
      | none => rw [he] at h; cases h; exact .inr (.inl ⟨hf, rfl⟩)
      | some B => rw [he] at h; cases h; exact .inr (.inr ⟨hf, by omega, B, rfl, rfl⟩)

/-! ### Parsers -/

theorem execEthParse_next {s t : State} (h : execEthParse s = .next t) :
    Raised [.truncated, .badWindow] s t ∨ (s.status.fatal = false ∧ ∃ W, s.WindowIs W ∧ 14 ≤ W.length ∧
      t = State.setErr { s with
        eth := ⟨be48At W 0, be48At W 6, be16At W 12⟩
        lpay := ⟨s.win.ioff + 14, s.win.ilen - 14⟩ } .none) := by
  rcases issued_window_next h with h | ⟨hf, W, hW, h⟩
  · exact .inl (h.mono (by simp))
  · split at h
    · exact .inl (raised_next hf (by simp) h)
    · cases h; exact .inr ⟨hf, W, hW, by omega, rfl⟩

theorem execArpParse_next {s t : State} (h : execArpParse s = .next t) :
    Raised [.truncated, .malformedHeader, .badWindow] s t ∨ (s.status.fatal = false ∧ ∃ W, s.WindowIs W ∧
      28 ≤ W.length ∧ arpAccepted W = true ∧
      t = State.setErr { s with arp := arpRegs W, lpay := ⟨s.win.ioff + 28, 0⟩ } .none) := by
  rcases issued_window_next h with h | ⟨hf, W, hW, h⟩
  · exact .inl (h.mono (by simp))
  · split at h
    · exact .inl (raised_next hf (by simp) h)
    · split at h
      · cases h; exact .inr ⟨hf, W, hW, by omega, ‹_›, rfl⟩
      · exact .inl (raised_next hf (by simp) h)

theorem ip4Check_error {W : Bytes} {e : Err} (h : ip4Check W = .error e) : e ∈ [Err.truncated, .malformedHeader] := by
  unfold ip4Check at h
  split at h; · cases h; simp
  split at h; · cases h; simp
  simp only at h
  split at h; · cases h; simp
  split at h; · cases h; simp
  split at h; · cases h; simp
  split at h <;> cases h; simp

/-- The header length an IPv4 header passes its checks with: 20 to 60, inside the total length, which is inside W. -/
theorem ip4Check_ok {W : Bytes} {hl : Nat} (h : ip4Check W = .ok hl) :
    20 ≤ hl ∧ hl ≤ 60 ∧ hl ≤ (be16At W 2).toNat ∧ (be16At W 2).toNat ≤ W.length ∧ hl = 4 * ((byteAt W 0).extractLsb' 0 4).toNat := by
  unfold ip4Check at h
  split at h; · cases h
  split at h; · cases h
  simp only at h
  split at h; · cases h
  split at h; · cases h
  split at h; · cases h
  split at h <;> cases h
  have := ((byteAt W 0).extractLsb' 0 4).isLt
  exact ⟨by omega, by omega, by omega, by omega, rfl⟩

theorem execIp4Parse_next {s t : State} (h : execIp4Parse s = .next t) :
    Raised [.truncated, .malformedHeader, .badWindow] s t ∨ (s.status.fatal = false ∧ ∃ W hl, s.WindowIs W ∧
      ip4Check W = .ok hl ∧
      t = State.setErr { s with
        ip := ipRegs W hl
        lpay := ⟨s.win.ioff + BitVec.ofNat 32 hl, BitVec.ofNat 32 ((be16At W 2).toNat - hl)⟩ } .none) := by
  rcases issued_window_next h with h | ⟨hf, W, hW, h⟩
  · exact .inl (h.mono (by simp))
  · cases hc : ip4Check W with
    | error e => rw [hc] at h; exact .inl (raised_next hf (by have := ip4Check_error hc; simp_all; tauto) h)
    | ok hl => rw [hc] at h; cases h; exact .inr ⟨hf, W, hl, hW, hc, rfl⟩

theorem execIcmp4Parse_next {s t : State} (h : execIcmp4Parse s = .next t) :
    Raised [.truncated, .badWindow] s t ∨ (s.status.fatal = false ∧ ∃ W, s.WindowIs W ∧ 8 ≤ W.length ∧
      t = State.setErr { s with
        icmp := ⟨byteAt W 0, byteAt W 1, be16At W 2, be32At W 4⟩
        lpay := ⟨s.win.ioff + 8, s.win.ilen - 8⟩ } .none) := by
  rcases issued_window_next h with h | ⟨hf, W, hW, h⟩
  · exact .inl (h.mono (by simp))
  · split at h
    · exact .inl (raised_next hf (by simp) h)
    · cases h; exact .inr ⟨hf, W, hW, by omega, rfl⟩

theorem execUdpParse_next {s t : State} (h : execUdpParse s = .next t) :
    Raised [.truncated, .malformedHeader, .badWindow] s t ∨ (s.status.fatal = false ∧ ∃ W, s.WindowIs W ∧
      8 ≤ (be16At W 4).toNat ∧ (be16At W 4).toNat ≤ W.length ∧
      t = State.setErr { s with
        udp := ⟨be16At W 0, be16At W 2, be16At W 4, be16At W 6⟩
        lpay := ⟨s.win.ioff + 8, BitVec.ofNat 32 ((be16At W 4).toNat - 8)⟩ } .none) := by
  rcases issued_window_next h with h | ⟨hf, W, hW, h⟩
  · exact .inl (h.mono (by simp))
  · split at h
    · exact .inl (raised_next hf (by simp) h)
    · split at h
      · exact .inl (raised_next hf (by simp) h)
      · split at h
        · exact .inl (raised_next hf (by simp) h)
        · cases h; exact .inr ⟨hf, W, hW, by omega, by omega, rfl⟩

/-! ### Pipeline commands -/

theorem execSqStart_next {s t : State} (h : execSqStart s = .next t) :
    Raised [.badState] s t ∨ (s.status.fatal = false ∧ s.sq.running = false ∧
      t = State.setErr { s with
        sq := { s.sq with wired := true, running := true }
        seqr := { s.seqr with phase := .idle } } .none) := by
  rcases issued_next h with ⟨hf, rfl⟩ | ⟨hf, h⟩
  · exact .inl (.inl ⟨hf, rfl⟩)
  · split at h
    · exact .inl (raised_next hf (by simp) h)
    · cases h; exact .inr ⟨hf, by simp_all, rfl⟩

theorem execTxEnqueue_next {s t : State} (h : execTxEnqueue s = .next t) :
    Raised [] s t ∨
    (s.status.fatal = false ∧ s.txRoom = true ∧ ∃ F, F.length = s.out.txlen.toNat ∧ s.Holds .obuf 0 F ∧
      t = State.setErr { s with txq := s.txq ++ [F] } .none) ∨
    (s.status.fatal = false ∧ s.txRoom = false ∧ s.cfg.txqFull = .hold ∧ t = s.markHeld) ∨
    (s.status.fatal = false ∧ s.txRoom = false ∧ s.cfg.txqFull = .drop ∧ t = s.setErr .none) := by
  rcases issued_next h with ⟨hf, rfl⟩ | ⟨hf, h⟩
  · exact .inl (.inl ⟨hf, rfl⟩)
  · split at h
    · rename_i hr
      obtain ⟨F, hl, hF, h⟩ := withBytes_next h
      cases h; exact .inr (.inl ⟨hf, hr, F, hl, hF, rfl⟩)
    · rename_i hr
      split at h
      · rename_i hp; cases h; exact .inr (.inr (.inl ⟨hf, by simpa using hr, hp, rfl⟩))
      · rename_i hp
        obtain ⟨F, hl, hF, h⟩ := withBytes_next h
        cases h; exact .inr (.inr (.inr ⟨hf, by simpa using hr, hp, rfl⟩))

end Sys2Proof.Machine
end

