-- ==== Sys2Proof/Laws/Sequencer.lean ====
section
/-! SUPPORT. What the commands that the sequencer runs leave alone, and what one parse step can do: drop the frame, or go on to the handler (44_pipeline.md R205, R207). -/

namespace Sys2Proof.Machine

/-- What no parser, no SEG_DECODE and no CSUM_VERIFY writes. -/
structure Kept (s t : State) : Prop where
  cfg : t.cfg = s.cfg
  win : t.win = s.win
  ph : t.ph = s.ph
  out : t.out = s.out
  fatal : t.status.fatal = s.status.fatal
  sq : t.sq = s.sq
  seqr : t.seqr = s.seqr
  ibuf : t.ibuf = s.ibuf
  obuf : t.obuf = s.obuf
  rxq : t.rxq = s.rxq
  txq : t.txq = s.txq
  arpcCache : t.arpcCache = s.arpcCache
  inputs : t.inputs = s.inputs
  issuer : t.issuer = s.issuer
  hostHeld : t.hostHeld = s.hostHeld
  workerHeld : t.workerHeld = s.workerHeld
  resp : t.resp = s.resp
  arpcResp : t.arpcResp = s.arpcResp
  scan : t.scan = s.scan
  inTrk : t.track.inTrk = s.track.inTrk
  nextTrk : t.track.nextTrk = s.track.nextTrk

theorem Kept.raised {codes : List Err} {s t : State} (h : Raised codes s t) : Kept s t := by
  rcases h with ⟨-, rfl⟩ | ⟨-, e, -, rfl⟩ <;> constructor <;> rfl

theorem Kept.trans {s t u : State} (h : Kept s t) (k : Kept t u) : Kept s u := by
  constructor <;> first
    | exact k.cfg.trans h.cfg | exact k.win.trans h.win | exact k.ph.trans h.ph | exact k.out.trans h.out
    | exact k.fatal.trans h.fatal | exact k.sq.trans h.sq | exact k.seqr.trans h.seqr | exact k.ibuf.trans h.ibuf
    | exact k.obuf.trans h.obuf | exact k.rxq.trans h.rxq | exact k.txq.trans h.txq
    | exact k.arpcCache.trans h.arpcCache | exact k.inputs.trans h.inputs | exact k.issuer.trans h.issuer
    | exact k.hostHeld.trans h.hostHeld | exact k.workerHeld.trans h.workerHeld | exact k.resp.trans h.resp
    | exact k.arpcResp.trans h.arpcResp | exact k.scan.trans h.scan | exact k.inTrk.trans h.inTrk
    | exact k.nextTrk.trans h.nextTrk

theorem execSegDecode_kept {s t : State} (h : execSegDecode s = .next t) : Kept s t := by
  rcases execSegDecode_next h with h | ⟨-, W, hl, c, -, -, rfl⟩
  · exact Kept.raised h
  · constructor <;> rfl

theorem execCsumVerifyTcp_kept {s t : State} (h : execCsumVerifyTcp s = .next t) : Kept s t := by
  rcases execCsumVerifyTcp_next h with h | ⟨-, W, c, ok, -, -, rfl⟩
  · exact Kept.raised h
  · constructor <;> rfl

theorem execCsumVerifyUdp_kept {s t : State} (h : execCsumVerifyUdp s = .next t) : Kept s t := by
  rcases execCsumVerifyUdp_next h with h | ⟨-, W, c, ok, -, -, rfl⟩
  · exact Kept.raised h
  · constructor <;> rfl

theorem execCsumVerifyIcmp_kept {s t : State} (h : execCsumVerifyIcmp s = .next t) : Kept s t := by
  rcases execCsumVerifyIcmp_next h with h | ⟨-, W, c, ok, -, -, rfl⟩
  · exact Kept.raised h
  · constructor <;> rfl

theorem execCsumVerifyIp4_kept {s t : State} (h : execCsumVerifyIp4 s = .next t) : Kept s t := by
  rcases execCsumVerifyIp4_next h with h | ⟨-, W, c, ok, -, -, rfl⟩
  · exact Kept.raised h
  · constructor <;> rfl

theorem execEthParse_kept {s t : State} (h : execEthParse s = .next t) : Kept s t := by
  rcases execEthParse_next h with h | ⟨-, W, -, -, rfl⟩
  · exact Kept.raised h
  · constructor <;> rfl

theorem execArpParse_kept {s t : State} (h : execArpParse s = .next t) : Kept s t := by
  rcases execArpParse_next h with h | ⟨-, W, -, -, -, rfl⟩
  · exact Kept.raised h
  · constructor <;> rfl

theorem execIp4Parse_kept {s t : State} (h : execIp4Parse s = .next t) : Kept s t := by
  rcases execIp4Parse_next h with h | ⟨-, W, hl, -, -, rfl⟩
  · exact Kept.raised h
  · constructor <;> rfl

theorem execIcmp4Parse_kept {s t : State} (h : execIcmp4Parse s = .next t) : Kept s t := by
  rcases execIcmp4Parse_next h with h | ⟨-, W, -, -, rfl⟩
  · exact Kept.raised h
  · constructor <;> rfl

theorem execUdpParse_kept {s t : State} (h : execUdpParse s = .next t) : Kept s t := by
  rcases execUdpParse_next h with h | ⟨-, W, -, -, -, rfl⟩
  · exact Kept.raised h
  · constructor <;> rfl

/-! ### Parse steps -/

theorem dropOnError_next {k : State → Out} {s t : State} (h : dropOnError k s = .next t) :
    (s.status.err ≠ .none ∧ t = s.dropFrame) ∨ (s.status.err = .none ∧ k s = .next t) := by
  unfold dropOnError at h
  split at h
  · exact .inr ⟨‹_›, h⟩
  · cases h; exact .inl ⟨‹_›, rfl⟩

theorem parseEth_next {s t : State} (h : parseEth s = .next t) :
    ∃ u, execEthParse (s.setWindow 0 s.seqr.flen) = .next u ∧
      ((u.status.err ≠ .none ∧ t = u.dropFrame) ∨ (u.status.err = .none ∧
        t = { u with seqr := { u.seqr with
          sel := u.eth.etype, noff := u.lpay.poff, nlen := u.lpay.plen, phase := .handle .eth } })) := by
  obtain ⟨u, hu, h⟩ := andThen_next h
  refine ⟨u, hu, ?_⟩
  rcases dropOnError_next h with h | ⟨he, h⟩
  · exact .inl h
  · cases h; exact .inr ⟨he, rfl⟩

theorem parseArp_next {s t : State} (h : parseArp s = .next t) :
    ∃ u, execArpParse (s.setWindow s.seqr.noff s.seqr.nlen) = .next u ∧
      ((u.status.err ≠ .none ∧ t = u.dropFrame) ∨ (u.status.err = .none ∧ t = u.setPhase (.handle .arp))) := by
  obtain ⟨u, hu, h⟩ := andThen_next h
  refine ⟨u, hu, ?_⟩
  rcases dropOnError_next h with h | ⟨he, h⟩
  · exact .inl h
  · cases h; exact .inr ⟨he, rfl⟩

theorem parseIp_next {s t : State} (h : parseIp s = .next t) :
    ∃ u, execIp4Parse (s.setWindow s.seqr.noff s.seqr.nlen) = .next u ∧
      ((u.status.err ≠ .none ∧ t = u.dropFrame) ∨ (u.status.err = .none ∧ ∃ w, execCsumVerifyIp4 u = .next w ∧
        t = { w with seqr := { w.seqr with
          sel := w.ip.proto.setWidth 16, noff := w.lpay.poff, nlen := w.lpay.plen
          psrc := w.ip.src, pdst := w.ip.dst, phase := .handle .ip } })) := by
  obtain ⟨u, hu, h⟩ := andThen_next h
  refine ⟨u, hu, ?_⟩
  rcases dropOnError_next h with h | ⟨he, h⟩
  · exact .inl h
  · obtain ⟨w, hw, h⟩ := andThen_next h
    cases h; exact .inr ⟨he, w, hw, rfl⟩

theorem parseIcmp_next {s t : State} (h : parseIcmp s = .next t) :
    ∃ u, execIcmp4Parse (s.setWindow s.seqr.noff s.seqr.nlen) = .next u ∧
      ((u.status.err ≠ .none ∧ t = u.dropFrame) ∨ (u.status.err = .none ∧ ∃ w, execCsumVerifyIcmp u = .next w ∧
        t = w.setPhase (.handle .icmp))) := by
  obtain ⟨u, hu, h⟩ := andThen_next h
  refine ⟨u, hu, ?_⟩
  rcases dropOnError_next h with h | ⟨he, h⟩
  · exact .inl h
  · obtain ⟨w, hw, h⟩ := andThen_next h
    cases h; exact .inr ⟨he, w, hw, rfl⟩

theorem parseUdp_next {s t : State} (h : parseUdp s = .next t) :
    ∃ u, execUdpParse (s.setWindow s.seqr.noff s.seqr.nlen) = .next u ∧
      ((u.status.err ≠ .none ∧ t = u.dropFrame) ∨ (u.status.err = .none ∧ ∃ w, execCsumVerifyUdp { u with
          win := { u.win with ilen := u.udp.len.setWidth 32 }
          ph := ⟨u.seqr.psrc, u.seqr.pdst, 17, u.udp.len⟩ } = .next w ∧ t = w.setPhase (.handle .udp))) := by
  obtain ⟨u, hu, h⟩ := andThen_next h
  refine ⟨u, hu, ?_⟩
  rcases dropOnError_next h with h | ⟨he, h⟩
  · exact .inl h
  · obtain ⟨w, hw, h⟩ := andThen_next h
    cases h; exact .inr ⟨he, w, hw, rfl⟩

theorem parseTcp_next {s t : State} (h : parseTcp s = .next t) :
    ∃ u, execSegDecode { s.setWindow s.seqr.noff s.seqr.nlen with
        ph := ⟨s.seqr.psrc, s.seqr.pdst, 6, s.seqr.nlen.setWidth 16⟩ } = .next u ∧
      ((u.status.err ≠ .none ∧ t = u.dropFrame) ∨ (u.status.err = .none ∧ ∃ w, execCsumVerifyTcp u = .next w ∧
        t = w.setPhase (.handle .tcp))) := by
  obtain ⟨u, hu, h⟩ := andThen_next h
  refine ⟨u, hu, ?_⟩
  rcases dropOnError_next h with h | ⟨he, h⟩
  · exact .inl h
  · obtain ⟨w, hw, h⟩ := andThen_next h
    cases h; exact .inr ⟨he, w, hw, rfl⟩

/-- What a parse step keeps of the state before it: everything of `Kept` but the window, the pseudo-header operands, the phase and its saved fields, and DROPS. -/
structure ParseKept (s t : State) : Prop where
  cfg : t.cfg = s.cfg
  out : t.out = s.out
  fatal : t.status.fatal = s.status.fatal
  running : t.sq.running = s.sq.running
  wired : t.sq.wired = s.sq.wired
  flen : t.seqr.flen = s.seqr.flen
  ibuf : t.ibuf = s.ibuf
  obuf : t.obuf = s.obuf
  rxq : t.rxq = s.rxq
  txq : t.txq = s.txq
  arpcCache : t.arpcCache = s.arpcCache
  inputs : t.inputs = s.inputs
  issuer : t.issuer = s.issuer
  hostHeld : t.hostHeld = s.hostHeld
  workerHeld : t.workerHeld = s.workerHeld
  resp : t.resp = s.resp
  arpcResp : t.arpcResp = s.arpcResp
  scan : t.scan = s.scan
  inTrk : t.track.inTrk = s.track.inTrk
  nextTrk : t.track.nextTrk = s.track.nextTrk

/-- The same for a step that changed the window and the operands first. -/
theorem ParseKept.of {s s0 t u : State} (h : Kept s0 u) (h0 : ParseKept s s0)
    (ht : ParseKept u t) : ParseKept s t := by
  constructor <;> first
    | exact ht.cfg.trans (h.cfg.trans h0.cfg) | exact ht.out.trans (h.out.trans h0.out)
    | exact ht.fatal.trans (h.fatal.trans h0.fatal)
    | exact ht.running.trans ((congrArg _ h.sq).trans h0.running) | exact ht.wired.trans ((congrArg _ h.sq).trans h0.wired)
    | exact ht.flen.trans ((congrArg SeqState.flen h.seqr).trans h0.flen)
    | exact ht.ibuf.trans (h.ibuf.trans h0.ibuf) | exact ht.obuf.trans (h.obuf.trans h0.obuf)
    | exact ht.rxq.trans (h.rxq.trans h0.rxq) | exact ht.txq.trans (h.txq.trans h0.txq)
    | exact ht.arpcCache.trans (h.arpcCache.trans h0.arpcCache) | exact ht.inputs.trans (h.inputs.trans h0.inputs)
    | exact ht.issuer.trans (h.issuer.trans h0.issuer) | exact ht.hostHeld.trans (h.hostHeld.trans h0.hostHeld)
    | exact ht.workerHeld.trans (h.workerHeld.trans h0.workerHeld) | exact ht.resp.trans (h.resp.trans h0.resp)
    | exact ht.arpcResp.trans (h.arpcResp.trans h0.arpcResp) | exact ht.scan.trans (h.scan.trans h0.scan)
    | exact ht.inTrk.trans (h.inTrk.trans h0.inTrk) | exact ht.nextTrk.trans (h.nextTrk.trans h0.nextTrk)

theorem ParseKept.drop (u : State) : ParseKept u u.dropFrame := by constructor <;> rfl
theorem ParseKept.phase (u : State) (p : Phase) : ParseKept u (u.setPhase p) := by constructor <;> rfl
theorem ParseKept.window (u : State) (o l : U32) : ParseKept u (u.setWindow o l) := by constructor <;> rfl

theorem parseLayer_kept {l : Layer} {s t : State} (h : parseLayer l s = .next t) : ParseKept s t := by
  cases l with
  | eth =>
    obtain ⟨u, hu, ⟨-, rfl⟩ | ⟨-, rfl⟩⟩ := parseEth_next h
    · exact ParseKept.of (execEthParse_kept hu) (ParseKept.window _ _ _) (ParseKept.drop _)
    · exact ParseKept.of (execEthParse_kept hu) (ParseKept.window _ _ _) (by constructor <;> rfl)
  | arp =>
    obtain ⟨u, hu, ⟨-, rfl⟩ | ⟨-, rfl⟩⟩ := parseArp_next h
    · exact ParseKept.of (execArpParse_kept hu) (ParseKept.window _ _ _) (ParseKept.drop _)
    · exact ParseKept.of (execArpParse_kept hu) (ParseKept.window _ _ _) (ParseKept.phase _ _)
  | ip =>
    obtain ⟨u, hu, ⟨-, rfl⟩ | ⟨-, w, hw, rfl⟩⟩ := parseIp_next h
    · exact ParseKept.of (execIp4Parse_kept hu) (ParseKept.window _ _ _) (ParseKept.drop _)
    · exact ParseKept.of ((execIp4Parse_kept hu).trans (execCsumVerifyIp4_kept hw)) (ParseKept.window _ _ _)
        (by constructor <;> rfl)
  | icmp =>
    obtain ⟨u, hu, ⟨-, rfl⟩ | ⟨-, w, hw, rfl⟩⟩ := parseIcmp_next h
    · exact ParseKept.of (execIcmp4Parse_kept hu) (ParseKept.window _ _ _) (ParseKept.drop _)
    · exact ParseKept.of ((execIcmp4Parse_kept hu).trans (execCsumVerifyIcmp_kept hw)) (ParseKept.window _ _ _)
        (ParseKept.phase _ _)
  | udp =>
    obtain ⟨u, hu, ⟨-, rfl⟩ | ⟨-, w, hw, rfl⟩⟩ := parseUdp_next h
    · exact ParseKept.of (execUdpParse_kept hu) (ParseKept.window _ _ _) (ParseKept.drop _)
    · have h1 : ParseKept s u := ParseKept.of (execUdpParse_kept hu) (ParseKept.window _ _ _) (by constructor <;> rfl)
      exact ParseKept.of (execCsumVerifyUdp_kept hw) (by constructor <;> first
        | exact h1.cfg | exact h1.out | exact h1.fatal | exact h1.running | exact h1.wired | exact h1.flen
        | exact h1.ibuf | exact h1.obuf | exact h1.rxq | exact h1.txq | exact h1.arpcCache | exact h1.inputs
        | exact h1.issuer | exact h1.hostHeld | exact h1.workerHeld | exact h1.resp | exact h1.arpcResp
        | exact h1.scan | exact h1.inTrk | exact h1.nextTrk) (ParseKept.phase _ _)
  | tcp =>
    obtain ⟨u, hu, ⟨-, rfl⟩ | ⟨-, w, hw, rfl⟩⟩ := parseTcp_next h
    · exact ParseKept.of (execSegDecode_kept hu) (by constructor <;> rfl) (ParseKept.drop _)
    · exact ParseKept.of ((execSegDecode_kept hu).trans (execCsumVerifyTcp_kept hw)) (by constructor <;> rfl)
        (ParseKept.phase _ _)

/-- A parse step ends in the handler's phase, or drops and counts the frame (R205, R207). -/
theorem parseLayer_phase {l : Layer} {s t : State} (h : parseLayer l s = .next t) :
    (t.seqr.phase = .handle l ∧ t.sq.drops = s.sq.drops) ∨
    (t.seqr.phase = .idle ∧ t.sq.drops = s.sq.drops + 1 ∧ t.status.err ≠ .none) := by
  have drop : ∀ {u : State}, u.sq = s.sq → u.status.err ≠ .none →
      u.dropFrame.seqr.phase = .idle ∧ u.dropFrame.sq.drops = s.sq.drops + 1 ∧ u.dropFrame.status.err ≠ .none := by
    intro u hs he; exact ⟨rfl, by simp [hs], he⟩
  cases l with
  | eth =>
    obtain ⟨u, hu, ⟨he, rfl⟩ | ⟨-, rfl⟩⟩ := parseEth_next h
    · exact .inr (drop (execEthParse_kept hu).sq he)
    · exact .inl ⟨rfl, congrArg SqRegs.drops (execEthParse_kept hu).sq⟩
  | arp =>
    obtain ⟨u, hu, ⟨he, rfl⟩ | ⟨-, rfl⟩⟩ := parseArp_next h
    · exact .inr (drop (execArpParse_kept hu).sq he)
    · exact .inl ⟨rfl, congrArg SqRegs.drops (execArpParse_kept hu).sq⟩
  | ip =>
    obtain ⟨u, hu, ⟨he, rfl⟩ | ⟨-, w, hw, rfl⟩⟩ := parseIp_next h
    · exact .inr (drop (execIp4Parse_kept hu).sq he)
    · exact .inl ⟨rfl, congrArg SqRegs.drops ((execIp4Parse_kept hu).trans (execCsumVerifyIp4_kept hw)).sq⟩
  | icmp =>
    obtain ⟨u, hu, ⟨he, rfl⟩ | ⟨-, w, hw, rfl⟩⟩ := parseIcmp_next h
    · exact .inr (drop (execIcmp4Parse_kept hu).sq he)
    · exact .inl ⟨rfl, congrArg SqRegs.drops ((execIcmp4Parse_kept hu).trans (execCsumVerifyIcmp_kept hw)).sq⟩
  | udp =>
    obtain ⟨u, hu, ⟨he, rfl⟩ | ⟨-, w, hw, rfl⟩⟩ := parseUdp_next h
    · exact .inr (drop (execUdpParse_kept hu).sq he)
    · exact .inl ⟨rfl, congrArg SqRegs.drops ((execCsumVerifyUdp_kept hw).sq.trans (execUdpParse_kept hu).sq)⟩
  | tcp =>
    obtain ⟨u, hu, ⟨he, rfl⟩ | ⟨-, w, hw, rfl⟩⟩ := parseTcp_next h
    · exact .inr (drop (execSegDecode_kept hu).sq he)
    · exact .inl ⟨rfl, congrArg SqRegs.drops ((execSegDecode_kept hu).trans (execCsumVerifyTcp_kept hw)).sq⟩

/-- What SEQ's step can do: nothing, take a frame, or a parse step. -/
theorem seqStep_next {s t : State} (h : seqStep s = .next t) :
    t = s ∨
    (s.sq.running = true ∧ s.status.fatal = false ∧ s.seqr.phase = .idle ∧
      ∃ F rest, s.rxq = F :: rest ∧ t = dequeueFrame F rest s) ∨
    (s.sq.running = true ∧ s.status.fatal = false ∧ ∃ l, s.seqr.phase = .parse l ∧ parseLayer l s = .next t) := by
  unfold seqStep at h
  split at h
  · rename_i he
    simp only [State.seqEnabled, Bool.and_eq_true, Bool.not_eq_true'] at he
    split at h
    · split at h
      · cases h; exact .inl rfl
      · cases h; exact .inr (.inl ⟨he.1, he.2, ‹_›, _, _, ‹_›, rfl⟩)
    · exact .inr (.inr ⟨he.1, he.2, _, ‹_›, h⟩)
    · cases h; exact .inl rfl
  · cases h; exact .inl rfl

end Sys2Proof.Machine
end

