-- ==== Sys2Proof/Laws/Step.lean ====
section
/-! SUPPORT. What one step can do, said once: `Moved` lists every way a step reaches a next state, and `step_moved` says there is no other. -/

namespace Sys2Proof.Machine

/-- The ways a step reaches a next state. -/
inductive Moved (s t : State) : Prop where
  | scanEnd (c : List TcpOption) (hs : s.scan = .scanning [] c)
      (ht : t = (State.commitChain { s with scan := .idle } c).setErr .none)
  | scanRecord (A : Bytes) (c : List TcpOption) (i : Instr) (hs : s.scan = .scanning A c) (hA : A ≠ [])
      (hd : decodeOption A = .ok i) (he : exec i s = .next t)
  | scanFail (A : Bytes) (c : List TcpOption) (hs : s.scan = .scanning A c) (ht : t = { s with scan := .failed })
  | scanRaise (hs : s.scan = .failed) (ht : t = State.setErr { s with scan := .idle } .malformedOptions)
  | txn (who : Agent) (bytes : Bytes) (rest : List Event) (i : Instr) (hs : s.scan = .idle)
      (hi : s.inputs = .txn who bytes :: rest) (hm : s.mayIssue who = true) (hd : decodeTxn bytes = .ok i)
      (he : exec i { s with inputs := rest, issuer := who.thread } = .next t)
  | selector (rest : List Event) (l : Layer) (i : Instr) (hs : s.scan = .idle) (hi : s.inputs = .verdict .cont :: rest)
      (hl : s.handling = some l) (hw : s.workerHeld = false)
      (hd : (l = .eth ∧ decodeEtype s.seqr.sel = .ok i) ∨ (l = .ip ∧ decodeIpproto s.seqr.sel = .ok i))
      (he : exec i { s with inputs := rest } = .next t)
  | handlerEnd (rest : List Event) (v : Verdict) (l : Layer) (hs : s.scan = .idle) (hi : s.inputs = .verdict v :: rest)
      (hl : s.handling = some l) (hw : s.workerHeld = false) (ht : t = State.setPhase { s with inputs := rest } .idle)
  | seqEvent (rest : List Event) (hs : s.scan = .idle) (hi : s.inputs = .seq :: rest)
      (he : seqStep { s with inputs := rest } = .next t)
  | seqOwn (hs : s.scan = .idle) (hi : s.inputs = []) (he : seqStep s = .next t)
  | resume (th : Thread) (rest : List Event) (hs : s.scan = .idle)
      (hi : s.inputs = .resume th :: rest ∨ (s.inputs = [] ∧ rest = [])) (hh : s.held th = true) (hr : s.txRoom = true)
      (he : exec .txEnqueue (State.release { s with inputs := rest } th) = .next t)
  | rxArrive (F : Frame) (rest : List Event) (hs : s.scan = .idle) (hi : s.inputs = .rxArrive F :: rest)
      (ht : t = State.rxArrive { s with inputs := rest } F)
  | txTake (rest : List Event) (hs : s.scan = .idle) (hi : s.inputs = .txTake :: rest)
      (ht : t = { s with inputs := rest, txq := s.txq.drop 1 })
  | rxTakeOther (rest : List Event) (hs : s.scan = .idle) (hi : s.inputs = .rxTakeOther :: rest)
      (ht : t = { s with inputs := rest, rxq := s.rxq.drop 1 })
  | txPutOther (F : Frame) (rest : List Event) (hs : s.scan = .idle) (hi : s.inputs = .txPutOther F :: rest)
      (ht : t = State.txPutOther { s with inputs := rest } F)
  | resolve (addr : U32) (answer : Option U48) (rest : List Event) (hs : s.scan = .idle)
      (hi : s.inputs = .resolve addr answer :: rest) (ht : t = { s with inputs := rest, arpcResp := some (addr, answer) })
  | arpcStore (cache : List (U32 × U48)) (rest : List Event) (hs : s.scan = .idle)
      (hi : s.inputs = .arpcStore cache :: rest) (ht : t = { s with inputs := rest, arpcCache := cache })
  | reset (rest : List Event) (hs : s.scan = .idle) (hi : s.inputs = .reset :: rest)
      (ht : t = State.resetFrom { s with inputs := rest })
  | pass (e : Event) (rest : List Event) (hs : s.scan = .idle) (hi : s.inputs = e :: rest) (ht : t = { s with inputs := rest })

/-- TXQ has room exactly when it holds fewer frames than its capacity, if it has one (44_pipeline.md R202). -/
theorem State.txRoom_iff (s : State) : s.txRoom = true ↔ ∀ cap ∈ s.cfg.txqCap, s.txq.length < cap := by
  unfold State.txRoom Config.room
  split
  · rename_i h; simp [h]
  · rename_i h; simp [h]

/-- A producer's frame is appended where RXQ has room, and otherwise nothing changes. -/
theorem State.rxArrive_cases (s : State) (f : Frame) :
    (Config.room s.cfg.rxqCap s.rxq.length = true ∧ s.rxArrive f = { s with rxq := s.rxq ++ [f] }) ∨ s.rxArrive f = s := by
  unfold State.rxArrive
  split
  · exact .inl ⟨‹_›, rfl⟩
  · exact .inr rfl

/-- Another instance's frame is appended where TXQ has room, and otherwise nothing changes. -/
theorem State.txPutOther_cases (s : State) (f : Frame) :
    (s.txRoom = true ∧ s.txPutOther f = { s with txq := s.txq ++ [f] }) ∨ s.txPutOther f = s := by
  unfold State.txPutOther
  split
  · exact .inl ⟨‹_›, rfl⟩
  · exact .inr rfl

theorem State.handling_some {s : State} {l : Layer} (h : s.handling = some l) :
    s.sq.running = true ∧ s.seqr.phase = .handle l := by
  unfold State.handling at h
  split at h
  · rename_i hr
    split at h <;> cases h
    exact ⟨hr, ‹_›⟩
  · cases h

theorem State.handling_of {s : State} {l : Layer} (hr : s.sq.running = true) (hp : s.seqr.phase = .handle l) :
    s.handling = some l := by simp [State.handling, hr, hp]

/-! ### The step for one next event -/

/-- The next event is what is fetched. -/
theorem fetch_event {s : State} {e : Event} {rest : List Event} (hs : s.scan = .idle) (hi : s.inputs = e :: rest) :
    fetch s = fetchEvent e { s with inputs := rest } := by
  unfold fetch
  split
  · rename_i h; rw [hs] at h; cases h
  · rename_i h; rw [hs] at h; cases h
  · rename_i h; rw [hs] at h; cases h
  · split
    · rename_i h; rw [hi] at h; cases h
    · rename_i h; rw [hi] at h; cases h; rfl

/-- What a step does with the next event. -/
theorem step_event {s : State} {e : Event} {rest : List Event} (hs : s.scan = .idle) (hi : s.inputs = e :: rest) :
    step s = match fetchEvent e { s with inputs := rest } with
      | .run i t => exec i t
      | .move o => o :=
  congrArg (fun f : Fetched => match f with | .run i t => exec i t | .move o => o) (fetch_event hs hi)

/-- SEQ's event is SEQ's step. -/
theorem step_seq {s : State} {rest : List Event} (hs : s.scan = .idle) (hi : s.inputs = .seq :: rest) :
    step s = seqStep { s with inputs := rest } := step_event hs hi

/-- A verdict of the running handler ends it. -/
theorem step_verdict {s : State} {v : Verdict} {l : Layer} {rest : List Event} (hs : s.scan = .idle)
    (hi : s.inputs = .verdict v :: rest) (hl : s.handling = some l) (hw : s.workerHeld = false) :
    step s = match endHandler v l { s with inputs := rest } with
      | .run i t => exec i t
      | .move o => o := by
  have hf : fetchEvent (.verdict v) { s with inputs := rest } = endHandler v l { s with inputs := rest } := by
    have e : State.handling { s with inputs := rest } = some l := hl
    unfold fetchEvent
    simp only
    rw [e]
    simp only
    rw [if_neg (by simp [hw])]
  rw [step_event hs hi, hf]

/-- A step that reaches t, then n more. -/
theorem core_run_next {s t : State} (n : Nat) (h : step s = .next t) :
    Sys2Proof.core.run (n + 1) s = Sys2Proof.core.run n t := by
  have e : Sys2Proof.core.step s = .next t := h
  simp only [Host.Core.run]
  rw [e]

/-- With a record at the head of a scan's area a step is one turn of the scan (42_option_chain.md R160). -/
theorem step_scanning {s : State} {b : Byte} {r : Bytes} {c : List TcpOption} (h : s.scan = .scanning (b :: r) c) :
    step s = .next { s with scan := (Scan.scanning (b :: r) c).turn } := by
  unfold step fetch
  rw [h]
  simp only [Scan.turn]
  cases hd : decodeOption (b :: r) with
  | error e => rfl
  | ok i =>
    have hf := decodeOption_format hd
    have e : Scan.apply i (.scanning (b :: r) c) = Scan.apply i s.scan := by rw [h]
    simp only [e]
    cases i <;> first | (cases hf; done) | rfl

/-- A held TX_ENQUEUE's thread, among the moves with no input. -/
theorem ownMove_moved {s t : State} (hs : s.scan = .idle) (hi : s.inputs = [])
    (h : (match ownMove s with | .run i u => exec i u | .move o => o) = .next t) : Moved s t := by
  have e : s = { s with inputs := [] } := by rw [← hi]
  by_cases hc : s.mayResume .worker = true
  · rw [ownMove, if_pos hc] at h
    exact .resume .worker [] hs (.inr ⟨hi, rfl⟩) (Bool.and_eq_true_iff.mp hc).1 (Bool.and_eq_true_iff.mp hc).2 (e ▸ h)
  · by_cases hd : s.mayResume .host = true
    · rw [ownMove, if_neg hc, if_pos hd] at h
      exact .resume .host [] hs (.inr ⟨hi, rfl⟩) (Bool.and_eq_true_iff.mp hd).1 (Bool.and_eq_true_iff.mp hd).2 (e ▸ h)
    · rw [ownMove, if_neg hc, if_neg hd] at h
      exact .seqOwn hs hi h

theorem endHandler_moved {s t : State} {v : Verdict} {l : Layer} {rest : List Event} (hs : s.scan = .idle)
    (hi : s.inputs = .verdict v :: rest) (hl : s.handling = some l) (hw : s.workerHeld = false)
    (h : (match endHandler v l { s with inputs := rest } with | .run i u => exec i u | .move o => o) = .next t) :
    Moved s t := by
  have last : ∀ {o : Out}, o = .next (State.setPhase { s with inputs := rest } .idle) → o = .next t → Moved s t := by
    rintro o rfl ht; cases ht; exact .handlerEnd rest v l hs hi hl hw rfl
  cases v with
  | drop => exact last rfl (by simpa [endHandler] using h)
  | cont =>
    cases l with
    | eth =>
      simp only [endHandler] at h
      cases hd : decodeEtype s.seqr.sel with
      | ok i => rw [hd] at h; exact .selector rest _ i hs hi hl hw (.inl ⟨rfl, hd⟩) h
      | error r => rw [hd] at h; exact last rfl h
    | ip =>
      simp only [endHandler] at h
      cases hd : decodeIpproto s.seqr.sel with
      | ok i => rw [hd] at h; exact .selector rest _ i hs hi hl hw (.inr ⟨rfl, hd⟩) h
      | error r => rw [hd] at h; exact last rfl h
    | arp => exact last rfl h
    | icmp => exact last rfl h
    | udp => exact last rfl h
    | tcp => exact last rfl h

/-- Every step that reaches a next state is one of `Moved`. -/
theorem step_moved {s t : State} (h : step s = .next t) : Moved s t := by
  unfold step fetch at h
  split at h
  · rename_i i u hf
    split at hf
    · cases hf
    · rename_i hs
      split at hf <;> cases hf
      exact .scanRecord _ _ _ hs (by simp) ‹_› h
    · cases hf
    · rename_i hs
      split at hf
      · rename_i hi; exact ownMove_moved hs hi (by rw [hf]; exact h)
      · rename_i e rest hi
        cases e with
        | txn who bytes =>
          simp only [fetchEvent] at hf
          split at hf
          · rename_i hm
            split at hf <;> cases hf
            exact .txn who bytes rest _ hs hi hm ‹_› h
          · cases hf
        | verdict v =>
          simp only [fetchEvent] at hf
          split at hf
          · rename_i l hl
            split at hf
            · cases hf
            · rename_i hw
              exact endHandler_moved hs hi hl (by simpa using hw) (by rw [hf]; exact h)
          · cases hf
        | resume th =>
          simp only [fetchEvent] at hf
          split at hf
          · rename_i hh
            cases hf
            have hb := Bool.and_eq_true_iff.mp hh
            exact .resume th rest hs (.inl hi) (by cases th <;> exact hb.1) hb.2 h
          · cases hf
        | _ => cases hf
  · rename_i o hf
    split at hf
    · rename_i c hs; cases hf; cases h; exact .scanEnd c hs rfl
    · rename_i hs
      split at hf <;> cases hf
      cases h; exact .scanFail _ _ hs rfl
    · rename_i hs; cases hf; cases h; exact .scanRaise hs rfl
    · rename_i hs
      split at hf
      · rename_i hi; exact ownMove_moved hs hi (by rw [hf]; exact h)
      · rename_i e rest hi
        cases e with
        | txn who bytes =>
          simp only [fetchEvent] at hf
          split at hf
          · split at hf <;> cases hf
            cases h
          · cases hf; cases h; exact .pass _ rest hs hi rfl
        | verdict v =>
          simp only [fetchEvent] at hf
          split at hf
          · rename_i l hl
            split at hf
            · cases hf; cases h; exact .pass _ rest hs hi rfl
            · rename_i hw
              exact endHandler_moved hs hi hl (by simpa using hw) (by rw [hf]; exact h)
          · cases hf; cases h; exact .pass _ rest hs hi rfl
        | seq => cases hf; exact .seqEvent rest hs hi h
        | resume th =>
          simp only [fetchEvent] at hf
          split at hf
          · cases hf
          · cases hf; cases h; exact .pass _ rest hs hi rfl
        | rxArrive F => cases hf; cases h; exact .rxArrive F rest hs hi rfl
        | txTake => cases hf; cases h; exact .txTake rest hs hi rfl
        | rxTakeOther => cases hf; cases h; exact .rxTakeOther rest hs hi rfl
        | txPutOther F => cases hf; cases h; exact .txPutOther F rest hs hi rfl
        | resolve addr answer => cases hf; cases h; exact .resolve addr answer rest hs hi rfl
        | arpcStore cache => cases hf; cases h; exact .arpcStore cache rest hs hi rfl
        | reset => cases hf; cases h; exact .reset rest hs hi rfl

end Sys2Proof.Machine
end

