-- ==== Sys2Proof/Laws/Invariant.lean ====
section
/-! SUPPORT. The invariant and each update of the state: raising a code, committing a chain or a segment, writing OBUF, a host's write to a register or a buffer, the sequencer's window and phase. -/

namespace Sys2Proof.Machine

theorem State.Inv.setErr {s : State} (h : s.Inv) (e : Err) : (s.setErr e).Inv :=
  ⟨h.cfg, h.buffers, h.ranges, h.slots, h.queues, h.sequencer, h.windows, h.scan⟩

theorem State.Inv.status {s : State} (h : s.Inv) (q : Status) : State.Inv { s with status := q } :=
  ⟨h.cfg, h.buffers, h.ranges, h.slots, h.queues, h.sequencer, h.windows, h.scan⟩

theorem State.Inv.inputs {s : State} (h : s.Inv) (r : List Event) : State.Inv { s with inputs := r } :=
  ⟨h.cfg, h.buffers, h.ranges, h.slots, h.queues, h.sequencer, h.windows, h.scan⟩

theorem State.Inv.resp {s : State} (h : s.Inv) (r : Option Value) : State.Inv { s with resp := r } :=
  ⟨h.cfg, h.buffers, h.ranges, h.slots, h.queues, h.sequencer, h.windows, h.scan⟩

theorem State.Inv.raised {codes : List Err} {s t : State} (h : s.Inv) (hr : Raised codes s t) : t.Inv := by
  rcases hr with ⟨-, rfl⟩ | ⟨-, e, -, rfl⟩ <;> exact h.setErr _

theorem State.Inv.raisedEiv {s t : State} (h : s.Inv) (hr : RaisedEiv s t) : t.Inv := by
  rcases hr with ⟨-, rfl⟩; exact h.status _

/-! ### Slots and buffers -/

theorem putChain_length {opts c : List TcpOption} (h : opts.length = Config.maxOpts) (hc : c.length ≤ 40) :
    (putChain opts c).length = Config.maxOpts := by
  simp only [putChain, List.length_append, List.length_drop, h, Config.maxOpts]; omega

theorem putChain_ok {opts c : List TcpOption} (h : ∀ o ∈ opts, slotOk o = true) (hc : ∀ o ∈ c, slotOk o = true) :
    ∀ o ∈ putChain opts c, slotOk o = true := by
  intro o ho
  rcases List.mem_append.mp ho with h1 | h1
  · exact hc o h1
  · exact h o (List.mem_of_mem_drop h1)

/-- A slot inside the chain: the written record. -/
theorem putChain_inside {opts ch : List TcpOption} {k : Nat} (h : k < ch.length) : (putChain opts ch)[k]? = ch[k]? := by
  rw [putChain, List.getElem?_append_left h]

/-- A slot behind the chain keeps its contents. -/
theorem putChain_outside {opts ch : List TcpOption} {k : Nat} (h : ch.length ≤ k) : (putChain opts ch)[k]? = opts[k]? := by
  rw [putChain, List.getElem?_append_right h, List.getElem?_drop, Nat.add_sub_cancel' h]

theorem State.Inv.commitChain {s : State} (h : s.Inv) {c : List TcpOption} (hc : c.length ≤ 40)
    (ho : ∀ o ∈ c, slotOk o = true) : (s.commitChain c).Inv := by
  obtain ⟨r1, r2, r3, r4, r5, r6⟩ := h.ranges
  refine ⟨h.cfg, h.buffers, ⟨r1, r2, ?_, r4, r5, r6⟩,
    ⟨putChain_length h.slots.1 hc, putChain_ok h.slots.2.1 ho, h.slots.2.2⟩, h.queues, h.sequencer, h.windows, h.scan⟩
  simp only [State.commitChain, BitVec.toNat_ofNat, Config.maxOpts]; omega

theorem State.Inv.commitSegment {s : State} (h : s.Inv) {W : Bytes} {hl : Nat} {c : List TcpOption}
    (hW : W.length ≤ s.cfg.ibufBytes) (hc : c.length ≤ 40) (ho : ∀ o ∈ c, slotOk o = true) :
    (s.commitSegment W hl c).Inv := by
  obtain ⟨r1, r2, r3, r4, r5, r6⟩ := h.ranges
  refine ⟨h.cfg, ⟨h.buffers.1, Memory.writeRange_ok _ ?_ h.buffers.2.1, h.buffers.2.2⟩, ⟨r1, r2, ?_, ?_, r5, r6⟩,
    ⟨putChain_length h.slots.1 hc, putChain_ok h.slots.2.1 ho, h.slots.2.2⟩, h.queues, h.sequencer, h.windows, h.scan⟩
  · simp [Config.pbufBytes]; omega
  · simp only [State.commitSegment, decodedSeg, BitVec.toNat_ofNat, Config.maxOpts]; omega
  · simp only [State.commitSegment, decodedSeg, BitVec.toNat_ofNat, Config.pbufBytes]
    exact Nat.le_trans (Nat.mod_le _ _) (by omega)

theorem State.Inv.putOut {s : State} (h : s.Inv) {E : Bytes} (hE : s.out.ooff.toNat + E.length ≤ s.cfg.obufBytes) :
    (s.putOut E).Inv :=
  ⟨h.cfg, ⟨h.buffers.1, h.buffers.2.1, Memory.writeRange_ok _ hE h.buffers.2.2⟩, h.ranges, h.slots, h.queues,
    h.sequencer, h.windows, h.scan⟩

theorem State.Inv.setSeg {s : State} (h : s.Inv) (g : Seg) (h1 : g.optcnt = s.seg.optcnt) (h2 : g.plen = s.seg.plen) :
    State.Inv { s with seg := g } := by
  obtain ⟨r1, r2, r3, r4, r5, r6⟩ := h.ranges
  exact ⟨h.cfg, h.buffers, ⟨r1, r2, h1 ▸ r3, h2 ▸ r4, r5, r6⟩, h.slots, h.queues, h.sequencer, h.windows, h.scan⟩

theorem State.Inv.setBuf {s : State} (h : s.Inv) {b : BufId} {m : Memory} (hm : m.Ok (b.size s.cfg)) : (s.setBuf b m).Inv := by
  obtain ⟨b1, b2, b3⟩ := h.buffers
  cases b
  · exact ⟨h.cfg, ⟨hm, b2, b3⟩, h.ranges, h.slots, h.queues, h.sequencer, h.windows, h.scan⟩
  · exact ⟨h.cfg, ⟨b1, hm, b3⟩, h.ranges, h.slots, h.queues, h.sequencer, h.windows, h.scan⟩
  · exact ⟨h.cfg, ⟨b1, b2, hm⟩, h.ranges, h.slots, h.queues, h.sequencer, h.windows, h.scan⟩

theorem State.Inv.buf {s : State} (h : s.Inv) (b : BufId) : (s.buf b).Ok (b.size s.cfg) := by
  cases b
  · exact h.buffers.1
  · exact h.buffers.2.1
  · exact h.buffers.2.2

/-- The header is 20 bytes whatever the fields. -/
@[simp] theorem headerBytes_length (g : Seg) (h : Nat) (c : U16) : (headerBytes g h c).length = 20 := rfl

/-- An encoded legal record is at most 40 bytes long (30_encoding.md R91, 10_state.md R33). -/
theorem encOpt_length {o : TcpOption} {B : Bytes} (h : encOpt o = some B) (ho : slotOk o = true) : B.length ≤ 40 := by
  cases o <;> simp only [encOpt] at h
  case unknown t d =>
    split at h; · cases h
    have : d.length ≤ 38 := of_decide_eq_true ho
    cases h; simp; omega
  all_goals (cases h; simp)

/-! ### The host's register writes -/

theorem State.Inv.store {s : State} {r : Reg} {v : BitVec 64} (h : s.Inv) (hm : ∀ m, r.limit s.cfg = some m → v.toNat ≤ m) :
    (r.store v s).Inv := by
  obtain ⟨r1, r2, r3, r4, r5, r6⟩ := h.ranges
  have cut : ∀ w m, v.toNat ≤ m → (v.setWidth w).toNat ≤ m := by
    intro w m hv; rw [BitVec.toNat_setWidth]; exact Nat.le_trans (Nat.mod_le _ _) hv
  have ranges : (r.store v s).RangesOk := by
    cases r <;> first
      | exact ⟨r1, r2, r3, r4, r5, r6⟩
      | exact ⟨cut _ _ (hm _ rfl), r2, r3, r4, r5, r6⟩
      | exact ⟨r1, cut _ _ (hm _ rfl), r3, r4, r5, r6⟩
      | exact ⟨r1, r2, cut _ _ (hm _ rfl), r4, r5, r6⟩
      | exact ⟨r1, r2, r3, cut _ _ (hm _ rfl), r5, r6⟩
      | exact ⟨r1, r2, r3, r4, cut _ _ (hm _ rfl), r6⟩
      | exact ⟨r1, r2, r3, r4, r5, cut _ _ (hm _ rfl)⟩
  cases r <;> exact ⟨h.cfg, h.buffers, ranges, h.slots, h.queues, h.sequencer, h.windows, h.scan⟩

theorem State.Inv.write {s : State} {r : Reg} {v : Value} (h : s.Inv) : (r.write v s).Inv := by
  unfold Reg.write
  split
  · split
    · split
      · rename_i hs
        refine ⟨h.cfg, h.buffers, h.ranges, ⟨by simpa using h.slots.1, ?_, h.slots.2.2⟩, h.queues, h.sequencer, h.windows, h.scan⟩
        intro o ho
        rcases List.mem_or_eq_of_mem_set ho with h1 | rfl
        · exact h.slots.2.1 o h1
        · exact hs
      · exact h
    · exact h
    · split
      · rename_i hl
        split
        · exact h.store (by intro m hm; rw [hl] at hm; cases hm; assumption)
        · exact h
      · rename_i hl
        exact h.store (by intro m hm; rw [hl] at hm; cases hm)
    · exact h
  · exact h

/-! ### The sequencer's own updates -/

/-- A handler runs only in a HANDLE phase, so in any other the worker holds nothing. -/
theorem State.Inv.notHeld {s : State} (h : s.Inv) (hh : s.handling = none) : s.workerHeld = false := by
  cases hw : s.workerHeld with
  | false => rfl
  | true => have := h.sequencer.2.2 hw; rw [hh] at this; cases this

theorem State.Inv.dropFrame {s : State} (h : s.Inv) (hw : s.workerHeld = false) : s.dropFrame.Inv :=
  ⟨h.cfg, h.buffers, h.ranges, h.slots, h.queues,
    ⟨h.sequencer.1, fun _ => rfl, fun hh => absurd (hw.symm.trans hh) (by simp)⟩, h.windows, h.scan⟩

theorem State.Inv.setWindow {s : State} {o l : U32} (h : s.Inv) (ho : o.toNat + l.toNat ≤ s.cfg.ibufBytes) :
    (s.setWindow o l).Inv := by
  obtain ⟨r1, r2, r3, r4, r5, r6⟩ := h.ranges
  exact ⟨h.cfg, h.buffers, ⟨by simp only [State.setWindow]; omega, by simp only [State.setWindow]; omega, r3, r4, r5, r6⟩,
    h.slots, h.queues, h.sequencer, h.windows, h.scan⟩

theorem State.Inv.setSeqr {s : State} (h : s.Inv) (hr : s.sq.running = true) (hw : s.workerHeld = false) (q : SeqState)
    (hn : q.noff.toNat + q.nlen.toNat ≤ s.cfg.ibufBytes) (hf : q.flen = s.seqr.flen) : State.Inv { s with seqr := q } :=
  ⟨h.cfg, h.buffers, h.ranges, h.slots, h.queues,
    ⟨h.sequencer.1, fun hh => absurd (hr.symm.trans hh) (by simp), fun hh => absurd (hw.symm.trans hh) (by simp)⟩,
    ⟨h.windows.1, hn, hf ▸ h.windows.2.2⟩, h.scan⟩

theorem State.Inv.setPhase {s : State} {p : Phase} (h : s.Inv) (hr : s.sq.running = true) (hw : s.workerHeld = false) :
    (s.setPhase p).Inv := h.setSeqr hr hw _ h.windows.2.1 rfl

/-- The decoder of transactions answers transactions. -/
theorem decodeTxn_format {b : Bytes} {i : Instr} (h : decodeTxn b = .ok i) : i.format = .hostTxn := by
  unfold decodeTxn at h
  split at h; · cases h
  split at h
  · split at h <;> cases h; rfl
  · split at h
    · rename_i v
      cases hv : decodeValue v with
      | ok x => rw [hv] at h; cases h; rfl
      | error e => rw [hv] at h; cases h
    · cases h
  · split at h <;> cases h; rfl
  · split at h <;> cases h; rfl
  · cases h

end Sys2Proof.Machine
end

