-- ==== Sys2Proof/Laws/Header.lean ====
section
/-! SUPPORT. The 20 fixed header bytes: reading the fields back, the header from its fields, and what writing the checksum field does (30_encoding.md R87, R88; 40_segment_codec.md R123; 41_checksum.md R141, R144). -/

namespace Sys2Proof.Machine

/-! ### Fields of bytes 12 and 13 -/

theorem headerLength_toNat (b : Byte) : headerLength b = b.toNat / 16 * 4 := by
  have : b.toNat < 256 := b.isLt
  simp only [headerLength, BitVec.extractLsb'_toNat, Nat.shiftRight_eq_div_pow]
  omega

theorem flagsOf_toNat (a b : Byte) : (flagsOf a b).toNat = a.toNat % 2 * 256 + b.toNat := by
  unfold flagsOf
  rw [BitVec.toNat_append, ← Nat.shiftLeft_add_eq_or_of_lt b.isLt, Nat.shiftLeft_eq]
  simp [BitVec.extractLsb'_toNat]

theorem byte12_toNat {h : Nat} (f : BitVec 9) (hh : h ≤ 60) : (byte12 h f).toNat = h / 4 * 16 + f.toNat / 256 := by
  have := f.isLt
  unfold byte12
  rw [BitVec.toNat_append, BitVec.toNat_append]
  simp [BitVec.extractLsb'_toNat, Nat.shiftRight_eq_div_pow]
  rw [← Nat.shiftLeft_add_eq_or_of_lt (by omega), Nat.shiftLeft_eq]; omega

theorem byte13_toNat (f : BitVec 9) : (byte13 f).toNat = f.toNat % 256 := by
  simp [byte13, BitVec.extractLsb'_toNat]

/-- The nibble comes back. -/
theorem headerLength_byte12 {h : Nat} (f : BitVec 9) (hh : h ≤ 60) (h4 : h % 4 = 0) : headerLength (byte12 h f) = h := by
  have := f.isLt
  rw [headerLength_toNat, byte12_toNat f hh]; omega

/-- The flags come back. -/
theorem flagsOf_bytes {h : Nat} (f : BitVec 9) (hh : h ≤ 60) : flagsOf (byte12 h f) (byte13 f) = f := by
  have := f.isLt
  apply BitVec.eq_of_toNat_eq
  rw [flagsOf_toNat, byte12_toNat f hh, byte13_toNat]; omega

/-! ### The header as bytes -/

theorem toBe32_be32 (a b c d : Byte) : toBe32 (be32 a b c d) = [a, b, c, d] := by
  have hi : (be32 a b c d).extractLsb' 16 16 = a ++ b := extract_append_high (a ++ b) (c ++ d)
  have lo : (be32 a b c d).extractLsb' 0 16 = c ++ d := extract_append_low (a ++ b) (c ++ d)
  have pick : ∀ (v : U32) (k j : Nat), k + 8 ≤ 16 → v.extractLsb' (j + k) 8 = (v.extractLsb' j 16).extractLsb' k 8 := by
    intro v k j hk
    apply BitVec.eq_of_getLsbD_eq
    intro i hi
    simp only [BitVec.getLsbD_extractLsb', hi, show k + i < 16 by omega, decide_true, Bool.true_and, Nat.add_assoc]
  unfold toBe32
  rw [show (24 : Nat) = 16 + 8 from rfl, pick _ 8 16 (by omega), show (BitVec.extractLsb' 16 8 (be32 a b c d)) = _ from pick _ 0 16 (by omega),
    show (BitVec.extractLsb' 8 8 (be32 a b c d)) = _ from pick _ 8 0 (by omega),
    show (BitVec.extractLsb' 0 8 (be32 a b c d)) = _ from pick _ 0 0 (by omega), hi, lo,
    extract_append_high a b, extract_append_low a b, extract_append_high c d, extract_append_low c d]

/-- The first bytes of a sequence, one by one. -/
theorem take_eq_map_byteAt {E : Bytes} {n : Nat} (h : n ≤ E.length) : E.take n = (List.range n).map (byteAt E) := by
  apply List.ext_getElem
  · simp [h]
  · intro i h1 h2
    have hi : i < n := by simpa [h] using h1
    have hl : i < E.length := Nat.lt_of_lt_of_le hi h
    simp [byteAt, hl]

/-- A header whose fields are g's is g's header. -/
theorem headerBytes_of_fields {E : Bytes} {g : Seg} {h : Nat} {c : U16} (hh : h ≤ 60) (h20 : 20 ≤ E.length)
    (h0 : be16At E 0 = g.sport) (h2 : be16At E 2 = g.dport) (h4 : be32At E 4 = g.seqno) (h8 : be32At E 8 = g.ackno)
    (h12 : (byteAt E 12).toNat = h / 4 * 16 + g.flags.toNat / 256) (h13 : (byteAt E 13).toNat = g.flags.toNat % 256)
    (h14 : be16At E 14 = g.win) (h16 : be16At E 16 = c) (h18 : be16At E 18 = g.urp) :
    E = headerBytes g h c ++ E.drop 20 := by
  have q12 : byte12 h g.flags = byteAt E 12 := BitVec.eq_of_toNat_eq (by rw [byte12_toNat _ hh, h12])
  have q13 : byte13 g.flags = byteAt E 13 := BitVec.eq_of_toNat_eq (by rw [byte13_toNat, h13])
  have ht : E.take 20 = headerBytes g h c := by
    rw [take_eq_map_byteAt h20]
    simp only [headerBytes, ← h0, ← h2, ← h4, ← h8, ← h14, ← h16, ← h18, q12, q13, be16At, be32At, toBe16_be16, toBe32_be32]
    rfl
  rw [← ht, List.take_append_drop]

/-! ### Reading the fields back -/

section Fields
variable (g : Seg) (h : Nat) (c : U16) (R : Bytes)

theorem headerBytes_sport : be16At (headerBytes g h c ++ R) 0 = g.sport := by simp [headerBytes, be16At, byteAt, toBe16]
theorem headerBytes_dport : be16At (headerBytes g h c ++ R) 2 = g.dport := by simp [headerBytes, be16At, byteAt, toBe16]
theorem headerBytes_seqno : be32At (headerBytes g h c ++ R) 4 = g.seqno := by
  simp [headerBytes, be32At, byteAt, toBe16, toBe32]
theorem headerBytes_ackno : be32At (headerBytes g h c ++ R) 8 = g.ackno := by
  simp [headerBytes, be32At, byteAt, toBe16, toBe32]
theorem headerBytes_byte12 : byteAt (headerBytes g h c ++ R) 12 = byte12 h g.flags := by
  simp [headerBytes, byteAt, toBe16, toBe32]
theorem headerBytes_byte13 : byteAt (headerBytes g h c ++ R) 13 = byte13 g.flags := by
  simp [headerBytes, byteAt, toBe16, toBe32]
theorem headerBytes_win : be16At (headerBytes g h c ++ R) 14 = g.win := by
  simp [headerBytes, be16At, byteAt, toBe16, toBe32]
theorem headerBytes_csum : be16At (headerBytes g h c ++ R) 16 = c := by
  simp [headerBytes, be16At, byteAt, toBe16, toBe32]
theorem headerBytes_urp : be16At (headerBytes g h c ++ R) 18 = g.urp := by
  simp [headerBytes, be16At, byteAt, toBe16, toBe32]

/-- Writing the checksum field (R144). -/
theorem putBe16_headerBytes (d : U16) : putBe16 (headerBytes g h c ++ R) 16 d = headerBytes g h d ++ R := by
  simp [putBe16, headerBytes, toBe16, toBe32]

/-- The checksummed sequence does not depend on the checksum field (R141, R143). -/
theorem tcpSumInput_headerBytes (p : PseudoHdr) (d : U16) :
    tcpSumInput p (headerBytes g h c ++ R) = tcpSumInput p (headerBytes g h d ++ R) := by
  simp [tcpSumInput, zeroTwo, PseudoHdr.bytes, headerBytes, toBe16, toBe32]

end Fields

end Sys2Proof.Machine
end

