-- ==== Sys2Proof/Laws/Checksum.lean ====
section
/-! SUPPORT. The arithmetic of the one's-complement checksum (41_checksum.md R140, R142): what folding keeps, the sum of joined sequences, the sum with a checksum field filled in. -/

namespace Sys2Proof.Machine

/-! ### Folding -/

/-- With as many turns as the sum is large, folding ends at 16 bits (R142 a, b). -/
theorem foldCarry_le (n : Nat) : ∀ S, S ≤ n + 0xFFFF → foldCarry n S ≤ 0xFFFF := by
  induction n with
  | zero => intro S h; simpa [foldCarry] using h
  | succ n ih =>
    intro S h
    unfold foldCarry
    split
    · exact ih _ (by omega)
    · omega

/-- Folding keeps the sum modulo 2^16 - 1 (R142 b). -/
theorem foldCarry_mod (n : Nat) : ∀ S, foldCarry n S % 0xFFFF = S % 0xFFFF := by
  induction n with
  | zero => intro S; rfl
  | succ n ih =>
    intro S
    unfold foldCarry
    split
    · rw [ih]; omega
    · rfl

/-- Folding a sum that is not 0 never gives 0. -/
theorem foldCarry_pos (n : Nat) : ∀ S, 0 < S → 0 < foldCarry n S := by
  induction n with
  | zero => intro S h; exact h
  | succ n ih =>
    intro S h
    unfold foldCarry
    split
    · exact ih _ (by omega)
    · exact h

theorem foldCarry_zero (n : Nat) : foldCarry n 0 = 0 := by cases n <;> rfl

theorem foldedSum_le (D : Bytes) : foldedSum D ≤ 0xFFFF := foldCarry_le _ _ (Nat.le_add_right _ _)

theorem foldedSum_mod (D : Bytes) : foldedSum D % 0xFFFF = wordSum D % 0xFFFF := foldCarry_mod _ _

/-- The folded sum is 0 only for the sum 0. -/
theorem foldedSum_eq_zero {D : Bytes} : foldedSum D = 0 ↔ wordSum D = 0 := by
  constructor
  · intro h
    by_contra hc
    have := foldCarry_pos (wordSum D) (wordSum D) (by omega)
    unfold foldedSum at h; omega
  · intro h; unfold foldedSum; rw [h]; rfl

/-- The folded sum depends on the sum alone. -/
theorem foldedSum_congr {D E : Bytes} (h : wordSum D = wordSum E) : foldedSum D = foldedSum E := by
  unfold foldedSum; rw [h]

theorem ocsum_congr {D E : Bytes} (h : wordSum D = wordSum E) : ocsum D = ocsum E := by
  unfold ocsum; rw [foldedSum_congr h]

/-- The checksum is the complement of the folded sum. -/
theorem ocsum_toNat (D : Bytes) : (ocsum D).toNat = 0xFFFF - foldedSum D := by
  have := foldedSum_le D
  unfold ocsum
  rw [BitVec.toNat_not, BitVec.toNat_ofNat]; omega

/-! ### The sum of words -/

/-- Words in front of an even place add up apart from those behind it. -/
theorem wordSum_append : ∀ (A B : Bytes), A.length % 2 = 0 → wordSum (A ++ B) = wordSum A + wordSum B
  | [], B, _ => by simp [wordSum]
  | [a], _, h => by simp at h
  | a :: b :: r, B, h => by
    have ih := wordSum_append r B (by simp only [List.length_cons] at h; omega)
    simp only [List.cons_append, wordSum, ih]; omega

/-- The sum is 0 only of zero bytes. -/
theorem wordSum_eq_zero : ∀ (D : Bytes), wordSum D = 0 ↔ ∀ x ∈ D, x = 0
  | [] => by simp [wordSum]
  | [a] => by
    have : a.toNat = 0 ↔ a = 0 := by rw [← BitVec.toNat_inj]; rfl
    simp only [wordSum, List.mem_singleton, forall_eq]
    rw [← this]; omega
  | a :: b :: r => by
    have ha : a.toNat = 0 ↔ a = 0 := by rw [← BitVec.toNat_inj]; rfl
    have hb : b.toNat = 0 ↔ b = 0 := by rw [← BitVec.toNat_inj]; rfl
    simp only [wordSum, List.mem_cons, forall_eq_or_imp]
    rw [← wordSum_eq_zero r, ← ha, ← hb]; omega

/-- A sequence with two neighbouring bytes at an even place pulled out. -/
theorem split_at_two {D : Bytes} {i : Nat} (h : i + 1 < D.length) :
    D = D.take i ++ byteAt D i :: byteAt D (i + 1) :: D.drop (i + 2) := by
  have hi : i < D.length := by omega
  have h1 : D.drop i = byteAt D i :: D.drop (i + 1) := by rw [List.drop_eq_getElem_cons hi]; simp [byteAt, hi]
  have h2 : D.drop (i + 1) = byteAt D (i + 1) :: D.drop (i + 2) := by rw [List.drop_eq_getElem_cons h]; simp [byteAt, h]
  rw [← h2, ← h1, List.take_append_drop]

/-- Filling a zeroed checksum field with c adds c to the sum. -/
theorem wordSum_zeroTwo {D : Bytes} {i : Nat} (h : i + 1 < D.length) (he : i % 2 = 0) :
    wordSum D = wordSum (zeroTwo D i) + (be16At D i).toNat := by
  have hl : (D.take i).length = i := by simp; omega
  have hz : zeroTwo D i = D.take i ++ 0 :: 0 :: D.drop (i + 2) := by
    unfold zeroTwo
    apply List.ext_getElem
    · simp; omega
    · intro k h1 h2
      by_cases hk : k < i
      · rw [List.getElem_append_left (by simp; omega)]
        simp [show i + 1 ≠ k by omega, show i ≠ k by omega]
      · rw [List.getElem_append_right (by simp; omega)]
        simp only [hl]
        by_cases h0 : k = i
        · subst h0; simp
        · by_cases h1 : k = i + 1
          · subst h1; simp
          · obtain ⟨j, hj⟩ : ∃ j, k - i = j + 2 := ⟨k - i - 2, by omega⟩
            simp only [hj, List.getElem_cons_succ, List.getElem_drop, List.getElem_set]
            rw [if_neg (by omega), if_neg (by omega)]
            congr 1; omega
  rw [hz, wordSum_append _ _ (by omega)]
  conv_lhs => rw [split_at_two h, wordSum_append _ _ (by omega)]
  simp only [wordSum, be16At, be16_toNat, show (0 : Byte).toNat = 0 from rfl]; omega

/-- A sequence whose checksum field holds the checksum of itself with the field zeroed sums to all ones (R142 d, R150). -/
theorem ocsum_filled {D : Bytes} {i : Nat} (h : i + 1 < D.length) (he : i % 2 = 0)
    (hc : be16At D i = ocsum (zeroTwo D i)) : ocsum D = 0 := by
  have hs := wordSum_zeroTwo h he
  rw [hc, ocsum_toNat] at hs
  have hf := foldedSum_le (zeroTwo D i)
  have hm := foldedSum_mod (zeroTwo D i)
  have hD := foldedSum_mod D
  have hl := foldedSum_le D
  have h0 : wordSum D ≠ 0 := by
    intro h0
    have := (foldedSum_eq_zero (D := zeroTwo D i)).mpr (by omega)
    omega
  have hp : foldedSum D ≠ 0 := fun h => h0 (foldedSum_eq_zero.mp h)
  apply BitVec.eq_of_toNat_eq
  rw [ocsum_toNat]
  show 0xFFFF - foldedSum D = 0
  omega

end Sys2Proof.Machine
end

