-- ==== Sys2Proof/Laws/Frame.lean ====
section
/-! SUPPORT. What every instruction keeps: the parameters, the receive queue, the waiting inputs; and the one thing it can do to FATAL, RUNNING, the scanner, the holds and the transmit queue. -/

namespace Sys2Proof.Machine

/-- Marking the issuer's TX_ENQUEUE as held leaves every hold there is. -/
theorem State.held_markHeld {s : State} (th : Thread) (h : s.held th = true) : s.markHeld.held th = true := by
  unfold State.markHeld
  cases s.issuer <;> cases th <;> first | rfl | exact h

/-- What holds of every instruction that answers a next state. -/
structure InstrKept (s t : State) : Prop where
  cfg : t.cfg = s.cfg
  rxq : t.rxq = s.rxq
  inputs : t.inputs = s.inputs
  running : s.sq.running = true → t.sq.running = true
  fatal : s.status.fatal = true → t.status.fatal = true
  idle : s.scan = .idle → t.scan = .idle
  held : ∀ th, s.held th = true → t.held th = true
  txq : t.txq = s.txq ∨ (s.status.fatal = false ∧ s.txRoom = true ∧
    ∃ F, F.length = s.out.txlen.toNat ∧ s.Holds .obuf 0 F ∧ t.txq = s.txq ++ [F])

/-- An instruction that leaves these fields alone. -/
theorem InstrKept.of {s t : State} (h1 : t.cfg = s.cfg) (h2 : t.rxq = s.rxq) (h3 : t.inputs = s.inputs)
    (h4 : s.sq.running = true → t.sq.running = true) (h5 : s.status.fatal = true → t.status.fatal = true)
    (h6 : s.scan = .idle → t.scan = .idle) (h7 : t.txq = s.txq)
    (h8 : ∀ th, s.held th = true → t.held th = true := by intro th h; cases th <;> exact h) : InstrKept s t :=
  ⟨h1, h2, h3, h4, h5, h6, h8, .inl h7⟩

theorem InstrKept.refl (s : State) : InstrKept s s := .of rfl rfl rfl id id id rfl

theorem InstrKept.raised {codes : List Err} {s t : State} (h : Raised codes s t) : InstrKept s t := by
  rcases h with ⟨-, rfl⟩ | ⟨-, e, -, rfl⟩ <;> exact .of rfl rfl rfl id id id rfl

theorem InstrKept.raisedEiv {s t : State} (h : RaisedEiv s t) : InstrKept s t := by
  obtain ⟨-, rfl⟩ := h; exact .of rfl rfl rfl id (fun _ => rfl) id rfl

/-- The kept fields of a command. -/
theorem command_kept {i : Instr} {s t : State} (hc : i.format = .cmd32) (h : exec i s = .next t) : InstrKept s t := by
  cases i <;> first | (cases hc; done) | skip
  · rcases execSegDecode_next h with h | ⟨hf, W, hl, c, -, -, rfl⟩
    · exact .raised h
    · exact .of rfl rfl rfl id id id rfl
  · rcases execSegEncode_next h with h | h | ⟨hf, O, P, E, -, -, -, -, rfl⟩
    · exact .raised h
    · exact .raisedEiv h
    · exact .of rfl rfl rfl id id id rfl
  · rcases execSegChecksum_next h with h | h | ⟨hf, O, P, c, -, -, -, -, rfl⟩
    · exact .raised h
    · exact .raisedEiv h
    · exact .of rfl rfl rfl id id id rfl
  · rcases execSegGetRaw_next h with h | h | ⟨hf, O, P, c, E, -, -, -, -, -, rfl⟩
    · exact .raised h
    · exact .raisedEiv h
    · exact .of rfl rfl rfl id id id rfl
  · rcases execCsumVerifyTcp_next h with h | ⟨hf, W, c, ok, -, -, rfl⟩
    · exact .raised h
    · exact .of rfl rfl rfl id id id rfl
  · rcases execCsumVerifyUdp_next h with h | ⟨hf, W, c, ok, -, -, rfl⟩
    · exact .raised h
    · exact .of rfl rfl rfl id id id rfl
  · rcases execCsumVerifyIcmp_next h with h | ⟨hf, W, c, ok, -, -, rfl⟩
    · exact .raised h
    · exact .of rfl rfl rfl id id id rfl
  · rcases execCsumVerifyIp4_next h with h | ⟨hf, W, c, ok, -, -, rfl⟩
    · exact .raised h
    · exact .of rfl rfl rfl id id id rfl
  · rcases execSegFindOption_next h with h | ⟨hf, rfl⟩
    · exact .raised h
    · exact .of rfl rfl rfl id id id rfl
  · rcases execOptDecode_next h with h | ⟨hf, W, c, -, -, -, rfl⟩
    · exact .raised h
    · exact .of rfl rfl rfl id id id rfl
  · rcases execOptEncode_next h with h | h | ⟨hf, -, B, -, rfl⟩
    · exact .raised h
    · exact .raisedEiv h
    · exact .of rfl rfl rfl id id id rfl
  · rcases execSegNew_next h with h | ⟨hf, rfl⟩
    · exact .raised h
    · exact .of rfl rfl rfl id id id rfl
  · rcases execEthParse_next h with h | ⟨hf, W, -, -, rfl⟩
    · exact .raised h
    · exact .of rfl rfl rfl id id id rfl
  · rcases execArpParse_next h with h | ⟨hf, W, -, -, -, rfl⟩
    · exact .raised h
    · exact .of rfl rfl rfl id id id rfl
  · rcases execIp4Parse_next h with h | ⟨hf, W, hl, -, -, rfl⟩
    · exact .raised h
    · exact .of rfl rfl rfl id id id rfl
  · rcases execIcmp4Parse_next h with h | ⟨hf, W, -, -, rfl⟩
    · exact .raised h
    · exact .of rfl rfl rfl id id id rfl
  · rcases execUdpParse_next h with h | ⟨hf, W, -, -, -, rfl⟩
    · exact .raised h
    · exact .of rfl rfl rfl id id id rfl
  · rcases execTxEnqueue_next h with h | ⟨hf, hr, F, hl, hF, rfl⟩ | ⟨-, -, -, rfl⟩ | ⟨-, -, -, rfl⟩
    · exact .raised h
    · exact ⟨rfl, rfl, rfl, id, id, id, fun th h => by cases th <;> exact h, .inr ⟨hf, hr, F, hl, hF, rfl⟩⟩
    · exact .of (by simp) (by simp) (by simp) (by simp) (by simp) (by simp) (by simp) State.held_markHeld
    · exact .of rfl rfl rfl id id id rfl
  · rcases execSqStart_next h with h | ⟨-, -, rfl⟩
    · exact .raised h
    · exact .of rfl rfl rfl (fun _ => rfl) id id rfl

/-- A host write of a register other than CMD changes none of the kept fields. -/
theorem InstrKept.write (r : Reg) (v : Value) (s : State) : InstrKept s (r.write v s) := by
  have store : ∀ x, InstrKept s (r.store x s) := by intro x; cases r <;> exact .of rfl rfl rfl id id id rfl
  unfold Reg.write
  split
  · split
    · split
      · exact .of rfl rfl rfl id id id rfl
      · exact .refl s
    · exact .refl s
    · split
      · split
        · exact store _
        · exact .refl s
      · exact store _
    · exact .refl s
  · exact .refl s

theorem InstrKept.issue {w : U32} {s t : State} (h : issueWord w s = .next t) : InstrKept s t := by
  rcases issued_next h with ⟨-, rfl⟩ | ⟨hf, h⟩
  · exact .of rfl rfl rfl id id id rfl
  · cases hd : decodeCommand w with
    | error e => rw [hd] at h; cases h; exact .of rfl rfl rfl id id id rfl
    | ok i =>
      rw [hd] at h
      have h : runCommand i s = .next t := h
      by_cases hc : i.format = .cmd32
      · rw [runCommand_eq_exec hc] at h; exact command_kept hc h
      · cases i <;> first | exact absurd rfl hc | (cases h; exact .of rfl rfl rfl id id id rfl)

/-- The kept fields of any instruction. -/
theorem exec_kept {i : Instr} {s t : State} (h : exec i s = .next t) : InstrKept s t := by
  by_cases hc : i.format = .cmd32
  · exact command_kept hc h
  · cases i <;> first | (exact absurd rfl hc) | skip
    · cases h; exact .of rfl rfl rfl id id id rfl
    · rename_i n v
      simp only [exec, execRegWrite] at h
      split at h
      · cases h; exact .refl s
      · split at h
        · exact .issue h
        · cases h; exact .refl s
        · cases h; exact .refl s
      · cases h; exact .write _ _ _
    · simp only [exec, execBufRead] at h
      split at h
      · cases h; exact .of rfl rfl rfl id id id rfl
      · split at h
        · cases h; exact .of rfl rfl rfl id id id rfl
        · split at h <;> cases h; exact .of rfl rfl rfl id id id rfl
    · simp only [exec, execBufWrite] at h
      split at h
      · cases h; exact .refl s
      · split at h
        · cases h; exact .refl s
        · cases h; exact .of (by simp) (by simp) (by simp) (by simp) (by simp) (by simp) (by simp)
            (by intro th hh; cases th <;> simpa [State.held] using hh)
    all_goals first
      | (cases h; exact .of rfl rfl rfl id id (fun hs => by rw [hs]; rfl) rfl)
      | (simp only [exec, execEtypeIpv4, execEtypeArp, execIpprotoIcmp, execIpprotoTcp, execIpprotoUdp, dispatchTo] at h
         split at h <;> cases h
         · exact .of rfl rfl rfl id id id rfl
         · exact .refl s)

end Sys2Proof.Machine
end

