-- ==== Sys2Proof/Laws/PerInstr.lean ====
section
/-! SUPPORT. The family WordShape: what every instruction's encoding looks like, one lemma per constructor (30_encoding.md R81, R86, R91, R99, R100). -/

namespace Sys2Proof.Laws.WordShape

/-- The bytes of an instruction have the shape of its format: a command word has four bytes and its RSV bits are zero, a transaction begins with its kind and has an operand,
an option record has at least its tag, an EtherType is two bytes and a protocol number one. -/
def Statement (i : Instr) : Prop :=
  match i.format with
  | .cmd32 => (encode i).length = 4 ∧ (encode i).drop 2 = [0, 0]
  | .hostTxn => 2 ≤ (encode i).length ∧ byteAt (encode i) 0 ∈ [0#8, 1#8, 2#8, 3#8]
  | .tcpOpt => 1 ≤ (encode i).length
  | .etype16 => (encode i).length = 2
  | .ipproto8 => (encode i).length = 1

theorem segDecode : Statement .segDecode := ⟨rfl, rfl⟩
theorem segEncode : Statement .segEncode := ⟨rfl, rfl⟩
theorem segChecksum : Statement .segChecksum := ⟨rfl, rfl⟩
theorem segGetRaw : Statement .segGetRaw := ⟨rfl, rfl⟩
theorem csumVerifyTcp : Statement .csumVerifyTcp := ⟨rfl, rfl⟩
theorem csumVerifyUdp : Statement .csumVerifyUdp := ⟨rfl, rfl⟩
theorem csumVerifyIcmp : Statement .csumVerifyIcmp := ⟨rfl, rfl⟩
theorem csumVerifyIp4 : Statement .csumVerifyIp4 := ⟨rfl, rfl⟩
theorem segFindOption (kind : Byte) : Statement (.segFindOption kind) := ⟨rfl, rfl⟩
theorem optDecode : Statement .optDecode := ⟨rfl, rfl⟩
theorem optEncode (slot : Byte) : Statement (.optEncode slot) := ⟨rfl, rfl⟩
theorem segNew (link : Bool) : Statement (.segNew link) := ⟨rfl, rfl⟩
theorem ethParse : Statement .ethParse := ⟨rfl, rfl⟩
theorem arpParse : Statement .arpParse := ⟨rfl, rfl⟩
theorem ip4Parse : Statement .ip4Parse := ⟨rfl, rfl⟩
theorem icmp4Parse : Statement .icmp4Parse := ⟨rfl, rfl⟩
theorem udpParse : Statement .udpParse := ⟨rfl, rfl⟩
theorem txEnqueue : Statement .txEnqueue := ⟨rfl, rfl⟩
theorem sqStart : Statement .sqStart := ⟨rfl, rfl⟩
theorem regRead (n : Byte) : Statement (.regRead n) :=
  ⟨Nat.le_refl 2, (by decide : 0#8 ∈ [0#8, 1#8, 2#8, 3#8])⟩
theorem regWrite (n : Byte) (v : Value) : Statement (.regWrite n v) :=
  ⟨Nat.le_add_left 2 _, (by decide : 1#8 ∈ [0#8, 1#8, 2#8, 3#8])⟩
theorem bufRead (b : Byte) (a : U32) : Statement (.bufRead b a) :=
  ⟨Nat.le_add_left 2 _, (by decide : 2#8 ∈ [0#8, 1#8, 2#8, 3#8])⟩
theorem bufWrite (b : Byte) (a : U32) (x : Byte) : Statement (.bufWrite b a x) :=
  ⟨Nat.le_add_left 2 _, (by decide : 3#8 ∈ [0#8, 1#8, 2#8, 3#8])⟩
theorem optEol : Statement .optEol := Nat.le_refl 1
theorem optNop : Statement .optNop := Nat.le_refl 1
theorem optMss (len : Byte) (v : U16) : Statement (.optMss len v) := Nat.le_add_left 1 _
theorem optWs (len sc : Byte) : Statement (.optWs len sc) := Nat.le_add_left 1 _
theorem optSackperm (len : Byte) : Statement (.optSackperm len) := Nat.le_add_left 1 _
theorem optTs (len : Byte) (tsval tsecr : U32) : Statement (.optTs len tsval tsecr) := Nat.le_add_left 1 _
theorem optUnknown (tag len : Byte) (data : Bytes) : Statement (.optUnknown tag len data) := Nat.le_add_left 1 _
theorem etypeIpv4 : Statement .etypeIpv4 := rfl
theorem etypeArp : Statement .etypeArp := rfl
theorem ipprotoIcmp : Statement .ipprotoIcmp := rfl
theorem ipprotoTcp : Statement .ipprotoTcp := rfl
theorem ipprotoUdp : Statement .ipprotoUdp := rfl

end Sys2Proof.Laws.WordShape
end

