-- ==== Sys2Proof/Tests/Slice0.lean ====
section
/-! SUPPORT. The model's own tests. Expected values come from the spec: the vectors V-... of 95_test_vectors.md, the tables of 30_encoding.md, or the byte layout of log 5 for host transactions.
First the well-formedness checks, then words written out bit by bit, then one or two steps per instruction, then a witness for every statement that has hypotheses. -/

namespace Sys2Proof.Tests

open Sys2Proof Sys2Proof.Machine Sys2Proof.Statement

/-! ### Helpers -/

/-- Bytes from numbers. -/
def nb (l : List Nat) : Bytes := l.map (BitVec.ofNat 8)

/-- A buffer that holds the bytes from an address on. -/
def memAt (a : Nat) (l : List Nat) : Memory := Memory.writeRange [] a (nb l)

/-- The next state, if there is one. -/
def next? (o : Out) : Option State :=
  match o with
  | .next s => some s
  | .fault _ => none
  | .refused _ => none

/-- The fault, if there is one. -/
def fault? (o : Out) : Option Fault :=
  match o with
  | .fault r => some r
  | .next _ => none
  | .refused _ => none

/-- The next state, or reset where there is none. -/
def after (o : Out) : State := (next? o).getD State.reset

theorem eq_after {o : Out} (h : (next? o).isSome = true) : o = .next (after o) := by
  cases o with
  | next s => rfl
  | fault r => simp [next?] at h
  | refused r => simp [next?] at h

/-- Reset with the window W at IBUF[off..). -/
def winAt (off : Nat) (l : List Nat) : State :=
  { State.reset with ibuf := memAt off l, win := ⟨BitVec.ofNat 32 off, BitVec.ofNat 32 l.length⟩ }

/-- Reset with a chain, a payload and these scalar registers. -/
def segWith (g : Seg) (c : List TcpOption) (payload : List Nat) : State :=
  { State.reset with
    seg := { g with optcnt := BitVec.ofNat 6 c.length, plen := BitVec.ofNat 32 payload.length }
    opts := c ++ List.replicate (40 - c.length) .eol
    pbuf := memAt 0 payload }

/-- STATUS.FATAL = 1. -/
def haltedState : State := { State.reset with status := ⟨.eiv, true, false, false⟩ }

/-- RUNNING, in a phase. -/
def running (p : Phase) : State :=
  { State.reset with sq := ⟨true, true, 0, 0, 0⟩, seqr := { State.reset.seqr with phase := p } }

/-- TXQ_CAP 1, with one frame waiting. -/
def fullTxq (p : FullPolicy) : State :=
  { State.reset with cfg := { Config.standard with txqCap := some 1, txqFull := p }, txq := [[0x55]] }

/-- PH-A. -/
def phA : PseudoHdr := ⟨0x0A000001, 0x0A000002, 6, 24⟩

def syn0 : List Nat :=
  [0xC8, 0x22, 0x00, 0x50, 0x00, 0x00, 0x03, 0xE8, 0x00, 0x00, 0x00, 0x00, 0x60, 0x02, 0xFA, 0xF0,
   0x00, 0x00, 0x00, 0x00, 0x02, 0x04, 0x05, 0xB4]

def syn1 : List Nat :=
  [0xC8, 0x22, 0x00, 0x50, 0x00, 0x00, 0x03, 0xE8, 0x00, 0x00, 0x00, 0x00, 0x60, 0x02, 0xFA, 0xF0,
   0xBC, 0xD8, 0x00, 0x00, 0x02, 0x04, 0x05, 0xB4]

def iphB : List Nat :=
  [0x45, 0x00, 0x00, 0x2C, 0x00, 0x01, 0x40, 0x00, 0x40, 0x06, 0x26, 0xC9, 0x0A, 0x00, 0x00, 0x02, 0x0A, 0x00, 0x00, 0x01]

def arpB : List Nat :=
  [0x00, 0x01, 0x08, 0x00, 0x06, 0x04, 0x00, 0x01, 0x02, 0x00, 0x00, 0x00, 0x00, 0x01, 0x0A, 0x00, 0x00, 0x01,
   0x00, 0x00, 0x00, 0x00, 0x00, 0x00, 0x0A, 0x00, 0x00, 0x02]

def icmpB : List Nat := [0x08, 0x00, 0x21, 0x04, 0x12, 0x34, 0x00, 0x01, 0x61, 0x62, 0x63, 0x64]

def udpB : List Nat := [0x13, 0x88, 0x00, 0x35, 0x00, 0x0A, 0x6F, 0xB1, 0x68, 0x69]

/-- The fields of V-L1-1, with hlen 20. -/
def synSeg : Seg := { Seg.empty with sport := 51234, dport := 80, seqno := 1000, flags := 0x002, win := 64240 }

/-- V-L1-1 with PH-A. -/
def synState : State := { segWith synSeg [.mss 1460] [] with ph := phA }

/-! ### Well-formedness: each check refuses an ill-formed term -/

theorem wf_refuses_record_data_over_255 :
    (Instr.regWrite 0x80 (.opt (.unknown 30 (List.replicate 256 0)))).wf = false ∧
    (Instr.regWrite 0x80 (.opt (.unknown 30 (List.replicate 255 0)))).wf = true := by
  simp only [Instr.wf, Value.wf, TcpOption.wf, List.length_replicate]
  decide

theorem wf_refuses_value_at_wrong_length :
    (Instr.optMss 5 1).wf = false ∧ (Instr.optWs 4 1).wf = false ∧
    (Instr.optTs 9 1 0).wf = false ∧ (Instr.optTs 9 0 1).wf = false := by decide

theorem wf_refuses_unknown_with_known_tag_or_wrong_length :
    (Instr.optUnknown 8 2 []).wf = false ∧ (Instr.optUnknown 30 3 []).wf = false ∧
    (Instr.optUnknown 30 2 [1]).wf = false ∧ (Instr.optUnknown 30 3 [1]).wf = true := by decide

/-! ### Words written out from the spec's encodings decode to their instruction -/

/-- Command words (30_encoding.md R81, R82): RSV, ARG, OP, most significant bit first. -/
theorem decode_command_words :
    decodeCommand 0b0000000000000000_00000000_00000001#32 = .ok .segDecode ∧
    decodeCommand 0b0000000000000000_00000000_00000010#32 = .ok .segEncode ∧
    decodeCommand 0b0000000000000000_00000000_00000011#32 = .ok .segChecksum ∧
    decodeCommand 0b0000000000000000_00000000_00000100#32 = .ok .segGetRaw ∧
    decodeCommand 0b0000000000000000_00000000_00000101#32 = .ok .csumVerifyTcp ∧
    decodeCommand 0b0000000000000000_00000001_00000101#32 = .ok .csumVerifyUdp ∧
    decodeCommand 0b0000000000000000_00000010_00000101#32 = .ok .csumVerifyIcmp ∧
    decodeCommand 0b0000000000000000_00000011_00000101#32 = .ok .csumVerifyIp4 ∧
    decodeCommand 0b0000000000000000_00000010_00000110#32 = .ok (.segFindOption 2) ∧
    decodeCommand 0b0000000000000000_00000000_00000111#32 = .ok .optDecode ∧
    decodeCommand 0b0000000000000000_00000011_00001000#32 = .ok (.optEncode 3) ∧
    decodeCommand 0b0000000000000000_00000001_00001001#32 = .ok (.segNew true) ∧
    decodeCommand 0b0000000000000000_00000000_00001001#32 = .ok (.segNew false) ∧
    decodeCommand 0b0000000000000000_00000000_00010000#32 = .ok .ethParse ∧
    decodeCommand 0b0000000000000000_00000000_00010001#32 = .ok .arpParse ∧
    decodeCommand 0b0000000000000000_00000000_00010010#32 = .ok .ip4Parse ∧
    decodeCommand 0b0000000000000000_00000000_00010011#32 = .ok .icmp4Parse ∧
    decodeCommand 0b0000000000000000_00000000_00010100#32 = .ok .udpParse ∧
    decodeCommand 0b0000000000000000_00000000_00100000#32 = .ok .txEnqueue ∧
    decodeCommand 0b0000000000000000_00000000_00110000#32 = .ok .sqStart := by
  refine ⟨?_, ?_, ?_, ?_, ?_, ?_, ?_, ?_, ?_, ?_, ?_, ?_, ?_, ?_, ?_, ?_, ?_, ?_, ?_, ?_⟩ <;> rfl

/-- V-HP-12 to V-HP-15, V-SEG-4, V-CV-16: words that are no command. -/
theorem decode_refuses_illegal_command_words :
    decodeCommand 0x00000000 = .error (.reservedOpcode 0) ∧ decodeCommand 0x00010001 = .error .reservedBits ∧
    decodeCommand 0x00000101 = .error (.illegalArg 1 1) ∧ decodeCommand 0x000000FF = .error (.reservedOpcode 0xFF) ∧
    decodeCommand 0x00000209 = .error (.illegalArg 9 2) ∧ decodeCommand 0x00000405 = .error (.illegalArg 5 4) := by
  refine ⟨?_, ?_, ?_, ?_, ?_, ?_⟩ <;> rfl

/-- Host transactions: the kinds of R86 in the byte layout of log 5; the operands of V-HP-3, P2 line 8, V-HP-9, V-HP-10. -/
theorem decode_host_transactions :
    decodeTxn (nb [0x00, 0x1E]) = .ok (.regRead 0x1E) ∧
    decodeTxn (nb [0x01, 0x15, 0x00, 0x00, 0x00, 0x00, 0x00, 0x00, 0x00, 0x03, 0xFF]) = .ok (.regWrite 0x15 (.num 0x3FF)) ∧
    decodeTxn (nb [0x01, 0x84, 0x01, 0x06, 0x02, 0x02, 0x05, 0xB4]) = .ok (.regWrite 0x84 (.opt (.unknown 2 [0x05, 0xB4]))) ∧
    decodeTxn (nb [0x02, 0x02, 0x00, 0x01, 0x11, 0x70]) = .ok (.bufRead 2 70000) ∧
    decodeTxn (nb [0x03, 0x00, 0x00, 0x00, 0xFF, 0xFF, 0x12]) = .ok (.bufWrite 0 65535 0x12) ∧
    decodeTxn (nb [0x04, 0x00]) = .error (.noSuchKind 4) := by
  refine ⟨?_, ?_, ?_, ?_, ?_, ?_⟩ <;> rfl

/-- Option records (30_encoding.md R91): areas of V-OPT-1, 2, 4, 6, 7, 9, 10. -/
theorem decode_option_records :
    decodeOption (nb [0x00, 0x00, 0x00, 0x00]) = .ok .optEol ∧
    decodeOption (nb [0x01, 0x01, 0x00, 0x00]) = .ok .optNop ∧
    decodeOption (nb [0x02, 0x04, 0x05, 0xB4]) = .ok (.optMss 4 1460) ∧
    decodeOption (nb [0x03, 0x03, 0xFF]) = .ok (.optWs 3 255) ∧
    decodeOption (nb [0x04, 0x02]) = .ok (.optSackperm 2) ∧
    decodeOption (nb [0x08, 0x0A, 0x00, 0x00, 0x00, 0x01, 0x00, 0x00, 0x00, 0x02]) = .ok (.optTs 10 1 2) ∧
    decodeOption (nb [0x05, 0x0A, 0x00, 0x00, 0x00, 0x01, 0x00, 0x00, 0x00, 0x05]) =
      .ok (.optUnknown 5 10 (nb [0x00, 0x00, 0x00, 0x01, 0x00, 0x00, 0x00, 0x05])) ∧
    decodeOption (nb [0x03]) = .error .noLengthByte ∧ decodeOption (nb [0x02, 0x04, 0x05]) = .error .overrun := by
  refine ⟨?_, ?_, ?_, ?_, ?_, ?_, ?_, ?_, ?_⟩ <;> rfl

/-- The selectors of R99 and R100, as the wire carries them. -/
theorem decode_selectors :
    decode .etype16 (nb [0b00001000, 0b00000000]) = .ok .etypeIpv4 ∧ decode .etype16 (nb [0b00001000, 0b00000110]) = .ok .etypeArp ∧
    decode .ipproto8 (nb [0b00000001]) = .ok .ipprotoIcmp ∧ decode .ipproto8 (nb [0b00000110]) = .ok .ipprotoTcp ∧
    decode .ipproto8 (nb [0b00010001]) = .ok .ipprotoUdp ∧ decode .etype16 (nb [0x86, 0xDD]) = .error (.notDispatched 0x86DD) := by
  refine ⟨?_, ?_, ?_, ?_, ?_, ?_⟩ <;> rfl

/-- The table's numbering (log 6, 7): SEG_NEW link, the EtherType 0x0806, the tag 4. -/
theorem decode_table_words :
    decodeTableWord 32 0x109 = some (.segNew true) ∧ decodeTableWord 16 0x0806 = some .etypeArp ∧
    decodeTableWord 8 0x11 = some .ipprotoUdp ∧ decodeTableWord 8 0x04 = some (.optSackperm 0) := by
  refine ⟨?_, ?_, ?_, ?_⟩ <;> rfl

/-! ### One step each -/

/-- V-HP-12 and V-SQ-1 through the fetch from reset. -/
theorem test_step_from_reset :
    (next? (step (State.reset.withFetchWord 32 0x00000000))).map (·.status.err) = some .illegalCommand ∧
    (next? (step (State.reset.withFetchWord 32 0x00000030))).map (·.sq.ctrl) = some 0x3 ∧
    (next? (step (State.reset.withFetchWord 16 0x0800))).map (·.seqr.phase) = some (.parse .ip) ∧
    (next? (step (State.reset.withFetchWord 8 0x11))).map (·.seqr.phase) = some (.parse .udp) := by decide

/-- V-L1-1 step 3. -/
theorem test_seg_decode_syn :
    (next? (exec .segDecode (winAt 0 syn0))).map (fun t => (t.seg, t.opts.take 1)) =
      some ({ synSeg with hlen := 24, optcnt := 1 }, [.mss 1460]) := by decide

/-- V-SEG-9b and V-SEG-9c. -/
theorem test_seg_decode_flags_and_payload :
    (next? (exec .segDecode (winAt 0 ([0,0,0,0,0,0,0,0,0,0,0,0,0x5F,0x12,0,0,0,0,0,0])))).map (·.seg.flags) = some 0x112 ∧
    (next? (exec .segDecode (winAt 0 ([0,0,0,0,0,0,0,0,0,0,0,0,0x50,0,0,0,0,0,0,0,0x61,0x62,0x63])))).map
      (fun t => (t.seg.plen, t.pbuf)) = some (3, memAt 0 [0x61, 0x62, 0x63]) := by decide

/-- V-SEG-10. -/
theorem test_seg_encode :
    (next? (exec .segEncode (segWith { Seg.empty with sport := 1, dport := 2 } [] [0x68, 0x69]))).map
      (fun t => (t.out.olen, t.obuf)) =
      some (22, memAt 0 [0,1,0,2,0,0,0,0,0,0,0,0,0x50,0,0,0,0,0,0,0,0x68,0x69]) := by decide

/-- V-SEG-12 and V-EX-1. -/
theorem test_seg_encode_eiv :
    (next? (exec .segEncode (segWith Seg.empty [.mss 1460, .ws 7] []))).map (fun t => (t.status.word, t.out.olen, t.obuf)) =
      some (0x13, 0, []) := by decide

/-- V-CK-1 and V-CK-7. -/
theorem test_seg_checksum :
    (next? (exec .segChecksum synState)).map (fun t => (t.result, t.seg.hlen)) = some (0xBCD8, 20) ∧
    (next? (exec .segChecksum State.reset)).map (·.result) = some 0xAFFF := by decide

/-- V-CK-3. -/
theorem test_seg_get_raw :
    (next? (exec .segGetRaw synState)).map (fun t => (t.seg.csum, t.result, t.out.olen, t.obuf)) =
      some (0xBCD8, 0xBCD8, 24, memAt 0 syn1) := by decide

/-- V-CV-1 and V-CV-3. -/
theorem test_csum_verify_tcp :
    (next? (exec .csumVerifyTcp { winAt 0 syn1 with ph := phA })).map (fun t => (t.result, t.status.csumOk)) = some (0xBCD8, true) ∧
    (next? (exec .csumVerifyTcp { winAt 0 syn1 with ph := ⟨0x0A000001, 0x0A000002, 6, 25⟩ })).map
      (fun t => (t.result, t.status.csumOk)) = some (0xBCD7, false) := by decide

/-- V-CV-5 and V-CV-8. -/
theorem test_csum_verify_udp :
    (next? (exec .csumVerifyUdp { winAt 0 udpB with ph := ⟨0x0A000002, 0x0A000001, 17, 10⟩ })).map
      (fun t => (t.result, t.status.csumOk)) = some (0x6FB1, true) ∧
    (next? (exec .csumVerifyUdp { winAt 0 [0x13,0x88,0,0x35,0,0x0A,0xFF,0xFF,0xD8,0x1A] with ph := ⟨0x0A000002, 0x0A000001, 17, 10⟩ })).map
      (fun t => (t.result, t.status.csumOk)) = some (0xFFFF, true) := by decide

/-- V-CV-10. -/
theorem test_csum_verify_icmp :
    (next? (exec .csumVerifyIcmp (winAt 0 icmpB))).map (fun t => (t.result, t.status.csumOk)) = some (0x2104, true) := by decide

/-- V-CV-12 and V-CV-14. -/
theorem test_csum_verify_ip4 :
    (next? (exec .csumVerifyIp4 (winAt 0 iphB))).map (fun t => (t.result, t.status.csumOk)) = some (0x26C9, true) ∧
    (next? (exec .csumVerifyIp4 (winAt 0 (0x46 :: iphB.tail)))).map (fun t => (t.result, t.status.err)) = some (0, .truncated) := by decide

/-- V-SEG-20 and V-SEG-23. -/
theorem test_seg_find_option :
    (next? (exec (.segFindOption 2) (segWith Seg.empty [.nop, .nop, .ts 1 2, .mss 536, .mss 1460] []))).map
      (fun t => (t.fopt, t.status.word)) = some (some (.mss 536), 0x20) ∧
    (next? (exec (.segFindOption 0) (segWith Seg.empty [.nop] []))).map (fun t => (t.fopt, t.status.word)) = some (none, 0) := by decide

/-- V-OPT-11 and V-OPT-13. -/
theorem test_opt_decode :
    (next? (exec .optDecode (winAt 0 [1,1,8,10,0,0,0,1,0,0,0,2]))).map (fun t => (t.seg.optcnt, t.opts.take 4)) =
      some (3, [.nop, .nop, .ts 1 2, .eol]) ∧
    (next? (exec .optDecode (winAt 0 [2,5,5,0xB4,0]))).map (fun t => (t.seg.optcnt, t.status.err)) = some (0, .malformedOptions) := by
  decide

/-- V-OPT-21 and V-OPT-24. -/
theorem test_opt_encode :
    (next? (exec (.optEncode 0) { segWith Seg.empty [.ts 0x01020304 0xA0B0C0D0] [] with out := ⟨0, 10, 0⟩ })).map
      (fun t => (t.out.olen, t.obuf)) = some (10, memAt 10 [8,10,1,2,3,4,0xA0,0xB0,0xC0,0xD0]) ∧
    (next? (exec (.optEncode 1) (segWith Seg.empty [.nop] []))).map (·.status.err) = some .indexRange := by decide

/-- V-SEG-1 and V-SEG-3. -/
theorem test_seg_new :
    (next? (exec (.segNew true) { State.reset with track := ⟨3, 5, 0, 0, false⟩ })).map (·.track) = some ⟨3, 6, 5, 3, true⟩ ∧
    (next? (exec (.segNew false) { State.reset with track := ⟨3, 0xFFFFFFFF, 0, 0, false⟩ })).map (·.track) =
      some ⟨3, 0, 0xFFFFFFFF, 0, false⟩ := by decide

/-- V-FP-3. -/
theorem test_eth_parse :
    (next? (exec .ethParse (winAt 0 [0,0,0,0,0,0,0,0,0,0,0,0,0x81,0]))).map (fun t => (t.eth.etype, t.lpay)) =
      some (0x8100, ⟨14, 0⟩) := by decide

/-- V-FP-4 and V-FP-6. -/
theorem test_arp_parse :
    (next? (exec .arpParse (winAt 0 arpB))).map (fun t => (t.arp, t.lpay)) =
      some (⟨1, 0x0800, 6, 4, 1, 0x020000000001, 0x0A000001, 0, 0x0A000002⟩, ⟨28, 0⟩) ∧
    (next? (exec .arpParse (winAt 0 (0 :: 6 :: arpB.drop 2)))).map (·.status.err) = some .malformedHeader := by decide

/-- V-FP-13 and V-FP-14. -/
theorem test_ip4_parse :
    (next? (exec .ip4Parse (winAt 0 ([0x45,0,0,0x14] ++ iphB.drop 4 ++ [0,0,0,0,0,0])))).map (fun t => (t.ip.tlen, t.lpay)) =
      some (20, ⟨20, 0⟩) ∧
    (next? (exec .ip4Parse (winAt 0 ([0x45,0,0,0x14,0,1,0x20,0x10] ++ iphB.drop 8)))).map (fun t => (t.ip.flags, t.ip.frag)) =
      some (0b001, 16) := by decide

/-- V-FP-15. -/
theorem test_icmp4_parse :
    (next? (exec .icmp4Parse (winAt 0 icmpB))).map (fun t => (t.icmp, t.lpay)) = some (⟨8, 0, 0x2104, 0x12340001⟩, ⟨8, 4⟩) := by decide

/-- V-FP-22 and V-FP-20. -/
theorem test_udp_parse :
    (next? (exec .udpParse (winAt 0 [0,1,0,2,0,8,0,0,1,2]))).map (fun t => (t.udp, t.lpay)) = some (⟨1, 2, 8, 0⟩, ⟨8, 0⟩) ∧
    (next? (exec .udpParse (winAt 0 [0,1,0,2,0,7,0,0]))).map (·.status.err) = some .malformedHeader := by decide

/-- V-SQ-3, and a full TXQ that drops (R202). -/
theorem test_tx_enqueue :
    (next? (exec .txEnqueue State.reset)).map (·.txq) = some [[]] ∧
    (next? (exec .txEnqueue (fullTxq .drop))).map (fun t => (t.txq, t.status.err)) = some ([[0x55]], .none) := by decide

/-- R202, R210: a held TX_ENQUEUE takes no step while TXQ is full, halted or not; with room it does. -/
theorem test_tx_enqueue_held :
    (next? (step { fullTxq .hold with hostHeld := true, status := haltedState.status })).map (fun t => (t.hostHeld, t.status.err)) =
      some (true, .eiv) ∧
    (next? (step { fullTxq .hold with hostHeld := true, txq := [] })).map (fun t => (t.hostHeld, t.txq)) = some (false, [[]]) := by decide

/-- R211: another instance takes from RXQ, and adds to TXQ only where there is room. -/
theorem test_shared_queues :
    (next? (step { State.reset with rxq := [[1], [2]], inputs := [.rxTakeOther] })).map (·.rxq) = some [[2]] ∧
    (next? (step { fullTxq .hold with inputs := [.txPutOther [9]] })).map (·.txq) = some [[0x55]] ∧
    (next? (step { State.reset with inputs := [.txPutOther [9]] })).map (·.txq) = some [[9]] := by decide

/-- V-SQ-2. -/
theorem test_sq_start_again :
    (next? (exec .sqStart (running .idle))).map (fun t => (t.status.err, t.sq.ctrl)) = some (.badState, 0x3) := by decide

/-- V-HP-7, V-HP-8. -/
theorem test_reg_read :
    (next? (exec (.regRead 0x14) State.reset)).map (·.resp) = some (some (.num 20)) ∧
    (next? (exec (.regRead 0xFF) State.reset)).map (·.resp) = some (some (.num 0)) := by decide

/-- V-HP-3 and V-EX-2. -/
theorem test_reg_write :
    (next? (exec (.regWrite 0x15 (.num 0x3FF)) State.reset)).map (·.seg.flags) = some 0x1FF ∧
    (next? (exec (.regWrite 0x00 (.num 0xFFFFFFFF)) haltedState)).map (·.status.word) = some 0x17 := by decide

/-- V-HP-9 and V-HP-11. -/
theorem test_buf_read :
    (next? (exec (.bufRead 2 70000) State.reset)).map (·.resp) = some (some (.num 0)) ∧
    fault? (exec (.bufRead 0 0) State.reset) = some (.unwrittenByte .ibuf 0) := by decide

/-- V-HP-10 and the last byte inside. -/
theorem test_buf_write :
    (next? (exec (.bufWrite 0 65535 0x12) State.reset)).map (·.ibuf) = some [] ∧
    (next? (exec (.bufWrite 0 65534 0x12) State.reset)).map (·.ibuf) = some [(65534, 0x12)] := by decide

/-- A scan in progress over an area, with nothing scanned yet. -/
def scanning (l : List Nat) : State := { State.reset with scan := .scanning (nb l) [] }

/-- One step of the scanner on the areas of V-OPT-3, 2, 4, 6, 7, 9 and 8. -/
theorem test_option_records :
    (next? (step (scanning [0, 0xFF]))).map (·.scan) = some (.scanning [] [.eol]) ∧
    (next? (step (scanning [1, 1]))).map (·.scan) = some (.scanning [1] [.nop]) ∧
    (next? (step (scanning [2, 4, 5, 0xB4]))).map (·.scan) = some (.scanning [] [.mss 1460]) ∧
    (next? (step (scanning [3, 3, 0xFF]))).map (·.scan) = some (.scanning [] [.ws 255]) ∧
    (next? (step (scanning [4, 2]))).map (·.scan) = some (.scanning [] [.sackperm]) ∧
    (next? (step (scanning [8, 10, 0, 0, 0, 1, 0, 0, 0, 2]))).map (·.scan) = some (.scanning [] [.ts 1 2]) ∧
    (next? (step (scanning [5, 2]))).map (·.scan) = some (.scanning [] [.unknown 5 []]) := by decide

/-- V-OPT-13, 15, 16, 17, 18: the scan fails. -/
theorem test_option_records_fail :
    ([[2, 5, 5, 0xB4, 0], [4, 3, 0], [0x1E, 0], [0xFE, 8, 1, 2], [3]].all
      fun l => (next? (step (scanning l))).map (·.scan) == some .failed) = true := by decide

/-- R205's table for the three IPv4 selectors and ARP; IPv4 is in `test_step_from_reset`. -/
theorem test_selectors :
    (next? (exec .etypeArp (running (.handle .eth)))).map (·.seqr.phase) = some (.parse .arp) ∧
    (next? (exec .ipprotoIcmp (running (.handle .ip)))).map (·.seqr.phase) = some (.parse .icmp) ∧
    (next? (exec .ipprotoTcp (running (.handle .ip)))).map (·.seqr.phase) = some (.parse .tcp) := by decide

/-- V-SQ-5's frame: the dequeue step, then the parse of its Ethernet header. -/
theorem test_sequencer_dequeue_and_parse :
    (next? (step { running .idle with rxq := [nb [0,0,0,0,0,0,0,0,0,0,0,0,0x86,0xDD]], inputs := [.seq] })).map
      (fun t => (t.seqr.phase, t.track.inTrk, t.track.nextTrk, t.seqr.flen)) = some (.parse .eth, 0, 1, 14) ∧
    (next? (step { running (.parse .eth) with
        seqr := ⟨.parse .eth, 14, 0, 0, 0, 0, 0⟩, ibuf := memAt 0 [0,0,0,0,0,0,0,0,0,0,0,0,0x86,0xDD], inputs := [.seq] })).map
      (fun t => (t.seqr.phase, t.seqr.sel)) = some (.handle .eth, 0x86DD) := by decide

/-! ### Witnesses: for each statement with hypotheses, states and operands that meet all of them together, clause by clause -/

/-- Reset with a next event. -/
def told (e : Event) (s : State) : State := { s with inputs := [e] }

theorem witness_DecodeOfEncodeIsTheInstruction :
    (Instr.segNew true).wf = true ∧ (Instr.segFindOption 0xFF).wf = true ∧ (Instr.regWrite 0xFF (.num 0xFFFFFFFFFFFFFFFF)).wf = true ∧
    (Instr.bufWrite 0xFF 0xFFFFFFFF 0xFF).wf = true ∧ (Instr.optTs 10 0xFFFFFFFF 0).wf = true ∧
    (Instr.optUnknown 0xFE 40 (List.replicate 38 7)).wf = true ∧ Instr.ipprotoUdp.wf = true := by decide

theorem witness_OptionRecordIsReadInFrontOfAnyBytes :
    (Instr.optUnknown 0xFE 40 (List.replicate 38 7)).format = .tcpOpt ∧ (Instr.optUnknown 0xFE 40 (List.replicate 38 7)).wf = true ∧
    (Instr.optMss 4 0xFFFF).format = .tcpOpt ∧ (Instr.optMss 4 0xFFFF).wf = true := by decide

theorem witness_CommandWordIsTheEncodingOfItsMeaning :
    decodeCommand 0x0000FF06 = .ok (.segFindOption 0xFF) ∧ decodeCommand 0x00000030 = .ok .sqStart := ⟨rfl, rfl⟩

theorem witness_IllegalCommandWordOnlyRaisesIllegalCommand :
    State.reset.status.fatal = false ∧ ¬ legalWord 0x00010001 ∧ ¬ legalWord 0x00000405 ∧ ¬ legalWord 0x00000209 ∧ ¬ legalWord 0 ∧
    legalWord 0x00000305 ∧ legalWord 0x0000FF08 := by
  refine ⟨?_, ?_, ?_, ?_, ?_, ?_, ?_⟩ <;> decide

theorem witness_HaltedBlockRefusesEveryCommand :
    haltedState.status.fatal = true ∧ command .segEncode ∧ command (.segNew true) := by decide

theorem witness_StepRunsTheFetchedInstruction :
    (nextEvent (told (.txn .host [0, 1]) State.reset) (.txn .host [0, 1]) [] ∧
      (told (.txn .host [0, 1]) State.reset).mayIssue .host = true ∧ decodeTxn [0, 1] = .ok (.regRead 1)) ∧
    (nextEvent (told (.verdict .cont) { running (.handle .eth) with seqr := ⟨.handle .eth, 0, 0, 0, 0x0806, 0, 0⟩ }) (.verdict .cont) [] ∧
      (running (.handle .eth)).handling = some .eth ∧ (running (.handle .eth)).workerHeld = false ∧ decodeEtype 0x0806 = .ok .etypeArp) ∧
    (nextEvent (told (.verdict .cont) { running (.handle .ip) with seqr := ⟨.handle .ip, 0, 0, 0, 17, 0, 0⟩ }) (.verdict .cont) [] ∧
      (running (.handle .ip)).handling = some .ip ∧ decodeIpproto 17 = .ok .ipprotoUdp) ∧
    ((scanning [4, 2]).scan = .scanning [4, 2] [] ∧ decodeOption [4, 2] = .ok (.optSackperm 2)) ∧
    (nextEvent (told (.resume .host) { State.reset with hostHeld := true }) (.resume .host) [] ∧
      (told (.resume .host) { State.reset with hostHeld := true }).hostHeld = true ∧
      txqHasRoom (told (.resume .host) { State.reset with hostHeld := true })) ∧
    (nextEvent (told (.resume .worker) { State.reset with workerHeld := true }) (.resume .worker) [] ∧
      (told (.resume .worker) { State.reset with workerHeld := true }).workerHeld = true ∧
      txqHasRoom (told (.resume .worker) { State.reset with workerHeld := true })) := by
  refine ⟨⟨?_, ?_, rfl⟩, ⟨?_, ?_, ?_, rfl⟩, ⟨?_, ?_, rfl⟩, ⟨?_, rfl⟩, ⟨?_, ?_, ?_⟩, ⟨?_, ?_, ?_⟩⟩ <;> decide

theorem witness_RegReadGivesTheValueAndChangesNothing :
    (0x0B, int State.reset.track.nextTrk) ∈ registerTable State.reset ∧ (0x59, int State.reset.lpay.plen) ∈ registerTable State.reset ∧
    State.reset.opts[(39 : Fin 40).val]? = some .eol ∧
    (0xA8 ∉ (registerTable State.reset).map Prod.fst ∧ noSlot 0xA8) ∧
    (0x1F ∉ (registerTable State.reset).map Prod.fst ∧ noSlot 0x1F) := by
  refine ⟨?_, ?_, ?_, ?_, ?_⟩ <;> decide

theorem witness_IntegerRegisterKeepsTheValueCutToItsWidth :
    ((0x19, 6, some 40) ∈ integerRegisters State.reset.cfg ∧ inRange (some 40) (40#64).toNat) ∧
    ((0x15, 9, none) ∈ integerRegisters State.reset.cfg ∧ inRange none (0x3FF#64).toNat) ∧
    ((0x5D, 32, some 65723) ∈ integerRegisters State.reset.cfg ∧ inRange (some 65723) (65723#64).toNat) := by decide

theorem witness_SlotKeepsTheWrittenRecord :
    State.reset.opts.length = 40 ∧ ∀ tag data, TcpOption.unknown 30 (List.replicate 38 1) = .unknown tag data → data.length ≤ 38 := by
  refine ⟨by decide, ?_⟩
  rintro tag data ⟨⟩
  decide

theorem witness_IgnoredRegisterWritesChangeNothing :
    ((0x01#8) ≠ 0x00 ∧ 0x01 ∉ (integerRegisters State.reset.cfg).map Prod.fst ∧ noSlot 0x01) ∧
    ((0xFF#8) ≠ 0x00 ∧ 0xFF ∉ (integerRegisters State.reset.cfg).map Prod.fst ∧ noSlot 0xFF) ∧
    ((0x19, 6, some 40) ∈ integerRegisters State.reset.cfg ∧ ¬ inRange (some 40) (41#64).toNat) ∧
    38 < (List.replicate 39 (1 : Byte)).length ∧
    (∀ o, Value.num 1 ≠ .opt o) ∧
    (0x10 ∈ (integerRegisters State.reset.cfg).map Prod.fst ∧ ∀ x, Value.opt .nop ≠ .num x) := by
  exact ⟨by decide, by decide, by decide, by decide, by simp, by decide, by simp⟩

theorem witness_BufReadGivesTheByteOrFaults :
    3 ≤ (3#8).toNat ∧
    ((2, .obuf, 65723, []) ∈ bufferTable State.reset ∧ 65723 ≤ (65723#32).toNat) ∧
    ((0, .ibuf, 65535, []) ∈ bufferTable State.reset ∧ (65534#32).toNat < 65535 ∧ Memory.read? [] (65534#32).toNat = none) ∧
    ((0, .ibuf, 65535, [(0, 9)]) ∈ bufferTable (winAt 0 [9]) ∧ (0#32).toNat < 65535 ∧ Memory.read? [(0, 9)] (0#32).toNat = some 9) := by
  decide

theorem witness_BufWriteWritesOneByte :
    3 ≤ (0xFF#8).toNat ∧
    ((0, .ibuf, 65535, []) ∈ bufferTable State.reset ∧ 65535 ≤ (65535#32).toNat) ∧
    ((1, .pbuf, 65535, []) ∈ bufferTable State.reset ∧ (65534#32).toNat < 65535) ∧
    ((2, .obuf, 65723, []) ∈ bufferTable State.reset ∧ (65722#32).toNat < 65723) := by decide

theorem witness_RaisingCommandWritesOnlyStatus :
    ∃ t, command .segDecode ∧ Instr.segDecode ≠ .txEnqueue ∧ exec .segDecode State.reset = .next t ∧ t.status.err ≠ .none :=
  ⟨after (exec .segDecode State.reset), by decide, by decide, eq_after (by decide), by decide⟩

theorem witness_CommandRaisesOnlyItsListedCodes :
    ∃ t, command .txEnqueue ∧ exec .txEnqueue (fullTxq .drop) = .next t ∧
      ((fullTxq .drop).txRoom = true ∨ (fullTxq .drop).cfg.txqFull = .drop ∨ (fullTxq .drop).status.fatal = true) :=
  ⟨after (exec .txEnqueue (fullTxq .drop)), by decide, eq_after (by decide), by decide⟩

/-- V-SEG-12: a chain of 7 bytes. -/
def oddChain : State := segWith Seg.empty [.mss 1460, .ws 7] []

/-- V-SEG-16: a record that cannot be encoded. -/
def badChain : State := segWith Seg.empty [.unknown 2 [0x05, 0xB4]] []

theorem witness_OnlyEncodingCommandsSetFatal :
    (∃ t, command .segEncode ∧ exec .segEncode oddChain = .next t ∧ oddChain.status.fatal = false ∧ t.status.fatal = true) ∧
    (∃ t, command (.optEncode 0) ∧ exec (.optEncode 0) badChain = .next t ∧ badChain.status.fatal = false ∧ t.status.fatal = true) ∧
    ∃ t, seqStep { running .idle with rxq := [[1]] } = .next t :=
  ⟨⟨after (exec .segEncode oddChain), by decide, eq_after (by decide), by decide, by decide⟩,
   ⟨after (exec (.optEncode 0) badChain), by decide, eq_after (by decide), by decide, by decide⟩,
   ⟨after (seqStep { running .idle with rxq := [[1]] }), eq_after (by decide)⟩⟩

theorem witness_OnlyResetClearsFatalAndLeavesRunning :
    ∃ t, step { running .idle with status := haltedState.status, inputs := [.seq] } = .next t ∧
      State.status { running .idle with status := haltedState.status, inputs := [.seq] } = haltedState.status ∧
      haltedState.status.fatal = true ∧ (running .idle).sq.running = true ∧
      ¬ State.ResetNext { running .idle with status := haltedState.status, inputs := [.seq] } :=
  ⟨after (step { running .idle with status := haltedState.status, inputs := [.seq] }), eq_after (by decide), rfl, rfl, rfl,
    by simp [State.ResetNext]⟩

/-- V-SEG-9h, V-SEG-19, and a frame whose last byte was never written. -/
theorem witness_UnwrittenBytesFault :
    (let s : State := { State.reset with ibuf := memAt 0 [1, 2, 3, 4, 5], win := ⟨0, 20⟩ }
     s.status.fatal = false ∧ Instr.segDecode ∈ windowCommands ∧ ¬ badWindow s ∧ firstUnwritten s .ibuf s.win.ioff.toNat s.win.ilen.toNat 5) ∧
    (let s : State := { segWith Seg.empty [] [] with seg := { Seg.empty with plen := 1 } }
     encChain s.chain = some [] ∧ goodLength [] ∧ firstUnwritten s .pbuf 0 s.seg.plen.toNat 0) ∧
    (let s : State := { State.reset with obuf := memAt 0 [1], out := ⟨0, 0, 2⟩ }
     s.txRoom = true ∧ firstUnwritten s .obuf 0 s.out.txlen.toNat 1) := by decide

theorem witness_SegNewMakesAnEmptySegment : State.reset.status.fatal = false := rfl

/-- A window that ends one byte behind IBUF (V-SEG-9g). -/
def beyond : State := { State.reset with win := ⟨65535, 1⟩ }

/-- V-L1-3. -/
def truncated30 : List Nat := [0,0,0,0,0,0,0,0,0,0,0,0,0xF0,0,0,0,0,0,0,0,0,0,0,0,0,0,0,0,0,0]

theorem witness_SegDecodeFollowsItsRule :
    (beyond.status.fatal = false ∧ badWindow beyond) ∧
    ((winAt 0 (List.replicate 19 0)).WindowIs (nb (List.replicate 19 0)) ∧ (nb (List.replicate 19 0)).length < 20) ∧
    ((winAt 0 (List.replicate 20 0)).WindowIs (nb (List.replicate 20 0)) ∧ (byteAt (nb (List.replicate 20 0)) 12).toNat / 16 * 4 < 20) ∧
    ((winAt 0 truncated30).WindowIs (nb truncated30) ∧ 20 ≤ (byteAt (nb truncated30) 12).toNat / 16 * 4 ∧
      (nb truncated30).length < (byteAt (nb truncated30) 12).toNat / 16 * 4) ∧
    ((winAt 0 (syn0.take 20 ++ [2, 5, 5, 0xB4])).WindowIs (nb (syn0.take 20 ++ [2, 5, 5, 0xB4])) ∧
      decodeOptions (nb [2, 5, 5, 0xB4]) = none) ∧
    ((winAt 0 syn0).WindowIs (nb syn0) ∧ (byteAt (nb syn0) 12).toNat / 16 * 4 = 24 ∧ (nb syn0).length = 24 ∧
      decodeOptions (((nb syn0).take 24).drop 20) = some [.mss 1460]) := by
  refine ⟨?_, ?_, ?_, ?_, ?_, ?_⟩ <;> decide

theorem witness_SegEncodeFollowsItsRule :
    (badChain.status.fatal = false ∧ encChain badChain.chain = none) ∧
    (encChain oddChain.chain = some (nb [2, 4, 5, 0xB4, 3, 3, 7]) ∧ ¬ goodLength (nb [2, 4, 5, 0xB4, 3, 3, 7])) ∧
    (encChain (segWith synSeg [.mss 1460] [0x68, 0x69]).chain = some (nb [2, 4, 5, 0xB4]) ∧ goodLength (nb [2, 4, 5, 0xB4]) ∧
      (nb [0x68, 0x69]).length = (segWith synSeg [.mss 1460] [0x68, 0x69]).seg.plen.toNat ∧
      (segWith synSeg [.mss 1460] [0x68, 0x69]).Holds .pbuf 0 (nb [0x68, 0x69])) := by decide

theorem witness_SegFindOptionFindsTheFirst :
    ((segWith Seg.empty [.nop, .mss 536, .mss 1460] []).chain[1]? = some (.mss 536) ∧ (TcpOption.mss 536).kind = 2 ∧
      (∀ j p, j < 1 → (segWith Seg.empty [.nop, .mss 536, .mss 1460] []).chain[j]? = some p → p.kind ≠ 2)) ∧
    (State.reset.status.fatal = false ∧ ∀ o ∈ State.reset.chain, o.kind ≠ 2) := by
  refine ⟨⟨by decide, by decide, ?_⟩, by decide, by decide⟩
  intro j p hj hp
  obtain rfl : j = 0 := by omega
  obtain rfl : TcpOption.nop = p := Option.some.inj hp
  decide

theorem witness_SegChecksumWritesResultOnly :
    (encChain badChain.chain = none ∧ ¬ goodLength (nb [2, 4, 5, 0xB4, 3, 3, 7])) ∧
    (synState.status.fatal = false ∧ encChain synState.chain = some (nb [2, 4, 5, 0xB4]) ∧ goodLength (nb [2, 4, 5, 0xB4]) ∧
      ([] : Bytes).length = synState.seg.plen.toNat ∧ synState.Holds .pbuf 0 [] ∧
      tcpHeader (nb syn0) synState.seg 24 0 ∧ (nb syn0).drop 20 = nb [2, 4, 5, 0xB4] ++ []) := by
  unfold tcpHeader
  decide

theorem witness_SegGetRawStoresTheChecksumAndTheBytes :
    (encChain badChain.chain = none ∧ ¬ goodLength (nb [2, 4, 5, 0xB4, 3, 3, 7])) ∧
    (synState.status.fatal = false ∧ encChain synState.chain = some (nb [2, 4, 5, 0xB4]) ∧ goodLength (nb [2, 4, 5, 0xB4]) ∧
      ([] : Bytes).length = synState.seg.plen.toNat ∧ synState.Holds .pbuf 0 []) := by decide

theorem witness_CsumVerifyWithPseudoHeader :
    (beyond.status.fatal = false ∧ badWindow beyond) ∧
    ((winAt 0 (List.replicate 19 0)).WindowIs (nb (List.replicate 19 0)) ∧ (nb (List.replicate 19 0)).length < 20) ∧
    ((winAt 0 syn1).WindowIs (nb syn1) ∧ 20 ≤ (nb syn1).length) ∧
    ((winAt 0 (List.replicate 7 0)).WindowIs (nb (List.replicate 7 0)) ∧ (nb (List.replicate 7 0)).length < 8) ∧
    ((winAt 0 udpB).WindowIs (nb udpB) ∧ 8 ≤ (nb udpB).length) := by decide

theorem witness_CsumVerifyWithoutPseudoHeader :
    (beyond.status.fatal = false ∧ badWindow beyond) ∧
    ((winAt 0 [0, 0, 0]).WindowIs (nb [0, 0, 0]) ∧ (nb [0, 0, 0]).length < 4) ∧
    ((winAt 0 [0, 0, 0, 0]).WindowIs (nb [0, 0, 0, 0]) ∧ 4 ≤ (nb [0, 0, 0, 0]).length ∧ (nb [0, 0, 0, 0]).length < 20) ∧
    ((winAt 0 (0x44 :: iphB.tail)).WindowIs (nb (0x44 :: iphB.tail)) ∧ (byteAt (nb (0x44 :: iphB.tail)) 0).toNat % 16 < 5) ∧
    ((winAt 0 (0x46 :: iphB.tail)).WindowIs (nb (0x46 :: iphB.tail)) ∧ (byteAt (nb (0x46 :: iphB.tail)) 0).toNat % 16 = 6 ∧
      (nb (0x46 :: iphB.tail)).length < 4 * 6) ∧
    ((winAt 0 iphB).WindowIs (nb iphB) ∧ (byteAt (nb iphB) 0).toNat % 16 = 5 ∧ (nb iphB).length = 4 * 5) := by decide

theorem witness_ChecksumInputIsPseudoHeaderAndSegment : 20 ≤ (nb (syn1.take 20)).length := by decide

theorem witness_ChecksumArithmetic : ([] : Bytes).length % 2 = 0 ∧ (nb [1, 2]).length % 2 = 0 := by decide

theorem witness_OptDecodeFollowsItsRule :
    (beyond.status.fatal = false ∧ badWindow beyond) ∧
    ((winAt 0 (List.replicate 41 0)).WindowIs (nb (List.replicate 41 0)) ∧ 40 < (nb (List.replicate 41 0)).length) ∧
    ((winAt 0 [0xFE, 8, 1, 2]).WindowIs (nb [0xFE, 8, 1, 2]) ∧ decodeOptions (nb [0xFE, 8, 1, 2]) = none) ∧
    ((winAt 0 (List.replicate 40 1)).WindowIs (nb (List.replicate 40 1)) ∧
      decodeOptions (nb (List.replicate 40 1)) = some (List.replicate 40 .nop)) := by
  refine ⟨?_, ?_, ?_, ?_⟩ <;> decide

theorem witness_OptEncodeFollowsItsRule :
    (State.reset.status.fatal = false ∧ State.reset.seg.optcnt.toNat ≤ (0#8).toNat) ∧
    ((0#8).toNat < badChain.seg.optcnt.toNat ∧ badChain.opts[(0#8).toNat]? = some (.unknown 2 [5, 0xB4]) ∧
      encOpt (.unknown 2 [5, 0xB4]) = none) ∧
    ((1#8).toNat < oddChain.seg.optcnt.toNat ∧ oddChain.opts[(1#8).toNat]? = some (.ws 7) ∧ encOpt (.ws 7) = some (nb [3, 3, 7])) ∧
    (8#8).toNat ∈ [0, 1, 2, 3, 4, 8] ∧
    ((0xFE#8).toNat ∉ [0, 1, 2, 3, 4, 8] ∧ (40#8).toNat = 2 + (nb (List.replicate 38 7)).length) ∧
    [TcpOption.nop, .ws 7].map encOpt = [nb [1], nb [3, 3, 7]].map some ∧
    ∃ o ∈ [TcpOption.nop, .unknown 8 []], encOpt o = none := by decide

theorem witness_OptionRecordsExtendTheScannedChain :
    (scanning (List.replicate 10 1)).scan = .scanning (nb (List.replicate 10 1)) [] ∧ 10 ≤ (nb (List.replicate 10 1)).length ∧
    2 ≤ (10#8).toNat ∧ (10#8).toNat ≤ (nb (List.replicate 10 1)).length ∧ (5#8) ≠ 4 ∧ (2#8) ≠ 3 ∧ (1#8) ≠ 2 ∧ (9#8) ≠ 10 ∧
    (scanning [4]).scan = .scanning (nb [4]) [] ∧ (nb [4]).length < 2 ∧ (1#8).toNat < 2 ∧ (nb [4]).length < (2#8).toNat := by decide

theorem witness_ScanFollowsItsRule :
    (knownTag 254 = false ∧ (40#8).toNat = 2 + (nb (List.replicate 38 7)).length) ∧
    ((3#8) ≠ 0 ∧ (3#8) ≠ 1) ∧ (1#8).toNat < 2 ∧ 2 + (nb [5]).length < (4#8).toNat ∧
    (5#8) ≠ 4 ∧ (4#8) ≠ 3 ∧ (3#8) ≠ 2 ∧ (9#8) ≠ 10 := by decide

theorem witness_ScanningRecordByRecordIsDecodeOptions :
    ((scanning [1, 1, 0, 0xFF]).scan = .scanning (nb [1, 1, 0, 0xFF]) [] ∧
      decodeOptions (nb [1, 1, 0, 0xFF]) = some [.nop, .nop, .eol]) ∧
    ((scanning [4, 3, 0]).scan = .scanning (nb [4, 3, 0]) [] ∧ decodeOptions (nb [4, 3, 0]) = none) := by decide

/-- The chain of V-L1-5, which has every kind. -/
def everyKind : List TcpOption :=
  [.nop, .mss 1460, .ws 7, .sackperm, .ts 1 2, .unknown 30 [0xAA, 0xBB], .nop, .nop, .nop, .eol]

/-- Its encoding (V-L1-6). -/
def everyKindBytes : List Nat :=
  [1, 2, 4, 5, 0xB4, 3, 3, 7, 4, 2, 8, 10, 0, 0, 0, 1, 0, 0, 0, 2, 0x1E, 4, 0xAA, 0xBB, 1, 1, 1, 0]

theorem witness_OptionChainRoundTrip :
    eolOnlyLast everyKind ∧ encChain everyKind = some (nb everyKindBytes) ∧ (nb everyKindBytes).length ≤ 40 := by decide

/-- V-L1-5 before SEG_ENCODE. -/
def everyState : State :=
  segWith { Seg.empty with sport := 1234, dport := 443, seqno := 0xFFFFFFFF, ackno := 0x80000000, flags := 0x1FF, win := 1,
                           csum := 0xBEEF, urp := 0xFFFF } everyKind [0xDE, 0xAD, 0xBE]

/-- The 51 bytes of V-L1-5. -/
def everyBytes : List Nat :=
  [0x04, 0xD2, 0x01, 0xBB, 0xFF, 0xFF, 0xFF, 0xFF, 0x80, 0, 0, 0, 0xC1, 0xFF, 0, 1, 0xBE, 0xEF, 0xFF, 0xFF] ++
  everyKindBytes ++ [0xDE, 0xAD, 0xBE]

theorem everyState_inv : everyState.Inv where
  cfg := by decide
  buffers := by simp only [State.BuffersOk, Memory.Ok]; decide
  ranges := by simp only [State.RangesOk]; decide
  slots := by simp only [State.SlotsOk]; decide
  queues := by simp only [State.QueuesOk]; decide
  sequencer := by simp only [State.SequencerOk]; decide
  windows := by simp only [State.WindowsOk]; decide
  scan := trivial

theorem synState_inv : synState.Inv where
  cfg := by decide
  buffers := by simp only [State.BuffersOk, Memory.Ok]; decide
  ranges := by simp only [State.RangesOk]; decide
  slots := by simp only [State.SlotsOk]; decide
  queues := by simp only [State.QueuesOk]; decide
  sequencer := by simp only [State.SequencerOk]; decide
  windows := by simp only [State.WindowsOk]; decide
  scan := trivial

theorem witness_SegmentRoundTrip :
    everyState.Inv ∧ everyState.status.fatal = false ∧ everyState.out.ooff = 0 ∧ eolOnlyLast everyState.chain ∧
    ∃ t, exec .segEncode everyState = .next t ∧ t.status.err = .none ∧
      (winAt 0 everyBytes).status.fatal = false ∧ (winAt 0 everyBytes).win.ilen = t.out.olen ∧
      (winAt 0 everyBytes).win.ioff.toNat + (winAt 0 everyBytes).win.ilen.toNat ≤ (winAt 0 everyBytes).cfg.ibufBytes ∧
      ∀ k, k < t.out.olen.toNat → (winAt 0 everyBytes).byte? .ibuf ((winAt 0 everyBytes).win.ioff.toNat + k) = t.byte? .obuf k :=
  ⟨everyState_inv, by decide, by decide, by decide, after (exec .segEncode everyState), eq_after (by decide),
    by decide, by decide, by decide, by decide, by decide⟩

/-- V-L1-4, the NS flag. -/
theorem witness_EachFlagHasItsOwnBit :
    8 < 9 ∧ State.status (segWith { Seg.empty with flags := 0x100 } [] []) = Status.reset ∧
    (segWith { Seg.empty with flags := 0x100 } [] []).out.ooff = 0 ∧
    (segWith { Seg.empty with flags := 0x100 } [] []).seg = { Seg.empty with flags := 1#9 <<< 8 } ∧
    (∃ t, exec .segEncode (segWith { Seg.empty with flags := 0x100 } [] []) = .next t ∧
      let u := winAt 9 [0,0,0,0,0,0,0,0,0,0,0,0,0x51,0,0,0,0,0,0,0]
      u.status.fatal = false ∧ u.win.ilen = 20 ∧ u.win.ioff.toNat + 20 ≤ u.cfg.ibufBytes ∧
        ∀ k, k < 20 → u.byte? .ibuf (u.win.ioff.toNat + k) = t.byte? .obuf k) :=
  ⟨by decide, rfl, rfl, by decide, after (exec .segEncode (segWith { Seg.empty with flags := 0x100 } [] [])), eq_after (by decide),
    by decide, by decide, by decide, by decide⟩

theorem witness_EncodedHeaderLengthIsLegal :
    (∃ t, oddChain.status.fatal = false ∧ oddChain.out.ooff = 0 ∧ exec .segEncode oddChain = .next t) ∧
    ∃ t, synState.status.fatal = false ∧ synState.out.ooff = 0 ∧ exec .segEncode synState = .next t :=
  ⟨⟨after (exec .segEncode oddChain), by decide, by decide, eq_after (by decide)⟩,
   ⟨after (exec .segEncode synState), by decide, by decide, eq_after (by decide)⟩⟩

theorem witness_FinalisedSegmentVerifies :
    synState.Inv ∧ synState.status.fatal = false ∧ synState.out.ooff = 0 ∧
    ∃ t, exec .segGetRaw synState = .next t ∧ t.status.err = .none ∧
      let u := { winAt 0 syn1 with ph := phA }
      u.status.fatal = false ∧ u.ph = synState.ph ∧ u.win.ilen = t.out.olen ∧
        u.win.ioff.toNat + u.win.ilen.toNat ≤ u.cfg.ibufBytes ∧
        (∀ k, k < t.out.olen.toNat → u.byte? .ibuf (u.win.ioff.toNat + k) = t.byte? .obuf k) ∧
        (nb syn1).length = t.out.olen.toNat ∧ t.Holds .obuf 0 (nb syn1) :=
  ⟨synState_inv, by decide, by decide, after (exec .segGetRaw synState), eq_after (by decide),
    by decide, by decide, by decide, by decide, by decide, by decide, by decide, by decide⟩

theorem witness_EthParseFollowsItsRule :
    (beyond.status.fatal = false ∧ badWindow beyond) ∧
    ((winAt 0 (List.replicate 13 0)).WindowIs (nb (List.replicate 13 0)) ∧ (nb (List.replicate 13 0)).length < 14) ∧
    ((winAt 0 (List.replicate 14 0)).WindowIs (nb (List.replicate 14 0)) ∧ 14 ≤ (nb (List.replicate 14 0)).length) := by decide

theorem witness_ArpParseFollowsItsRule :
    (beyond.status.fatal = false ∧ badWindow beyond) ∧
    ((winAt 0 (List.replicate 27 0)).WindowIs (nb (List.replicate 27 0)) ∧ (nb (List.replicate 27 0)).length < 28) ∧
    ((winAt 0 (List.replicate 28 0)).WindowIs (nb (List.replicate 28 0)) ∧ be16At (nb (List.replicate 28 0)) 0 ≠ 1) ∧
    ((winAt 0 arpB).WindowIs (nb arpB) ∧ 28 ≤ (nb arpB).length ∧ be16At (nb arpB) 0 = 1 ∧ be16At (nb arpB) 2 = 0x0800 ∧
      byteAt (nb arpB) 4 = 6 ∧ byteAt (nb arpB) 5 = 4) := by decide

theorem witness_Ip4ParseFollowsItsRule :
    (beyond.status.fatal = false ∧ badWindow beyond) ∧
    ((winAt 0 (List.replicate 19 0)).WindowIs (nb (List.replicate 19 0)) ∧ (nb (List.replicate 19 0)).length < 20) ∧
    ((winAt 0 (0x65 :: iphB.tail)).WindowIs (nb (0x65 :: iphB.tail)) ∧ (byteAt (nb (0x65 :: iphB.tail)) 0).toNat / 16 ≠ 4) ∧
    ((winAt 0 (0x44 :: iphB.tail)).WindowIs (nb (0x44 :: iphB.tail)) ∧ 4 * ((byteAt (nb (0x44 :: iphB.tail)) 0).toNat % 16) < 20) ∧
    ((winAt 0 (0x46 :: iphB.tail)).WindowIs (nb (0x46 :: iphB.tail)) ∧ (byteAt (nb (0x46 :: iphB.tail)) 0).toNat / 16 = 4 ∧
      4 * ((byteAt (nb (0x46 :: iphB.tail)) 0).toNat % 16) = 24 ∧ (nb (0x46 :: iphB.tail)).length < 24) ∧
    ((winAt 0 ([0x45, 0, 0, 0x13] ++ iphB.drop 4)).WindowIs (nb ([0x45, 0, 0, 0x13] ++ iphB.drop 4)) ∧
      (byteAt (nb ([0x45, 0, 0, 0x13] ++ iphB.drop 4)) 2).toNat * 256 + (byteAt (nb ([0x45, 0, 0, 0x13] ++ iphB.drop 4)) 3).toNat < 20) ∧
    ((winAt 0 iphB).WindowIs (nb iphB) ∧ (nb iphB).length < (byteAt (nb iphB) 2).toNat * 256 + (byteAt (nb iphB) 3).toNat) ∧
    ((winAt 0 ([0x45, 0, 0, 0x14] ++ iphB.drop 4)).WindowIs (nb ([0x45, 0, 0, 0x14] ++ iphB.drop 4)) ∧
      (byteAt (nb ([0x45, 0, 0, 0x14] ++ iphB.drop 4)) 2).toNat * 256 + (byteAt (nb ([0x45, 0, 0, 0x14] ++ iphB.drop 4)) 3).toNat = 20) := by
  refine ⟨?_, ?_, ?_, ?_, ?_, ?_, ?_, ?_⟩ <;> decide

theorem witness_Icmp4ParseFollowsItsRule :
    (beyond.status.fatal = false ∧ badWindow beyond) ∧
    ((winAt 0 (List.replicate 7 0)).WindowIs (nb (List.replicate 7 0)) ∧ (nb (List.replicate 7 0)).length < 8) ∧
    ((winAt 0 (List.replicate 8 0)).WindowIs (nb (List.replicate 8 0)) ∧ 8 ≤ (nb (List.replicate 8 0)).length) := by decide

theorem witness_UdpParseFollowsItsRule :
    (beyond.status.fatal = false ∧ badWindow beyond) ∧
    ((winAt 0 (List.replicate 7 0)).WindowIs (nb (List.replicate 7 0)) ∧ (nb (List.replicate 7 0)).length < 8) ∧
    ((winAt 0 [0, 1, 0, 2, 0, 7, 0, 0]).WindowIs (nb [0, 1, 0, 2, 0, 7, 0, 0]) ∧
      (byteAt (nb [0, 1, 0, 2, 0, 7, 0, 0]) 4).toNat * 256 + (byteAt (nb [0, 1, 0, 2, 0, 7, 0, 0]) 5).toNat < 8) ∧
    ((winAt 0 [0, 1, 0, 2, 0, 9, 0, 0]).WindowIs (nb [0, 1, 0, 2, 0, 9, 0, 0]) ∧
      (nb [0, 1, 0, 2, 0, 9, 0, 0]).length <
        (byteAt (nb [0, 1, 0, 2, 0, 9, 0, 0]) 4).toNat * 256 + (byteAt (nb [0, 1, 0, 2, 0, 9, 0, 0]) 5).toNat) ∧
    ((winAt 0 [0, 1, 0, 2, 0, 8, 0, 0]).WindowIs (nb [0, 1, 0, 2, 0, 8, 0, 0]) ∧
      (byteAt (nb [0, 1, 0, 2, 0, 8, 0, 0]) 4).toNat * 256 + (byteAt (nb [0, 1, 0, 2, 0, 8, 0, 0]) 5).toNat = 8) := by decide

theorem witness_TxEnqueueFollowsItsRule :
    (({ State.reset with obuf := memAt 0 [7, 8], out := ⟨0, 0, 2⟩ } : State).Holds .obuf 0 [7, 8] ∧ txqHasRoom State.reset) ∧
    ((fullTxq .drop).status.fatal = false ∧ ¬ txqHasRoom (fullTxq .drop) ∧
      (fullTxq .drop).cfg.txqFull = .drop ∧ ([] : Bytes).length = (fullTxq .drop).out.txlen.toNat ∧ (fullTxq .drop).Holds .obuf 0 []) ∧
    (¬ txqHasRoom (fullTxq .hold) ∧ (fullTxq .hold).cfg.txqFull = .hold ∧ (fullTxq .hold).issuer = .host ∧
      State.issuer { fullTxq .hold with issuer := .worker } = .worker) ∧
    (let s : State := told (.resume .host) { fullTxq .hold with hostHeld := true, status := haltedState.status }
     (next? (step s)).isSome = true ∧ ¬ txqHasRoom s ∧ s.inputs.head? ≠ some .reset ∧ s.hostHeld = true ∧
       nextEvent s (.resume .host) []) ∧
    (let s : State := told (.verdict .cont) { running (.handle .tcp) with workerHeld := true }
     nextEvent s (.verdict .cont) [] ∧ s.workerHeld = true) := by
  refine ⟨?_, ?_, ?_, ?_, ?_⟩ <;> decide

theorem witness_SqStartStartsTheWorkerOnce :
    State.reset.status.fatal = false ∧ State.reset.sq.running = false ∧
    (running .idle).status.fatal = false ∧ (running .idle).sq.running = true := by decide

theorem witness_SelectorsChooseTheNextLayer :
    (running (.handle .eth)).seqr.phase = .handle .eth ∧ (running (.handle .ip)).seqr.phase = .handle .ip ∧
    (Instr.etypeArp.format = .etype16 ∧ State.reset.seqr.phase ≠ .handle .eth) ∧
    (Instr.ipprotoTcp.format = .ipproto8 ∧ (running (.handle .eth)).seqr.phase ≠ .handle .ip) := by decide

theorem witness_VerdictMovesThePhaseByTheTable :
    nextEvent (told (.verdict .drop) (running (.handle .ip))) (.verdict .drop) [] ∧
    (told (.verdict .drop) (running (.handle .ip))).sq.running = true ∧
    (told (.verdict .drop) (running (.handle .ip))).seqr.phase = .handle .ip ∧
    (told (.verdict .drop) (running (.handle .ip))).workerHeld = false := by decide

/-- RUNNING and IDLE with small buffers, these frames waiting, and SEQ's turn. -/
def waiting (q : List Frame) : State :=
  { running .idle with cfg := { Config.standard with ibufBytes := 60 }, rxq := q, inputs := [.seq] }

theorem witness_DequeueFollowsItsRule :
    (nextEvent (waiting []) .seq [] ∧ (waiting []).sq.running = true ∧ (waiting []).status.fatal = false ∧
      (waiting []).seqr.phase = .idle ∧ (waiting []).rxq = []) ∧
    (nextEvent (waiting [List.replicate 61 0]) .seq [] ∧ (waiting [List.replicate 61 0]).rxq = List.replicate 61 0 :: [] ∧
      (waiting [List.replicate 61 0]).cfg.ibufBytes < (List.replicate 61 (0 : Byte)).length) ∧
    (nextEvent (waiting [List.replicate 60 0]) .seq [] ∧ (waiting [List.replicate 60 0]).rxq = List.replicate 60 0 :: [] ∧
      (List.replicate 60 (0 : Byte)).length ≤ (waiting [List.replicate 60 0]).cfg.ibufBytes) := by decide

/-- RUNNING in PARSE(l) with the layer's bytes W at IBUF[0..) and SEQ's turn. -/
def parsing (l : Layer) (W : List Nat) : State :=
  { running (.parse l) with
    ibuf := memAt 0 W
    seqr := ⟨.parse l, BitVec.ofNat 32 W.length, 0, BitVec.ofNat 32 W.length, 0, 0x0A000002, 0x0A000001⟩
    inputs := [.seq] }

/-- IPH-B with its 24 payload bytes. -/
def ipFrame : List Nat := iphB ++ List.replicate 24 0

/-- The state whose parser runs in a parse step. -/
def windowed (l : Layer) (W : List Nat) : State :=
  { parsing l W with inputs := [], win := ⟨0, BitVec.ofNat 32 W.length⟩ }

/-- Every layer's parser completes on some frame, and one that is too short is dropped; the second commands complete after them. -/
theorem witness_ParseStepsFollowTheTable :
    (∀ p ∈ [(Layer.eth, List.replicate 14 0), (.arp, arpB), (.ip, ipFrame), (.icmp, icmpB), (.udp, udpB), (.tcp, syn1)],
      nextEvent (parsing p.1 p.2) .seq [] ∧ (parsing p.1 p.2).sq.running = true ∧ (parsing p.1 p.2).status.fatal = false ∧
        (parsing p.1 p.2).seqr.phase = .parse p.1) ∧
    (∃ u, exec .ethParse (windowed .eth (List.replicate 14 0)) = .next u ∧ u.status.err = .none) ∧
    (∃ u, exec .ethParse (windowed .eth (List.replicate 13 0)) = .next u ∧ u.status.err ≠ .none) ∧
    (∃ u, exec .arpParse (windowed .arp arpB) = .next u ∧ u.status.err = .none) ∧
    (∃ u w, exec .ip4Parse (windowed .ip ipFrame) = .next u ∧ u.status.err = .none ∧ exec .csumVerifyIp4 u = .next w) ∧
    (∃ u w, exec .icmp4Parse (windowed .icmp icmpB) = .next u ∧ u.status.err = .none ∧ exec .csumVerifyIcmp u = .next w) ∧
    (∃ u w, exec .udpParse (windowed .udp udpB) = .next u ∧ u.status.err = .none ∧
      exec .csumVerifyUdp { u with win := { u.win with ilen := u.udp.len.setWidth 32 }, ph := ⟨0x0A000002, 0x0A000001, 17, u.udp.len⟩ } = .next w) ∧
    (∃ u w, exec .segDecode { windowed .tcp syn1 with ph := ⟨0x0A000002, 0x0A000001, 6, 24⟩ } = .next u ∧ u.status.err = .none ∧
      exec .csumVerifyTcp u = .next w) :=
  ⟨by decide,
   ⟨_, eq_after (by decide), by decide⟩, ⟨_, eq_after (by decide), by decide⟩, ⟨_, eq_after (by decide), by decide⟩,
   ⟨_, _, eq_after (by decide), by decide, eq_after (by decide)⟩, ⟨_, _, eq_after (by decide), by decide, eq_after (by decide)⟩,
   ⟨_, _, eq_after (by decide), by decide, eq_after (by decide)⟩, ⟨_, _, eq_after (by decide), by decide, eq_after (by decide)⟩⟩

theorem witness_DecodeErrorsNeverStopTheLoop :
    (nextEvent (parsing .arp arpB) .seq [] ∧ (parsing .arp arpB).sq.running = true ∧ (parsing .arp arpB).status.fatal = false ∧
      (parsing .arp arpB).seqr.phase = .parse .arp ∧ (parsing .arp arpB).seqr.noff.toNat = 0 ∧
      (nb arpB).length = (parsing .arp arpB).seqr.nlen.toNat ∧ 0 + 28 ≤ (parsing .arp arpB).cfg.ibufBytes ∧
      (parsing .arp arpB).Holds .ibuf 0 (nb arpB)) ∧
    (nextEvent (parsing .eth [0x45]) .seq [] ∧ (parsing .eth [0x45]).sq.running = true ∧ (parsing .eth [0x45]).status.fatal = false ∧
      (parsing .eth [0x45]).seqr.phase = .parse .eth ∧ (nb [0x45]).length = (parsing .eth [0x45]).seqr.flen.toNat ∧
      (parsing .eth [0x45]).Holds .ibuf 0 (nb [0x45])) := by decide

theorem witness_SequencerHoldsStill :
    (nextEvent (told .seq State.reset) .seq [] ∧ (told .seq State.reset).sq.running = false) ∧
    (nextEvent (told .seq haltedState) .seq [] ∧ (told .seq haltedState).status.fatal = true) ∧
    (nextEvent (told .seq (running (.handle .tcp))) .seq [] ∧ (told .seq (running (.handle .tcp))).seqr.phase = .handle .tcp) := by decide

theorem witness_FramesAreTakenInOrderAndOneAtATime :
    (∃ t, step (waiting [[1], [2]]) = .next t) ∧ (∃ t, step (told (.rxArrive [3]) State.reset) = .next t) ∧
    ∃ t, step (told .rxTakeOther { State.reset with rxq := [[1], [2]] }) = .next t :=
  ⟨⟨_, eq_after (by decide)⟩, ⟨_, eq_after (by decide)⟩, ⟨_, eq_after (by decide)⟩⟩

theorem witness_TransmitQueueIsFirstInFirstOut :
    (∃ t, step (told .txTake (fullTxq .hold)) = .next t) ∧ (∃ t, step (told (.txPutOther [9]) State.reset) = .next t) ∧
    ∃ t, step (State.withFetchWord { State.reset with obuf := memAt 0 [7], out := ⟨0, 0, 1⟩ } 32 0x20) = .next t :=
  ⟨⟨_, eq_after (by decide)⟩, ⟨_, eq_after (by decide)⟩, ⟨_, eq_after (by decide)⟩⟩

theorem witness_WorkerAgentsActOnlyInsideAHandler :
    (nextEvent (told (.txn .arpc [0, 0]) State.reset) (.txn .arpc [0, 0]) [] ∧
      (told (.txn .arpc [0, 0]) State.reset).sq.wired = false ∧ (told (.txn .arpc [0, 0]) State.reset).handling = none) ∧
    (nextEvent (told (.txn .handler [0, 0]) (running (.parse .ip))) (.txn .handler [0, 0]) [] ∧
      (told (.txn .handler [0, 0]) (running (.parse .ip))).handling = none) := by decide

theorem witness_CommandsWriteOnlyTheirOwnState :
    ∃ t, command .segGetRaw ∧ exec .segGetRaw synState = .next t ∧ t.status.err = .none :=
  ⟨_, by decide, eq_after (by decide), by decide⟩

theorem witness_TrackingIdentitiesAffectNothingElse :
    (∃ t, command (.segNew true) ∧ exec (.segNew true) State.reset = .next t) ∧ ∃ t, seqStep (waiting [[1]]) = .next t :=
  ⟨⟨_, by decide, eq_after (by decide)⟩, ⟨_, eq_after (by decide)⟩⟩

theorem witness_NoStepLeavesAScanOpen :
    ∃ t, (told .seq State.reset).scan = .idle ∧ step (told .seq State.reset) = .next t :=
  ⟨_, rfl, eq_after (by decide)⟩

theorem witness_ResetEventRestoresTheBlock : nextEvent (told .reset synState) .reset [] := by decide

theorem witness_EveryStepKeepsTheInvariant : ∃ t, everyState.Inv ∧ step everyState = .next t :=
  ⟨_, everyState_inv, eq_after (by decide)⟩

end Sys2Proof.Tests
end

section
/-! The tracking registers steer nothing (10_state.md R36): commands and steps of SEQ are built from operations that are blind to them, and each way of combining such operations keeps the blindness. -/

namespace Sys2Proof.Machine

/-! ### Blindness to the tracking registers -/

/-- The same state with other tracking registers. -/
def State.setTrack (s : State) (k : Track) : State := { s with track := k }

/-- Two outcomes of the same kind and reason, whose next states differ at most in the tracking registers. -/
inductive SameButTrack : Out → Out → Prop
  | next (s : State) (k : Track) : SameButTrack (.next s) (.next (s.setTrack k))
  | fault (r : Fault) : SameButTrack (.fault r) (.fault r)
  | refused (r : Refusal) : SameButTrack (.refused r) (.refused r)

/-- Other tracking registers before the operation change its outcome in nothing but the tracking registers. -/
def TrackBlind (f : State → Out) : Prop := ∀ s k, SameButTrack (f s) (f (s.setTrack k))

/-- The same for an update of the state. -/
def UpdateTrackBlind (g : State → State) : Prop := ∀ s k, ∃ k', g (s.setTrack k) = (g s).setTrack k'

/-- Blindness as the statement about two runs reads it. -/
theorem TrackBlind.next_of_next {f : State → Out} {s t : State} (hf : TrackBlind f) (k : Track) (h : f s = .next t) :
    ∃ k', f (s.setTrack k) = .next (t.setTrack k') := by
  have hr := hf s k
  rw [h] at hr
  generalize f (s.setTrack k) = o at hr
  cases hr with
  | next _ k' => exact ⟨k', rfl⟩

/-! ### Leaves -/

theorem TrackBlind.next {g : State → State} (hg : UpdateTrackBlind g) : TrackBlind fun s => .next (g s) := by
  intro s k
  obtain ⟨k', hk⟩ := hg s k
  simp only [hk]
  exact .next _ k'

theorem TrackBlind.raise (e : Err) : TrackBlind (raise e) := .next fun _ _ => ⟨_, rfl⟩

theorem TrackBlind.raiseEiv : TrackBlind raiseEiv := .next fun _ _ => ⟨_, rfl⟩

theorem TrackBlind.complete {g : State → State} (hg : UpdateTrackBlind g) : TrackBlind fun s => complete (g s) :=
  .next fun s k => by
    obtain ⟨k', hk⟩ := hg s k
    exact ⟨k', congrArg (State.setErr · .none) hk⟩

theorem markHeld_trackBlind : UpdateTrackBlind State.markHeld := by
  intro s k
  refine ⟨k, ?_⟩
  have hi : (s.setTrack k).issuer = s.issuer := rfl
  unfold State.markHeld
  rw [hi]
  cases s.issuer <;> rfl

/-! ### Combinations -/

/-- An operation that reads a value off the state, where the tracking registers do not take part in that value. -/
theorem TrackBlind.read {α : Type} {v : State → α} {f : α → State → Out} (hv : ∀ s k, v (s.setTrack k) = v s)
    (hf : ∀ a, TrackBlind (f a)) : TrackBlind fun s => f (v s) s := by
  intro s k
  simp only [hv]
  exact hf (v s) s k

theorem TrackBlind.ite {c : State → Prop} [DecidablePred c] {f g : State → Out}
    (hc : ∀ s k, c (s.setTrack k) ↔ c s) (hf : TrackBlind f) (hg : TrackBlind g) :
    TrackBlind fun s => if c s then f s else g s := by
  intro s k
  simp only [hc]
  split
  · exact hf s k
  · exact hg s k

theorem TrackBlind.comp {f : State → Out} {g : State → State} (hf : TrackBlind f) (hg : UpdateTrackBlind g) :
    TrackBlind fun s => f (g s) := by
  intro s k
  obtain ⟨k', hk⟩ := hg s k
  simp only [hk]
  exact hf (g s) k'

theorem TrackBlind.andThen {f g : State → Out} (hf : TrackBlind f) (hg : TrackBlind g) :
    TrackBlind fun s => andThen (f s) g := by
  intro s k
  have h := hf s k
  simp only
  generalize f s = o, f (s.setTrack k) = p at h
  cases h with
  | next t k' => exact hg t k'
  | fault r => exact .fault r
  | refused r => exact .refused r

theorem TrackBlind.issued {f : State → Out} (hf : TrackBlind f) : TrackBlind (issued f) :=
  .ite (fun _ _ => .rfl) (.raise _) hf

theorem TrackBlind.dropOnError {f : State → Out} (hf : TrackBlind f) : TrackBlind (dropOnError f) :=
  .ite (fun _ _ => .rfl) hf (.next fun _ _ => ⟨_, rfl⟩)

/-- Reading bytes: the buffer, the address and the count are not tracking registers. -/
theorem TrackBlind.withBytes {b : BufId} {a n : State → Nat} {f : State → Bytes → Out}
    (ha : ∀ s k, a (s.setTrack k) = a s) (hn : ∀ s k, n (s.setTrack k) = n s)
    (hf : ∀ B, TrackBlind fun s => f s B) : TrackBlind fun s => withBytes s b (a s) (n s) (f s) := by
  intro s k
  have hb : (s.setTrack k).buf b = s.buf b := by cases b <;> rfl
  simp only [Machine.withBytes, ha, hn, hb]
  cases (s.buf b).readRange (a s) (n s) with
  | ok B => exact hf B s k
  | error e => exact .fault _

theorem TrackBlind.withWindow {f : State → Bytes → Out} (hf : ∀ W, TrackBlind fun s => f s W) :
    TrackBlind fun s => withWindow s (f s) :=
  .ite (fun _ _ => .rfl) (.raise _) (.withBytes (fun _ _ => rfl) (fun _ _ => rfl) hf)

/-- The encode commands: options and payload are no tracking registers. -/
theorem TrackBlind.withSegment {c : State → U16} {f : State → Nat → Bytes → Out}
    (hc : ∀ s k, c (s.setTrack k) = c s) (hf : ∀ h E, TrackBlind fun s => f s h E) :
    TrackBlind fun s => withSegment s (c s) (f s) := by
  refine .read (v := encodedOptions) (f := fun o s => match o with
    | none => Machine.raiseEiv s
    | some O => Machine.withBytes s .pbuf 0 s.seg.plen.toNat fun P =>
        f s (20 + O.length) (headerBytes s.seg (20 + O.length) (c s) ++ O ++ P)) (fun _ _ => rfl) fun o => ?_
  cases o with
  | none => exact .raiseEiv
  | some O =>
    refine .withBytes (fun _ _ => rfl) (fun _ _ => rfl) fun P => ?_
    refine .read (v := fun s => headerBytes s.seg (20 + O.length) (c s) ++ O ++ P)
      (f := fun E s => f s (20 + O.length) E) (fun s k => ?_) fun E => hf _ E
    rw [hc]; rfl

/-! ### Commands -/

theorem csumVerify_trackBlind (verify : Bytes → Except Err (U16 × Bool)) : TrackBlind (csumVerify verify) := by
  refine .withWindow fun W => ?_
  cases verify W with
  | error e => exact .raise e
  | ok p => exact .complete fun _ _ => ⟨_, rfl⟩

theorem execCsumVerifyTcp_trackBlind : TrackBlind execCsumVerifyTcp :=
  .read (v := State.ph) (f := fun p => issued (csumVerify (verifyTcp p))) (fun _ _ => rfl)
    fun p => .issued (csumVerify_trackBlind (verifyTcp p))

theorem execCsumVerifyUdp_trackBlind : TrackBlind execCsumVerifyUdp :=
  .read (v := State.ph) (f := fun p => issued (csumVerify (verifyUdp p))) (fun _ _ => rfl)
    fun p => .issued (csumVerify_trackBlind (verifyUdp p))

theorem execCsumVerifyIcmp_trackBlind : TrackBlind execCsumVerifyIcmp := .issued (csumVerify_trackBlind verifyIcmp)

theorem execCsumVerifyIp4_trackBlind : TrackBlind execCsumVerifyIp4 := .issued (csumVerify_trackBlind verifyIp4)

theorem execEthParse_trackBlind : TrackBlind execEthParse :=
  .issued (.withWindow fun _ => .ite (fun _ _ => .rfl) (.raise _) (.complete fun _ _ => ⟨_, rfl⟩))

theorem execArpParse_trackBlind : TrackBlind execArpParse :=
  .issued (.withWindow fun _ => .ite (fun _ _ => .rfl) (.raise _)
    (.ite (fun _ _ => .rfl) (.complete fun _ _ => ⟨_, rfl⟩) (.raise _)))

theorem execIp4Parse_trackBlind : TrackBlind execIp4Parse := by
  refine .issued (.withWindow fun W => ?_)
  cases ip4Check W with
  | error e => exact .raise e
  | ok hl => exact .complete fun _ _ => ⟨_, rfl⟩

theorem execIcmp4Parse_trackBlind : TrackBlind execIcmp4Parse :=
  .issued (.withWindow fun _ => .ite (fun _ _ => .rfl) (.raise _) (.complete fun _ _ => ⟨_, rfl⟩))

theorem execUdpParse_trackBlind : TrackBlind execUdpParse :=
  .issued (.withWindow fun _ => .ite (fun _ _ => .rfl) (.raise _) (.ite (fun _ _ => .rfl) (.raise _)
    (.ite (fun _ _ => .rfl) (.raise _) (.complete fun _ _ => ⟨_, rfl⟩))))

/-- SEG_NEW writes tracking registers from tracking registers only. -/
theorem execSegNew_trackBlind (link : Bool) : TrackBlind (execSegNew link) :=
  .issued (.complete fun _ _ => ⟨_, rfl⟩)

/-- SEG_DECODE copies IN_TRK to TRK and uses it nowhere else. -/
theorem execSegDecode_trackBlind : TrackBlind execSegDecode := by
  refine .issued (.withWindow fun W => ?_)
  cases decodeHeader W with
  | error e => exact .raise e
  | ok p => exact .complete fun _ _ => ⟨_, rfl⟩

theorem execSegEncode_trackBlind : TrackBlind execSegEncode :=
  .issued (.withSegment (fun _ _ => rfl) fun _ _ => .complete fun _ _ => ⟨_, rfl⟩)

theorem execSegChecksum_trackBlind : TrackBlind execSegChecksum :=
  .issued (.withSegment (fun _ _ => rfl) fun _ _ => .complete fun _ _ => ⟨_, rfl⟩)

theorem execSegGetRaw_trackBlind : TrackBlind execSegGetRaw :=
  .issued (.withSegment (fun _ _ => rfl) fun _ _ => .complete fun _ _ => ⟨_, rfl⟩)

theorem execSegFindOption_trackBlind (kind : Byte) : TrackBlind (execSegFindOption kind) :=
  .issued (.complete fun _ _ => ⟨_, rfl⟩)

theorem execOptDecode_trackBlind : TrackBlind execOptDecode := by
  refine .issued (.withWindow fun W => .ite (fun _ _ => .rfl) (.raise _) ?_)
  cases decodeOptions W with
  | none => exact .raise _
  | some c => exact .complete fun _ _ => ⟨_, rfl⟩

theorem execOptEncode_trackBlind (slot : Byte) : TrackBlind (execOptEncode slot) := by
  refine .issued (.ite (fun _ _ => .rfl) (.raise _) ?_)
  refine .read (v := fun s => encOpt (s.opts.getD slot.toNat .eol)) (f := fun o s => match o with
    | none => raiseEiv s
    | some B => complete (s.putOut B)) (fun _ _ => rfl) fun o => ?_
  cases o with
  | none => exact .raiseEiv
  | some B => exact .complete fun _ _ => ⟨_, rfl⟩

theorem execTxEnqueue_trackBlind : TrackBlind execTxEnqueue := by
  have bytes {f : State → Bytes → Out} (hf : ∀ F, TrackBlind fun s => f s F) :
      TrackBlind fun s => withBytes s .obuf 0 s.out.txlen.toNat (f s) := .withBytes (fun _ _ => rfl) (fun _ _ => rfl) hf
  refine .issued (.ite (fun _ _ => .rfl) (bytes fun F => .complete fun _ _ => ⟨_, rfl⟩) ?_)
  refine .read (v := fun s => s.cfg.txqFull) (f := fun p s => match p with
    | .hold => .next s.markHeld
    | .drop => withBytes s .obuf 0 s.out.txlen.toNat fun _ => complete s) (fun _ _ => rfl) fun p => ?_
  cases p with
  | hold => exact .next markHeld_trackBlind
  | drop => exact bytes fun _ => .complete fun _ _ => ⟨_, rfl⟩

theorem execSqStart_trackBlind : TrackBlind execSqStart :=
  .issued (.ite (fun _ _ => .rfl) (.raise _) (.complete fun _ _ => ⟨_, rfl⟩))

theorem command_trackBlind {i : Instr} (hc : i.format = .cmd32) : TrackBlind (exec i) := by
  cases i with
  | segDecode => exact execSegDecode_trackBlind
  | segEncode => exact execSegEncode_trackBlind
  | segChecksum => exact execSegChecksum_trackBlind
  | segGetRaw => exact execSegGetRaw_trackBlind
  | csumVerifyTcp => exact execCsumVerifyTcp_trackBlind
  | csumVerifyUdp => exact execCsumVerifyUdp_trackBlind
  | csumVerifyIcmp => exact execCsumVerifyIcmp_trackBlind
  | csumVerifyIp4 => exact execCsumVerifyIp4_trackBlind
  | segFindOption kind => exact execSegFindOption_trackBlind kind
  | optDecode => exact execOptDecode_trackBlind
  | optEncode slot => exact execOptEncode_trackBlind slot
  | segNew link => exact execSegNew_trackBlind link
  | ethParse => exact execEthParse_trackBlind
  | arpParse => exact execArpParse_trackBlind
  | ip4Parse => exact execIp4Parse_trackBlind
  | icmp4Parse => exact execIcmp4Parse_trackBlind
  | udpParse => exact execUdpParse_trackBlind
  | txEnqueue => exact execTxEnqueue_trackBlind
  | sqStart => exact execSqStart_trackBlind
  | _ => cases hc

/-! ### Steps of SEQ -/

/-- The identity a dequeued frame takes goes to the tracking registers only (44_pipeline.md R204). -/
theorem dequeueFrame_trackBlind (F : Frame) (rest : List Frame) : UpdateTrackBlind (dequeueFrame F rest) := by
  intro s k
  have hc : (s.setTrack k).cfg = s.cfg := rfl
  refine ⟨{ k with inTrk := k.nextTrk, nextTrk := k.nextTrk + 1 }, ?_⟩
  unfold dequeueFrame
  simp only [hc]
  split <;> rfl

/-- A parse step is a command behind a window update, then a drop or moves that read no tracking register (44_pipeline.md R205). -/
theorem parseLayer_trackBlind (l : Layer) : TrackBlind (parseLayer l) := by
  have phase (p : Phase) : TrackBlind fun s => .next (s.setPhase p) := .next fun _ _ => ⟨_, rfl⟩
  cases l with
  | eth =>
    exact .andThen (execEthParse_trackBlind.comp fun _ _ => ⟨_, rfl⟩) (.dropOnError (.next fun _ _ => ⟨_, rfl⟩))
  | arp => exact .andThen (execArpParse_trackBlind.comp fun _ _ => ⟨_, rfl⟩) (.dropOnError (phase _))
  | ip =>
    exact .andThen (execIp4Parse_trackBlind.comp fun _ _ => ⟨_, rfl⟩)
      (.dropOnError (.andThen execCsumVerifyIp4_trackBlind (.next fun _ _ => ⟨_, rfl⟩)))
  | icmp =>
    exact .andThen (execIcmp4Parse_trackBlind.comp fun _ _ => ⟨_, rfl⟩)
      (.dropOnError (.andThen execCsumVerifyIcmp_trackBlind (phase _)))
  | udp =>
    exact .andThen (execUdpParse_trackBlind.comp fun _ _ => ⟨_, rfl⟩)
      (.dropOnError (.andThen (execCsumVerifyUdp_trackBlind.comp fun _ _ => ⟨_, rfl⟩) (phase _)))
  | tcp =>
    exact .andThen (execSegDecode_trackBlind.comp fun _ _ => ⟨_, rfl⟩)
      (.dropOnError (.andThen execCsumVerifyTcp_trackBlind (phase _)))

theorem seqStep_trackBlind : TrackBlind seqStep := by
  have stay : TrackBlind fun s => .next s := .next fun _ k => ⟨k, rfl⟩
  refine .ite (fun _ _ => .rfl) ?_ stay
  refine .read (v := fun s => (s.seqr.phase, s.rxq)) (f := fun x s => match x.1 with
    | .idle =>
      match x.2 with
      | [] => .next s
      | F :: rest => .next (dequeueFrame F rest s)
    | .parse l => parseLayer l s
    | .handle _ => .next s) (fun _ _ => rfl) fun (p, q) => ?_
  cases p with
  | idle =>
    cases q with
    | nil => exact stay
    | cons F rest => exact .next (dequeueFrame_trackBlind F rest)
  | parse l => exact parseLayer_trackBlind l
  | handle l => exact stay

/-- Settles O56: every command and every step of SEQ is blind to the tracking registers, part by part. -/
theorem trackingIdentitiesAffectNothingElse : Obligations.TrackingIdentitiesAffectNothingElse := by
  unfold Obligations.TrackingIdentitiesAffectNothingElse
  exact fun s t k => ⟨fun i hc h => (command_trackBlind hc).next_of_next k h,
    fun h => seqStep_trackBlind.next_of_next k h⟩

end Sys2Proof.Machine
end

section
/-! Reads of unwritten buffer bytes (20_memory.md R69): a range read stops at its first unwritten byte, and every command that reads a range hands that fault on. -/

namespace Sys2Proof.Machine

open Sys2Proof.Statement

/-! ### Range reads that fail -/

/-- A range read answers its first unwritten address, however far into the range it lies. -/
theorem Memory.readRange_firstUnwritten (m : Memory) : ∀ {k a n : Nat}, k < n → m.read? (a + k) = none →
    (∀ j, j < k → (m.read? (a + j)).isSome = true) → m.readRange a n = .error (a + k) := by
  intro k
  induction k with
  | zero =>
    intro a n hn hk _
    obtain ⟨n, rfl⟩ := Nat.exists_eq_add_one_of_ne_zero (Nat.ne_of_gt hn)
    unfold Memory.readRange
    rw [show m.read? a = none from hk]
    rfl
  | succ k ih =>
    intro a n hn hk hb
    obtain ⟨n, rfl⟩ := Nat.exists_eq_add_one_of_ne_zero (Nat.ne_of_gt (Nat.zero_lt_of_lt hn))
    have hshift (j : Nat) : a + (j + 1) = a + 1 + j := by omega
    obtain ⟨x, hx⟩ := Option.isSome_iff_exists.mp (hb 0 (Nat.succ_pos k))
    have hrest : m.readRange (a + 1) n = .error (a + 1 + k) :=
      ih (by omega) (hshift k ▸ hk) fun j hj => hshift j ▸ hb (j + 1) (by omega)
    unfold Memory.readRange
    rw [show m.read? a = some x from hx]
    simp only [hrest, hshift k]

theorem withBytes_unwritten {s : State} {b : BufId} {a n k : Nat} (h : firstUnwritten s b a n k) (f : Bytes → Out) :
    withBytes s b a n f = .fault (.unwrittenByte b (a + k)) := by
  obtain ⟨hn, hk, hb⟩ := h
  unfold withBytes
  rw [Memory.readRange_firstUnwritten (s.buf b) hn hk hb]

theorem withWindow_unwritten {s : State} {k : Nat} (hw : ¬ badWindow s)
    (h : firstUnwritten s .ibuf s.win.ioff.toNat s.win.ilen.toNat k) (f : Bytes → Out) :
    withWindow s f = .fault (.unwrittenByte .ibuf (s.win.ioff.toNat + k)) := by
  unfold withWindow
  rw [if_neg hw, withBytes_unwritten h]

/-- An encode reads its payload once the options are encoded (40_segment_codec.md R123). -/
theorem withSegment_unwritten {s : State} {O : Bytes} {k : Nat} (hO : encodedOptions s = some O)
    (h : firstUnwritten s .pbuf 0 s.seg.plen.toNat k) (c : U16) (f : Nat → Bytes → Out) :
    withSegment s c f = .fault (.unwrittenByte .pbuf k) := by
  unfold withSegment
  rw [hO]
  simp only [withBytes_unwritten h, Nat.zero_add]

/-! ### Commands that begin with a read -/

theorem issued_window_unwritten {f : State → Bytes → Out} {s : State} {k : Nat} (hf : s.status.fatal = false)
    (hw : ¬ badWindow s) (h : firstUnwritten s .ibuf s.win.ioff.toNat s.win.ilen.toNat k) :
    issued (fun s => withWindow s (f s)) s = .fault (.unwrittenByte .ibuf (s.win.ioff.toNat + k)) :=
  (issued_running hf).trans (withWindow_unwritten hw h (f s))

theorem issued_segment_unwritten {c : State → U16} {f : State → Nat → Bytes → Out} {s : State} {O : Bytes} {k : Nat}
    (hf : s.status.fatal = false) (hO : encodedOptions s = some O) (h : firstUnwritten s .pbuf 0 s.seg.plen.toNat k) :
    issued (fun s => withSegment s (c s) (f s)) s = .fault (.unwrittenByte .pbuf k) :=
  (issued_running hf).trans (withSegment_unwritten hO h (c s) (f s))

/-- A TX_ENQUEUE that is not held reads OBUF[0..TXLEN), also where it then drops the frame (44_pipeline.md R202). -/
theorem execTxEnqueue_unwritten {s : State} {k : Nat} (hf : s.status.fatal = false)
    (ht : s.txRoom = true ∨ s.cfg.txqFull = .drop) (h : firstUnwritten s .obuf 0 s.out.txlen.toNat k) :
    execTxEnqueue s = .fault (.unwrittenByte .obuf k) := by
  unfold execTxEnqueue
  rw [issued_running hf]
  by_cases hr : s.txRoom = true
  · rw [if_pos hr, withBytes_unwritten h, Nat.zero_add]
  · rw [if_neg hr, ht.resolve_left hr]
    simp only [withBytes_unwritten h, Nat.zero_add]

/-- Settles O17: each of these commands begins with a range read, which faults at the first unwritten byte. -/
theorem unwrittenBytesFault : Obligations.UnwrittenBytesFault := by
  unfold Obligations.UnwrittenBytesFault
  intro s hf
  refine ⟨fun i k hi hw hu => ?_, fun i O k hi hO hl hu => ?_, fun k ht hu => execTxEnqueue_unwritten hf ht hu⟩
  · simp only [windowCommands, List.mem_cons, List.not_mem_nil, or_false] at hi
    rcases hi with rfl | rfl | rfl | rfl | rfl | rfl | rfl | rfl | rfl | rfl | rfl <;> simp only [exec] <;>
      exact issued_window_unwritten hf hw hu
  · have hE : encodedOptions s = some O := encodedOptions_eq_some.mpr ⟨hO, hl⟩
    rcases hi with rfl | rfl | rfl <;> simp only [exec] <;> exact issued_segment_unwritten hf hE hu

end Sys2Proof.Machine
end

section
/-! A command is one atomic step (20_memory.md R67): with the scanner idle, neither an instruction, nor SEQ, nor a move from outside opens a scan. -/

namespace Sys2Proof.Machine

theorem seqStep_scan {s t : State} (h : seqStep s = .next t) : t.scan = s.scan := by
  rcases seqStep_next h with rfl | ⟨-, -, -, F, rest, -, rfl⟩ | ⟨-, -, l, -, h⟩
  · rfl
  · unfold dequeueFrame
    split <;> rfl
  · exact (parseLayer_kept h).scan

theorem State.rxArrive_scan (s : State) (f : Frame) : (s.rxArrive f).scan = s.scan := by
  obtain ⟨-, h⟩ | h := s.rxArrive_cases f <;> rw [h]

theorem State.txPutOther_scan (s : State) (f : Frame) : (s.txPutOther f).scan = s.scan := by
  obtain ⟨-, h⟩ | h := s.txPutOther_cases f <;> rw [h]

/-- Settles O57, by the ways a step can move: with no scan open only instructions, SEQ and the agents outside move. -/
theorem noStepLeavesAScanOpen : Obligations.NoStepLeavesAScanOpen := by
  unfold Obligations.NoStepLeavesAScanOpen
  intro s t hidle h
  cases step_moved h with
  | scanEnd c hs ht => rw [hidle] at hs; cases hs
  | scanRecord A c i hs hA hd he => rw [hidle] at hs; cases hs
  | scanFail A c hs ht => rw [hidle] at hs; cases hs
  | scanRaise hs ht => rw [hidle] at hs; cases hs
  | txn who bytes rest i hs hi hm hd he => exact (exec_kept he).idle hidle
  | selector rest l i hs hi hl hw hd he => exact (exec_kept he).idle hidle
  | resume th rest hs hi hh hr he => exact (exec_kept he).idle ((State.release_scan _ th).trans hidle)
  | seqEvent rest hs hi he => exact (seqStep_scan he).trans hidle
  | seqOwn hs hi he => exact (seqStep_scan he).trans hidle
  | rxArrive F rest hs hi ht => exact ht ▸ (State.rxArrive_scan _ F).trans hidle
  | txPutOther F rest hs hi ht => exact ht ▸ (State.txPutOther_scan _ F).trans hidle
  | reset rest hs hi ht => rw [ht]; rfl
  | handlerEnd rest v l hs hi hl hw ht => rw [ht]; exact hidle
  | txTake rest hs hi ht => rw [ht]; exact hidle
  | rxTakeOther rest hs hi ht => rw [ht]; exact hidle
  | resolve addr answer rest hs hi ht => rw [ht]; exact hidle
  | arpcStore cache rest hs hi ht => rw [ht]; exact hidle
  | pass e rest hs hi ht => rw [ht]; exact hidle

end Sys2Proof.Machine
end

section
/-! Which command writes which state (20_memory.md R61): the table, part by part, and one frame lemma for all commands that is read off it. -/

namespace Sys2Proof.Machine

/-! ### The table -/

/-- The parts of the state that the table of R61 tells apart.
SEG stands four times: whole, and without the fields that SEG_ENCODE, SEG_GET_RAW and OPT_DECODE write.
TRACK and SQ stand whole, beside those of their fields that no command writes. -/
inductive StatePart where
  | cfg | win | ph | ibuf | rxq | resp | ooff | txlen | inTrk | drops | cfgMac | cfgIp
  | pbuf | obuf | olen
  | seg | segButHlen | segButHlenCsum | segButOptcnt
  | opts | track | fopt | found | csumOk | result
  | eth | arp | ip | icmp | udp | lpay | sq | seqr | txq

/-- The part has the same contents in s and t. -/
def StatePart.same (s t : State) : StatePart → Prop
  | .cfg => t.cfg = s.cfg
  | .win => t.win = s.win
  | .ph => t.ph = s.ph
  | .ibuf => t.ibuf = s.ibuf
  | .rxq => t.rxq = s.rxq
  | .resp => t.resp = s.resp
  | .ooff => t.out.ooff = s.out.ooff
  | .txlen => t.out.txlen = s.out.txlen
  | .inTrk => t.track.inTrk = s.track.inTrk
  | .drops => t.sq.drops = s.sq.drops
  | .cfgMac => t.sq.cfgMac = s.sq.cfgMac
  | .cfgIp => t.sq.cfgIp = s.sq.cfgIp
  | .pbuf => t.pbuf = s.pbuf
  | .obuf => t.obuf = s.obuf
  | .olen => t.out.olen = s.out.olen
  | .seg => t.seg = s.seg
  | .segButHlen => t.seg = { s.seg with hlen := t.seg.hlen }
  | .segButHlenCsum => t.seg = { s.seg with hlen := t.seg.hlen, csum := t.seg.csum }
  | .segButOptcnt => t.seg = { s.seg with optcnt := t.seg.optcnt }
  | .opts => t.opts = s.opts
  | .track => t.track = s.track
  | .fopt => t.fopt = s.fopt
  | .found => t.status.found = s.status.found
  | .csumOk => t.status.csumOk = s.status.csumOk
  | .result => t.result = s.result
  | .eth => t.eth = s.eth
  | .arp => t.arp = s.arp
  | .ip => t.ip = s.ip
  | .icmp => t.icmp = s.icmp
  | .udp => t.udp = s.udp
  | .lpay => t.lpay = s.lpay
  | .sq => t.sq = s.sq
  | .seqr => t.seqr = s.seqr
  | .txq => t.txq = s.txq

/-- The commands that write the part (R61; the tracking registers as 10_state.md R36 has them). -/
def StatePart.WrittenBy (i : Instr) : StatePart → Prop
  | .cfg | .win | .ph | .ibuf | .rxq | .resp | .ooff | .txlen | .inTrk | .drops | .cfgMac | .cfgIp => False
  | .pbuf => i = .segDecode
  | .obuf | .olen => i = .segEncode ∨ i = .segGetRaw ∨ ∃ n, i = .optEncode n
  | .seg => i = .segDecode ∨ (∃ b, i = .segNew b) ∨ i = .segEncode ∨ i = .segGetRaw ∨ i = .optDecode
  | .segButHlen => i = .segDecode ∨ (∃ b, i = .segNew b) ∨ i = .segGetRaw ∨ i = .optDecode
  | .segButHlenCsum => i = .segDecode ∨ (∃ b, i = .segNew b) ∨ i = .optDecode
  | .segButOptcnt => i = .segDecode ∨ (∃ b, i = .segNew b) ∨ i = .segEncode ∨ i = .segGetRaw
  | .opts => i = .segDecode ∨ i = .optDecode
  | .track => i = .segDecode ∨ ∃ b, i = .segNew b
  | .fopt | .found => ∃ k, i = .segFindOption k
  | .csumOk => i = .csumVerifyTcp ∨ i = .csumVerifyUdp ∨ i = .csumVerifyIcmp ∨ i = .csumVerifyIp4
  | .result => i = .segChecksum ∨ i = .segGetRaw ∨
      i = .csumVerifyTcp ∨ i = .csumVerifyUdp ∨ i = .csumVerifyIcmp ∨ i = .csumVerifyIp4
  | .eth => i = .ethParse
  | .arp => i = .arpParse
  | .ip => i = .ip4Parse
  | .icmp => i = .icmp4Parse
  | .udp => i = .udpParse
  | .lpay => i = .ethParse ∨ i = .arpParse ∨ i = .ip4Parse ∨ i = .icmp4Parse ∨ i = .udpParse
  | .sq | .seqr => i = .sqStart
  | .txq => i = .txEnqueue

/-! ### Every command keeps to the table -/

/-- From s to t nothing changed in the parts that the table does not give i. -/
def WritesOnlyItsOwn (i : Instr) (s t : State) : Prop := ∀ p : StatePart, p.same s t ∨ p.WrittenBy i

/-- A written-out next state is compared with the state before it part by part: a part is the old one, or the table gives it to i. -/
theorem WritesOnlyItsOwn.of {i : Instr} {s t : State} (h : ∀ p : StatePart, p.same s t ∨ p.WrittenBy i := by
    intro p; cases p <;> first | exact .inl rfl | exact .inr (by simp [StatePart.WrittenBy])) : WritesOnlyItsOwn i s t := h

theorem Raised.writesOnlyItsOwn {codes : List Err} {s t : State} (h : Raised codes s t) (i : Instr) :
    WritesOnlyItsOwn i s t := by
  rcases h with ⟨-, rfl⟩ | ⟨-, e, -, rfl⟩ <;> exact .of

theorem RaisedEiv.writesOnlyItsOwn {s t : State} (h : RaisedEiv s t) (i : Instr) : WritesOnlyItsOwn i s t := by
  obtain ⟨-, rfl⟩ := h
  exact .of

/-- A held TX_ENQUEUE has written nothing but its thread's flag (44_pipeline.md R202). -/
theorem State.markHeld_writesOnlyItsOwn (s : State) (i : Instr) : WritesOnlyItsOwn i s s.markHeld := by
  unfold State.markHeld
  cases s.issuer <;> exact .of

theorem command_writesOnlyItsOwn {i : Instr} {s t : State} (hc : i.format = .cmd32) (h : exec i s = .next t) :
    WritesOnlyItsOwn i s t := by
  cases i with
  | segDecode =>
    obtain h | ⟨-, W, hl, c, -, -, rfl⟩ := execSegDecode_next h
    exacts [h.writesOnlyItsOwn _, .of]
  | segEncode =>
    obtain h | h | ⟨-, O, P, E, -, -, -, -, rfl⟩ := execSegEncode_next h
    exacts [h.writesOnlyItsOwn _, h.writesOnlyItsOwn _, .of]
  | segChecksum =>
    obtain h | h | ⟨-, O, P, c, -, -, -, -, rfl⟩ := execSegChecksum_next h
    exacts [h.writesOnlyItsOwn _, h.writesOnlyItsOwn _, .of]
  | segGetRaw =>
    obtain h | h | ⟨-, O, P, c, E, -, -, -, -, -, rfl⟩ := execSegGetRaw_next h
    exacts [h.writesOnlyItsOwn _, h.writesOnlyItsOwn _, .of]
  | csumVerifyTcp =>
    obtain h | ⟨-, W, c, ok, -, -, rfl⟩ := execCsumVerifyTcp_next h
    exacts [h.writesOnlyItsOwn _, .of]
  | csumVerifyUdp =>
    obtain h | ⟨-, W, c, ok, -, -, rfl⟩ := execCsumVerifyUdp_next h
    exacts [h.writesOnlyItsOwn _, .of]
  | csumVerifyIcmp =>
    obtain h | ⟨-, W, c, ok, -, -, rfl⟩ := execCsumVerifyIcmp_next h
    exacts [h.writesOnlyItsOwn _, .of]
  | csumVerifyIp4 =>
    obtain h | ⟨-, W, c, ok, -, -, rfl⟩ := execCsumVerifyIp4_next h
    exacts [h.writesOnlyItsOwn _, .of]
  | segFindOption kind =>
    obtain h | ⟨-, rfl⟩ := execSegFindOption_next h
    exacts [h.writesOnlyItsOwn _, .of]
  | optDecode =>
    obtain h | ⟨-, W, c, -, -, -, rfl⟩ := execOptDecode_next h
    exacts [h.writesOnlyItsOwn _, .of]
  | optEncode slot =>
    obtain h | h | ⟨-, -, B, -, rfl⟩ := execOptEncode_next h
    exacts [h.writesOnlyItsOwn _, h.writesOnlyItsOwn _, .of]
  | segNew link =>
    obtain h | ⟨-, rfl⟩ := execSegNew_next h
    exacts [h.writesOnlyItsOwn _, .of]
  | ethParse =>
    obtain h | ⟨-, W, -, -, rfl⟩ := execEthParse_next h
    exacts [h.writesOnlyItsOwn _, .of]
  | arpParse =>
    obtain h | ⟨-, W, -, -, -, rfl⟩ := execArpParse_next h
    exacts [h.writesOnlyItsOwn _, .of]
  | ip4Parse =>
    obtain h | ⟨-, W, hl, -, -, rfl⟩ := execIp4Parse_next h
    exacts [h.writesOnlyItsOwn _, .of]
  | icmp4Parse =>
    obtain h | ⟨-, W, -, -, rfl⟩ := execIcmp4Parse_next h
    exacts [h.writesOnlyItsOwn _, .of]
  | udpParse =>
    obtain h | ⟨-, W, -, -, -, rfl⟩ := execUdpParse_next h
    exacts [h.writesOnlyItsOwn _, .of]
  | txEnqueue =>
    obtain h | ⟨-, -, F, -, -, rfl⟩ | ⟨-, -, -, rfl⟩ | ⟨-, -, -, rfl⟩ := execTxEnqueue_next h
    exacts [h.writesOnlyItsOwn _, .of, s.markHeld_writesOnlyItsOwn _, .of]
  | sqStart =>
    obtain h | ⟨-, -, rfl⟩ := execSqStart_next h
    exacts [h.writesOnlyItsOwn _, .of]
  | _ => cases hc

/-! ### Reading the table -/

theorem WritesOnlyItsOwn.same {i : Instr} {s t : State} (h : WritesOnlyItsOwn i s t) (p : StatePart)
    (hp : ¬ p.WrittenBy i) : p.same s t := (h p).resolve_right hp

theorem WritesOnlyItsOwn.writer {i : Instr} {s t : State} (h : WritesOnlyItsOwn i s t) (p : StatePart)
    (hp : ¬ p.same s t) : p.WrittenBy i := (h p).resolve_left hp

/-- SEG, with what the commands that write back one or two of its fields leave of it. -/
theorem WritesOnlyItsOwn.seg {i : Instr} {s t : State} (h : WritesOnlyItsOwn i s t) (hne : t.seg ≠ s.seg) :
    i = .segDecode ∨ (∃ b, i = .segNew b) ∨
      (i = .segEncode ∧ t.seg = { s.seg with hlen := t.seg.hlen }) ∨
      (i = .segGetRaw ∧ t.seg = { s.seg with hlen := t.seg.hlen, csum := t.seg.csum }) ∨
      (i = .optDecode ∧ t.seg = { s.seg with optcnt := t.seg.optcnt }) := by
  rcases h.writer .seg hne with hi | hi | rfl | rfl | rfl
  · exact .inl hi
  · exact .inr (.inl hi)
  · exact .inr (.inr (.inl ⟨rfl, h.same .segButHlen (by simp [StatePart.WrittenBy])⟩))
  · exact .inr (.inr (.inr (.inl ⟨rfl, h.same .segButHlenCsum (by simp [StatePart.WrittenBy])⟩)))
  · exact .inr (.inr (.inr (.inr ⟨rfl, h.same .segButOptcnt (by simp [StatePart.WrittenBy])⟩)))

/-- Settles O55: every command keeps to the table, and each clause is the table's entry for a part. -/
theorem commandsWriteOnlyTheirOwnState : Obligations.CommandsWriteOnlyTheirOwnState := by
  unfold Obligations.CommandsWriteOnlyTheirOwnState
  intro i s t hc h
  have w : WritesOnlyItsOwn i s t := command_writesOnlyItsOwn hc h
  exact ⟨w.same .cfg id, w.same .win id, w.same .ph id, w.same .ibuf id, w.same .rxq id, w.same .resp id,
    w.same .ooff id, w.same .txlen id, w.same .inTrk id, w.same .drops id, w.same .cfgMac id, w.same .cfgIp id,
    w.writer .pbuf, fun hn => hn.elim (w.writer .obuf) (w.writer .olen), w.seg, w.writer .opts, w.writer .track,
    fun hn => hn.elim (w.writer .fopt) (w.writer .found), w.writer .csumOk, w.writer .result,
    w.writer .eth, w.writer .arp, w.writer .ip, w.writer .icmp, w.writer .udp, w.writer .lpay,
    fun hn => hn.elim (w.writer .sq) (w.writer .seqr), w.writer .txq⟩

end Sys2Proof.Machine
end

section
/-! Command words (30_encoding.md R81 to R84): the opcode map and the encoder are inverses of one another, and the words the map accepts are those of R82 and R83. -/

namespace Sys2Proof.Machine

open Sys2Proof.Statement

/-! ### The opcode map -/

theorem noArg_eq_ok {op arg : Byte} {i j : Instr} (h : noArg op arg i = .ok j) : arg = 0 ∧ j = i := by
  unfold noArg at h
  split at h <;> cases h
  exact ⟨‹_›, rfl⟩

/-- Every command has an OP and a legal ARG, which the encoder writes and the opcode map reads back. -/
theorem command_encoding {i : Instr} (h : command i) :
    ∃ op arg, encode i = commandBytes op arg ∧ decodeOp op arg = .ok i ∧ legalOp op arg := by
  cases i with
  | segFindOption k => exact ⟨_, _, rfl, rfl, .inr (.inr (.inl rfl))⟩
  | optEncode n => exact ⟨_, _, rfl, rfl, .inr (.inr (.inr (.inl rfl)))⟩
  | segNew link => cases link <;> exact ⟨_, _, rfl, rfl, by decide⟩
  | regRead | regWrite | bufRead | bufWrite | optEol | optNop | optMss | optWs | optSackperm | optTs | optUnknown
  | etypeIpv4 | etypeArp | ipprotoIcmp | ipprotoTcp | ipprotoUdp => cases h
  | _ => exact ⟨_, _, rfl, rfl, by decide⟩

/-- Each legal pair of OP and ARG is in the opcode map. -/
theorem decodeOp_of_legalOp {op arg : Byte} (h : legalOp op arg) : ∃ i, decodeOp op arg = .ok i := by
  rcases h with ⟨hop, rfl⟩ | ⟨rfl, ha⟩ | rfl | rfl | ⟨rfl, ha⟩
  · simp only [List.mem_cons, List.not_mem_nil, or_false] at hop
    rcases hop with rfl | rfl | rfl | rfl | rfl | rfl | rfl | rfl | rfl | rfl | rfl | rfl <;> exact ⟨_, rfl⟩
  · obtain rfl | rfl | rfl | rfl : arg = 0 ∨ arg = 1 ∨ arg = 2 ∨ arg = 3 := by bv_omega
    all_goals exact ⟨_, rfl⟩
  · exact ⟨_, rfl⟩
  · exact ⟨_, rfl⟩
  · obtain rfl | rfl : arg = 0 ∨ arg = 1 := by bv_omega
    all_goals exact ⟨_, rfl⟩

/-- A row of the opcode map, with its numbers. -/
theorem encode_of_row {n m : Nat} {op arg : Byte} {i : Instr} (hop : op.toNat = n) (harg : arg.toNat = m) (hc : command i)
    (he : encode i = commandBytes (BitVec.ofNat 8 n) (BitVec.ofNat 8 m)) : command i ∧ encode i = commandBytes op arg := by
  obtain ⟨-, rfl⟩ := BitVec.toNat_eq_nat.mp hop
  obtain ⟨-, rfl⟩ := BitVec.toNat_eq_nat.mp harg
  exact ⟨hc, he⟩

/-- A row whose ARG must be 0. -/
theorem encode_of_noArg {n : Nat} {op arg : Byte} {c i : Instr} (hop : op.toNat = n) (h : noArg op arg c = .ok i)
    (hc : command c) (he : encode c = commandBytes (BitVec.ofNat 8 n) 0) : command i ∧ encode i = commandBytes op arg := by
  obtain ⟨rfl, rfl⟩ := noArg_eq_ok h
  exact encode_of_row hop rfl hc he

/-- What the opcode map gives is a command, and the encoder writes its OP and ARG back. -/
theorem encode_of_decodeOp {op arg : Byte} {i : Instr} (h : decodeOp op arg = .ok i) :
    command i ∧ encode i = commandBytes op arg := by
  unfold decodeOp at h
  split at h
  any_goals exact encode_of_noArg ‹_› h rfl rfl
  · split at h <;> cases h <;> exact encode_of_row ‹op.toNat = 5› ‹_› rfl rfl
  · obtain ⟨-, rfl⟩ := BitVec.toNat_eq_nat.mp ‹op.toNat = 6›
    cases h
    exact ⟨rfl, rfl⟩
  · obtain ⟨-, rfl⟩ := BitVec.toNat_eq_nat.mp ‹op.toNat = 8›
    cases h
    exact ⟨rfl, rfl⟩
  · split at h <;> cases h <;> exact encode_of_row ‹op.toNat = 9› ‹_› rfl rfl
  · cases h

/-- The pairs of OP and ARG in the opcode map are the legal ones of R82 and R83. -/
theorem legalOp_iff_decodeOp {op arg : Byte} : legalOp op arg ↔ ∃ i, decodeOp op arg = .ok i := by
  refine ⟨decodeOp_of_legalOp, fun ⟨i, hd⟩ => ?_⟩
  obtain ⟨hc, he⟩ := encode_of_decodeOp hd
  obtain ⟨op', arg', he', -, hl⟩ := command_encoding hc
  obtain ⟨rfl, rfl⟩ : op = op' ∧ arg = arg' := by simpa [commandBytes] using he.symm.trans he'
  exact hl

/-! ### Words -/

theorem bitVec_append_inj {a b : Nat} {x x' : BitVec a} {y y' : BitVec b} (h : x ++ y = x' ++ y') : x = x' ∧ y = y' := by
  have hx := congrArg (·.extractLsb' b a) h
  have hy := congrArg (·.extractLsb' 0 b) h
  simp only [extract_append_high, extract_append_low] at hx hy
  exact ⟨hx, hy⟩

theorem decodeCommand_eq_ok {w : U32} {i : Instr} :
    decodeCommand w = .ok i ↔ w.extractLsb' 16 16 = 0#16 ∧ decodeOp (w.extractLsb' 0 8) (w.extractLsb' 8 8) = .ok i := by
  unfold decodeCommand
  split <;> simp [*]

/-- The fields of a command word are what it is made of (R81). -/
theorem decodeCommand_commandWord (op arg : Byte) : decodeCommand (commandWord op arg) = decodeOp op arg := by
  have hop : (commandWord op arg).extractLsb' 0 8 = op := by
    unfold commandWord
    rw [BitVec.extractLsb'_append_eq_of_add_le (by decide), extract_append_low]
  have harg : (commandWord op arg).extractLsb' 8 8 = arg := by
    unfold commandWord
    rw [BitVec.extractLsb'_append_eq_of_add_le (by decide), extract_append_high]
  have hrsv : (commandWord op arg).extractLsb' 16 16 = 0#16 := extract_append_high _ _
  unfold decodeCommand
  rw [if_pos hrsv, hop, harg]

theorem decode_commandBytes (op arg : Byte) : decode .cmd32 (commandBytes op arg) = decodeOp op arg :=
  decodeCommand_commandWord op arg

/-- The legal words of R84 are those that decode. -/
theorem legalWord_iff {w : U32} : legalWord w ↔ ∃ i, decodeCommand w = .ok i := by
  have hrsv : w.toNat < 2 ^ 16 ↔ w.extractLsb' 16 16 = 0#16 := by
    rw [← BitVec.toNat_inj, BitVec.extractLsb'_toNat, Nat.shiftRight_eq_div_pow, BitVec.toNat_ofNat]
    omega
  have hop : BitVec.ofNat 8 w.toNat = w.extractLsb' 0 8 := rfl
  have harg : BitVec.ofNat 8 (w.toNat / 256) = w.extractLsb' 8 8 := by
    simp [BitVec.extractLsb', Nat.shiftRight_eq_div_pow]
  simp only [legalWord, hrsv, hop, harg, legalOp_iff_decodeOp, decodeCommand_eq_ok, exists_and_left]

/-- Settles O3: the word's RSV is 0, and its OP and ARG are those the encoder writes. -/
theorem commandWordIsTheEncodingOfItsMeaning : Obligations.CommandWordIsTheEncodingOfItsMeaning := by
  unfold Obligations.CommandWordIsTheEncodingOfItsMeaning
  intro w i h
  obtain ⟨hrsv, hd⟩ := decodeCommand_eq_ok.mp h
  obtain ⟨hc, he⟩ := encode_of_decodeOp hd
  have hjoin : w.extractLsb' 24 8 ++ w.extractLsb' 16 8 = 0#8 ++ 0#8 := (extract_join w 16 8 8).trans hrsv
  obtain ⟨hhigh, hlow⟩ := bitVec_append_inj hjoin
  rw [he, hhigh, hlow]
  exact ⟨hc, rfl⟩

/-! ### Writing CMD -/

/-- A host's write of CMD issues the word (45_host_port.md R225). -/
theorem exec_writeCmd (w : U32) (s : State) : exec (writeCmd w) s = issueWord w s :=
  congrArg (issueWord · s) (BitVec.setWidth_setWidth_of_le w (by decide : 32 ≤ 64))

theorem issueWord_command {w : U32} {s : State} {i : Instr} (hf : s.status.fatal = false) (hd : decodeCommand w = .ok i)
    (hc : command i) : issueWord w s = exec i s := by
  unfold issueWord
  rw [issued_running hf, hd]
  exact runCommand_eq_exec hc s

theorem issueWord_illegal {w : U32} {s : State} (hf : s.status.fatal = false) (hd : ∀ i, decodeCommand w ≠ .ok i) :
    issueWord w s = raised .illegalCommand s := by
  unfold issueWord
  rw [issued_running hf]
  cases hw : decodeCommand w with
  | ok i => exact absurd hw (hd i)
  | error e => rfl

/-- Settles O5: the legal words are those that decode, and a write of CMD is the issue of its word. -/
theorem illegalCommandWordOnlyRaisesIllegalCommand : Obligations.IllegalCommandWordOnlyRaisesIllegalCommand := by
  unfold Obligations.IllegalCommandWordOnlyRaisesIllegalCommand
  intro s w hf
  rw [exec_writeCmd]
  refine ⟨fun hw => issueWord_illegal hf fun i hd => hw (legalWord_iff.mpr ⟨i, hd⟩), fun hw => ?_⟩
  obtain ⟨i, hd⟩ := legalWord_iff.mp hw
  obtain ⟨-, hop⟩ := decodeCommand_eq_ok.mp hd
  obtain ⟨hc, -⟩ := encode_of_decodeOp hop
  exact ⟨i, hd, hc, issueWord_command hf hd hc⟩

end Sys2Proof.Machine
end

section
/-! Decoding undoes encoding in the other formats: option records (30_encoding.md R91, R92), host transactions in the layout of log 5, and with the command words every format. Then what a selector does in the machine (R99, R100; 44_pipeline.md R205). -/

namespace Sys2Proof.Machine

open Sys2Proof.Statement

/-! ### Option records -/

/-- A record with a tag that is not known gives as many data bytes as its length says (42_option_chain.md R167). -/
theorem decodeOption_unknown {t l : Byte} {d : Bytes} (ht : knownTag t = false) (hl : d.length = l.toNat - 2) (rest : Bytes) :
    decodeOption (t :: l :: (d ++ rest)) = .ok (.optUnknown t l d) := by
  obtain ⟨h0, h1, h2, h3, h4, h8⟩ : t ≠ 0#8 ∧ t ≠ 1#8 ∧ t ≠ 2#8 ∧ t ≠ 3#8 ∧ t ≠ 4#8 ∧ t ≠ 8#8 := by
    simpa [knownTag, and_assoc] using ht
  simp [decodeOption, h0, h1, h2, h3, h4, h8, ← hl]

/-- Settles O2, kind by kind: a known kind is read by its tag and length, an UNKNOWN by its length. -/
theorem optionRecordIsReadInFrontOfAnyBytes : Obligations.OptionRecordIsReadInFrontOfAnyBytes := by
  unfold Obligations.OptionRecordIsReadInFrontOfAnyBytes
  intro i rest hi hw
  cases i with
  | optEol => rfl
  | optNop => rfl
  | optSackperm len => rfl
  | optMss len v =>
    by_cases hl : len = 4#8
    · simp [encode, decodeOption, hl, toBe16]
    · have hv : v = 0 := by simpa [Instr.wf, hl] using hw
      simp [encode, decodeOption, hl, hv]
  | optWs len sc =>
    by_cases hl : len = 3#8
    · simp [encode, decodeOption, hl]
    · have hv : sc = 0 := by simpa [Instr.wf, hl] using hw
      simp [encode, decodeOption, hl, hv]
  | optTs len a b =>
    by_cases hl : len = 10#8
    · simp [encode, decodeOption, hl, toBe32]
    · have hv : a = 0 ∧ b = 0 := by simpa [Instr.wf, hl] using hw
      simp [encode, decodeOption, hl, hv]
  | optUnknown t l d =>
    obtain ⟨ht, hl⟩ : knownTag t = false ∧ d.length = l.toNat - 2 := by simpa [Instr.wf] using hw
    exact decodeOption_unknown ht hl rest
  | _ => cases hi

/-! ### Host transactions -/

theorem decodeRecord_encodeRecord {o : TcpOption} (h : o.wf = true) : decodeRecord (encodeRecord o) = .ok o := by
  cases o with
  | eol => rfl
  | nop => rfl
  | sackperm => rfl
  | ws s => rfl
  | mss v => simp [encodeRecord, decodeRecord, toBe16]
  | ts a b => simp [encodeRecord, decodeRecord, toBe32]
  | unknown t d =>
    have hl : d.length < 256 := by simpa [TcpOption.wf] using h
    cases d with
    | nil => rfl
    | cons x d => simp [encodeRecord, decodeRecord, Nat.mod_eq_of_lt (show d.length + 1 < 256 from hl)]

theorem decodeValue_encodeValue {v : Value} (h : v.wf = true) : decodeValue (encodeValue v) = .ok v := by
  cases v with
  | num x => simp [encodeValue, decodeValue, toBe64]
  | opt o => simp [encodeValue, decodeValue, decodeRecord_encodeRecord h, Except.map]
  | none => rfl

theorem decodeTxn_encode {i : Instr} (hi : i.format = .hostTxn) (h : i.wf = true) : decodeTxn (encode i) = .ok i := by
  cases i with
  | regRead n => rfl
  | regWrite n v => simp [encode, decodeTxn, decodeValue_encodeValue h, Except.map]
  | bufRead b a => simp [encode, decodeTxn, toBe32]
  | bufWrite b a x => simp [encode, decodeTxn, toBe32]
  | _ => cases hi

/-! ### Every format -/

theorem decode_encode_command {i : Instr} (h : command i) : decode .cmd32 (encode i) = .ok i := by
  obtain ⟨op, arg, he, hd, -⟩ := command_encoding h
  rw [he, decode_commandBytes, hd]

/-- Settles O1, format by format. -/
theorem decodeOfEncodeIsTheInstruction : Obligations.DecodeOfEncodeIsTheInstruction := by
  unfold Obligations.DecodeOfEncodeIsTheInstruction
  intro i hw
  cases hi : i.format with
  | cmd32 => exact decode_encode_command hi
  | hostTxn => exact decodeTxn_encode hi hw
  | tcpOpt => simpa [decode] using optionRecordIsReadInFrontOfAnyBytes i [] hi hw
  | etype16 => cases i <;> cases hi <;> rfl
  | ipproto8 => cases i <;> cases hi <;> rfl

/-- Settles O4, by evaluation. -/
theorem writtenOutWordsDecode : Obligations.WrittenOutWordsDecode :=
  ⟨rfl, rfl, rfl, rfl, rfl, rfl, rfl, rfl, rfl, rfl⟩

/-! ### Selectors in the machine -/

theorem dispatchTo_handled {after next : Layer} {s : State} (h : s.seqr.phase = .handle after) :
    dispatchTo after next s = .next { s with seqr := { s.seqr with phase := .parse next } } := if_pos h

/-- A selector that no handler's end consults changes nothing (log 12). -/
theorem dispatchTo_elsewhere {after next : Layer} {s : State} (h : s.seqr.phase ≠ .handle after) :
    dispatchTo after next s = .next s := if_neg h

/-- Settles O46: each selector is a dispatch from the layer whose handler consults it. -/
theorem selectorsChooseTheNextLayer : Obligations.SelectorsChooseTheNextLayer := by
  unfold Obligations.SelectorsChooseTheNextLayer
  refine ⟨fun s h => ⟨dispatchTo_handled h, dispatchTo_handled h⟩,
    fun s h => ⟨dispatchTo_handled h, dispatchTo_handled h, dispatchTo_handled h⟩, fun s i h => ?_⟩
  rcases h with ⟨hi, hp⟩ | ⟨hi, hp⟩
  · cases i <;> cases hi <;> exact dispatchTo_elsewhere hp
  · cases i <;> cases hi <;> exact dispatchTo_elsewhere hp

end Sys2Proof.Machine
end

section
/-! The scan undoes the encoding of a chain (42_option_chain.md R160, R169, R172). -/

namespace Sys2Proof.Machine

open Sys2Proof.Statement

/-- An option that encodes to at most 40 bytes is one that a slot accepts. -/
theorem slotOk_of_encOpt {o : TcpOption} {b : Bytes} (h : encOpt o = some b) (hb : b.length ≤ 40) : slotOk o = true := by
  cases o with
  | unknown t d =>
    simp only [encOpt] at h
    split at h
    · cases h
    · cases h
      simp only [List.length_append, List.length_cons, List.length_nil] at hb
      exact decide_eq_true (show d.length ≤ 38 by omega)
  | _ => rfl

theorem encChain_cons {o : TcpOption} {c : List TcpOption} {b : Bytes} (h : encChain (o :: c) = some b) :
    ∃ bo bc, encOpt o = some bo ∧ encChain c = some bc ∧ b = bo ++ bc := by
  rw [encChain] at h
  split at h
  · next bo bc ho hc => cases h; exact ⟨bo, bc, ho, hc, rfl⟩
  · cases h

theorem eolOnlyLast_cons {o : TcpOption} {c : List TcpOption} (h : eolOnlyLast (o :: c)) :
    (o = .eol → c = []) ∧ eolOnlyLast c := by
  cases c with
  | nil => simp [eolOnlyLast]
  | cons p c =>
    simp only [eolOnlyLast, List.dropLast_cons_cons, List.mem_cons, not_or] at h
    exact ⟨fun ho => absurd ho.symm h.1, h.2⟩

/-- Scanning the bytes of a chain gives the chain back, one encoded option at a time (42_option_chain.md R172). -/
theorem decodeOptions_encChain {c : List TcpOption} : ∀ {b : Bytes}, eolOnlyLast c → encChain c = some b →
    b.length ≤ 40 → decodeOptions b = some c := by
  induction c with
  | nil => rintro b - h -; cases h; rfl
  | cons o c ih =>
    intro b hl h hb
    obtain ⟨bo, bc, ho, hc, rfl⟩ := encChain_cons h
    obtain ⟨hlast, htail⟩ := eolOnlyLast_cons hl
    rw [List.length_append] at hb
    by_cases he : o = .eol
    · obtain rfl := hlast he
      subst he
      cases ho; cases hc; rfl
    · have hs : slotOk o = true := slotOk_of_encOpt ho (by omega)
      rw [decodeOptions_encOpt ho hs he, ih htail hc (by omega)]
      rfl

end Sys2Proof.Machine
end

section
/-! The segment codec (40_segment_codec.md R122 to R125): the bytes of a segment, what SEG_DECODE, SEG_ENCODE and SEG_FIND_OPTION do, case by case, and SEG_DECODE on the bytes SEG_ENCODE left. -/

namespace Sys2Proof.Machine

open Sys2Proof.Statement

/-- A count that fits a register's width is kept by it. -/
theorem toNat_ofNat_of_lt {w x : Nat} (h : x < 2 ^ w) : (BitVec.ofNat w x).toNat = x :=
  (BitVec.toNat_ofNat ..).trans (Nat.mod_eq_of_lt h)

/-! ### The bytes of a segment -/

/-- `hdr ++ O ++ P` of `enc_segment(c)` (40_segment_codec.md R123). -/
def segmentBytes (g : Seg) (c : U16) (O P : Bytes) : Bytes := headerBytes g (20 + O.length) c ++ O ++ P

section SegmentBytes
variable (g : Seg) (c : U16) (O P : Bytes)

theorem segmentBytes_eq : segmentBytes g c O P = headerBytes g (20 + O.length) c ++ (O ++ P) := List.append_assoc ..

@[simp] theorem segmentBytes_length : (segmentBytes g c O P).length = 20 + O.length + P.length := by
  simp [segmentBytes, Nat.add_assoc]

theorem segmentBytes_options : ((segmentBytes g c O P).take (20 + O.length)).drop 20 = O := by
  rw [segmentBytes, List.take_left' (by simp), List.drop_left' (by simp)]

theorem segmentBytes_payload : (segmentBytes g c O P).drop (20 + O.length) = P := by
  rw [segmentBytes, List.drop_left' (by simp)]

theorem segmentBytes_tail : (segmentBytes g c O P).drop 20 = O ++ P := by
  rw [segmentBytes_eq, List.drop_left' (by simp)]

theorem segmentBytes_byte12 : byteAt (segmentBytes g c O P) 12 = byte12 (20 + O.length) g.flags := by
  rw [segmentBytes_eq, headerBytes_byte12]

theorem segmentBytes_byte13 : byteAt (segmentBytes g c O P) 13 = byte13 g.flags := by
  rw [segmentBytes_eq, headerBytes_byte13]

variable {O}

theorem tcpHeader_segmentBytes (h : goodLength O) : tcpHeader (segmentBytes g c O P) g (20 + O.length) c := by
  rw [segmentBytes_eq]
  refine ⟨by simp, headerBytes_sport .., headerBytes_dport .., headerBytes_seqno .., headerBytes_ackno .., ?_, ?_,
    headerBytes_win .., headerBytes_csum .., headerBytes_urp ..⟩
  · rw [headerBytes_byte12, byte12_toNat _ h.2]
  · rw [headerBytes_byte13, byte13_toNat]

theorem headerLength_segmentBytes (h : goodLength O) :
    headerLength (byteAt (segmentBytes g c O P) 12) = 20 + O.length := by
  rw [segmentBytes_byte12, headerLength_byte12 _ h.2 h.1]

/-- The header of an encoded segment passes SEG_DECODE's checks. -/
theorem decodeHeader_segmentBytes {ch : List TcpOption} (h : goodLength O) (hO : decodeOptions O = some ch) :
    decodeHeader (segmentBytes g c O P) = .ok (20 + O.length, ch) := by
  simp [decodeHeader, headerLength_segmentBytes g c P h, segmentBytes_options, hO, Nat.add_assoc]

/-- The fields come back: checksum field, chain length and payload length are those of the bytes. -/
theorem decodedSeg_segmentBytes (h : goodLength O) (ch : List TcpOption) :
    decodedSeg (segmentBytes g c O P) (20 + O.length) ch =
      { g with hlen := BitVec.ofNat 8 (20 + O.length), csum := c, optcnt := BitVec.ofNat 6 ch.length,
               plen := BitVec.ofNat 32 P.length } := by
  have hflags := flagsOf_bytes g.flags h.2
  have hplen : (segmentBytes g c O P).length - (20 + O.length) = P.length := by
    rw [segmentBytes_length, Nat.add_sub_cancel_left]
  simp only [decodedSeg, hplen]
  simp only [segmentBytes_eq, headerBytes_sport, headerBytes_dport, headerBytes_seqno, headerBytes_ackno, headerBytes_byte12,
    headerBytes_byte13, headerBytes_win, headerBytes_csum, headerBytes_urp, hflags]

end SegmentBytes

/-- With one flag set and no options, bytes 12 and 13 hold the nibble 5 and that flag's bit (40_segment_codec.md R126). -/
theorem oneFlag_bytes : ∀ {j : Nat}, j < 9 →
    byte12 20 (1#9 <<< j) = (if j = 8 then 0x51 else 0x50) ∧
    byte13 (1#9 <<< j) = (if j = 8 then 0x00 else 1#8 <<< j) := by decide

/-- Bits 3:1 of byte 12 are 0 on encode (30_encoding.md R90). -/
theorem byte12_reserved (h : Nat) (f : BitVec 9) : (byte12 h f).extractLsb' 1 3 = 0 := by
  apply BitVec.eq_of_getLsbD_eq
  intro i hi
  rw [BitVec.getLsbD_extractLsb', byte12, BitVec.getLsbD_append, BitVec.getLsbD_append]
  simp [hi, show 1 + i < 4 by omega]

/-! ### SEG_DECODE, case by case -/

section DecodeHeader
variable {W : Bytes}

theorem decodeHeader_short (h : W.length < 20) : decodeHeader W = .error .truncated := by
  rw [decodeHeader, if_pos h]

theorem decodeHeader_low (h20 : 20 ≤ W.length) (h : headerLength (byteAt W 12) < 20) :
    decodeHeader W = .error .malformedOptions := by
  simp [decodeHeader, h20, h]

theorem decodeHeader_beyond (h20 : 20 ≤ W.length) (h : W.length < headerLength (byteAt W 12)) :
    decodeHeader W = .error .truncated := by
  simp [decodeHeader, h20, show 20 ≤ headerLength (byteAt W 12) by omega, h]

variable (hmin : 20 ≤ headerLength (byteAt W 12)) (hin : headerLength (byteAt W 12) ≤ W.length)
include hmin hin

theorem decodeHeader_noChain (h : decodeOptions ((W.take (headerLength (byteAt W 12))).drop 20) = none) :
    decodeHeader W = .error .malformedOptions := by
  simp only [decodeHeader, if_neg (Nat.not_lt.mpr (hmin.trans hin)), if_neg (Nat.not_lt.mpr hmin), if_neg (Nat.not_lt.mpr hin), h]

theorem decodeHeader_chain {c : List TcpOption}
    (h : decodeOptions ((W.take (headerLength (byteAt W 12))).drop 20) = some c) :
    decodeHeader W = .ok (headerLength (byteAt W 12), c) := by
  simp only [decodeHeader, if_neg (Nat.not_lt.mpr (hmin.trans hin)), if_neg (Nat.not_lt.mpr hmin), if_neg (Nat.not_lt.mpr hin), h]

end DecodeHeader

section Decode
variable {s : State} {W : Bytes} (hf : s.status.fatal = false)
include hf

theorem execSegDecode_badWindow (hb : badWindow s) : execSegDecode s = .next (s.setErr .badWindow) :=
  (issued_running hf).trans (withWindow_outside hb)

theorem execSegDecode_error {e : Err} (hW : s.WindowIs W) (hd : decodeHeader W = .error e) :
    execSegDecode s = .next (s.setErr e) := by
  rw [execSegDecode, issued_running hf, withWindow_of_windowIs hW, hd]
  rfl

theorem execSegDecode_ok {h : Nat} {c : List TcpOption} (hW : s.WindowIs W) (hd : decodeHeader W = .ok (h, c)) :
    execSegDecode s = .next ((s.commitSegment W h c).setErr .none) := by
  rw [execSegDecode, issued_running hf, withWindow_of_windowIs hW, hd]
  rfl

end Decode

/-- The chain holds as many options as OPTCNT says, if there are that many slots (10_state.md R32). -/
theorem State.chain_length {s : State} (h : s.seg.optcnt.toNat ≤ s.opts.length) : s.chain.length = s.seg.optcnt.toNat := by
  rw [State.chain, List.length_take, Nat.min_eq_left h]

/-- The chain after the commit is the decoded one, if OPTCNT can count it. -/
theorem State.commitSegment_chain {s : State} {W : Bytes} {h : Nat} {c : List TcpOption} {e : Err} (hc : c.length < 2 ^ 6) :
    ((s.commitSegment W h c).setErr e).chain = c := by
  have hcnt : ((s.commitSegment W h c).setErr e).seg.optcnt.toNat = c.length :=
    toNat_ofNat_of_lt hc
  rw [State.chain, hcnt]
  exact List.take_left

/-! ### SEG_ENCODE, case by case -/

/-- `HLEN <- h` with the recomputed header length (40_segment_codec.md R123). -/
def State.setHlen (s : State) (O : Bytes) : State :=
  { s with seg := { s.seg with hlen := BitVec.ofNat 8 (20 + O.length) } }

/-- What SEG_ENCODE commits: the header length, the bytes at OBUF[OOFF..) and their count. -/
def State.commitEncode (s : State) (O P : Bytes) : State :=
  ((s.setHlen O).putOut (segmentBytes s.seg s.seg.csum O P)).setErr .none

theorem encodedOptions_of_encChain_none {s : State} (h : encChain s.chain = none) : encodedOptions s = none := by
  rw [encodedOptions, h]

theorem encodedOptions_of_badLength {s : State} {O : Bytes} (h : encChain s.chain = some O) (hl : ¬ goodLength O) :
    encodedOptions s = none := by
  rw [Option.eq_none_iff_forall_ne_some]
  intro X hX
  obtain ⟨hc, hlen⟩ := encodedOptions_eq_some.mp hX
  obtain rfl : O = X := Option.some.inj (h.symm.trans hc)
  exact hl hlen

section Encode
variable {s : State} (hf : s.status.fatal = false)
include hf

theorem execSegEncode_eiv (ho : encodedOptions s = none) : execSegEncode s = halted s := by
  rw [execSegEncode, issued_running hf, withSegment, ho]
  rfl

theorem execSegEncode_ok {O P : Bytes} (ho : encodedOptions s = some O) (hl : P.length = s.seg.plen.toNat)
    (hP : s.Holds .pbuf 0 P) : execSegEncode s = .next (s.commitEncode O P) := by
  rw [execSegEncode, issued_running hf, withSegment_of ho hl hP]
  rfl

/-- From a running block SEG_ENCODE is EIV or commits the bytes of the segment. -/
theorem execSegEncode_running {t : State} (h : execSegEncode s = .next t) :
    RaisedEiv s t ∨ ∃ O P, encodedOptions s = some O ∧ P.length = s.seg.plen.toNat ∧ s.Holds .pbuf 0 P ∧
      t = s.commitEncode O P := by
  rcases execSegEncode_next h with (⟨hh, -⟩ | ⟨-, e, he, -⟩) | h | ⟨-, O, P, E, ho, hl, hP, rfl, rfl⟩
  · rw [hf] at hh; cases hh
  · cases he
  · exact .inl h
  · exact .inr ⟨O, P, ho, hl, hP, rfl⟩

end Encode

theorem State.commitEncode_holds (s : State) (O P : Bytes) :
    (s.commitEncode O P).Holds .obuf s.out.ooff.toNat (segmentBytes s.seg s.seg.csum O P) :=
  State.putOut_holds (s.setHlen O) _ _

theorem State.commitEncode_sameOutside (s : State) (O P : Bytes) :
    s.SameOutside (s.commitEncode O P) .obuf s.out.ooff.toNat (segmentBytes s.seg s.seg.csum O P).length :=
  State.putOut_sameOutside (s.setHlen O) _ _

/-- What SEG_ENCODE writes beside OBUF; everything else is as before. -/
theorem State.commitEncode_frame (s : State) (O P : Bytes) : s.commitEncode O P =
    { s with
      status := doneStatus s
      seg := { s.seg with hlen := BitVec.ofNat 8 (20 + O.length) }
      out := { s.out with olen := BitVec.ofNat 32 (segmentBytes s.seg s.seg.csum O P).length }
      obuf := (s.commitEncode O P).obuf } := by
  unfold State.commitEncode
  generalize segmentBytes s.seg s.seg.csum O P = E
  rfl

/-- With OOFF = 0 byte k of the segment is byte k of OBUF. -/
theorem State.commitEncode_byte {s : State} (h0 : s.out.ooff = 0) (O P : Bytes) {k : Nat}
    (hk : k < 20 + O.length + P.length) :
    (s.commitEncode O P).byte? .obuf k = some (byteAt (segmentBytes s.seg s.seg.csum O P) k) := by
  have := s.commitEncode_holds O P k (by simpa using hk)
  simpa [h0] using this

theorem State.commitEncode_olen (s : State) (O P : Bytes) :
    (s.commitEncode O P).out.olen = BitVec.ofNat 32 (20 + O.length + P.length) :=
  congrArg (BitVec.ofNat 32) (segmentBytes_length ..)

/-! ### From OBUF to a window -/

/-- A window that holds what SEG_ENCODE left in OBUF[0..OLEN) is a window of the segment's bytes. -/
theorem windowIs_of_commitEncode {s u : State} {O P : Bytes} (h0 : s.out.ooff = 0)
    (hlen : u.win.ilen.toNat = 20 + O.length + P.length) (hwin : u.win.ioff.toNat + u.win.ilen.toNat ≤ u.cfg.ibufBytes)
    (hcopy : ∀ k, k < u.win.ilen.toNat → u.byte? .ibuf (u.win.ioff.toNat + k) = (s.commitEncode O P).byte? .obuf k) :
    u.WindowIs (segmentBytes s.seg s.seg.csum O P) := by
  refine ⟨hwin, by simp [hlen], fun k hk => ?_⟩
  rw [segmentBytes_length] at hk
  rw [hcopy k (hlen ▸ hk), State.commitEncode_byte h0 O P hk]

/-- SEG_DECODE of an encoded segment. -/
theorem execSegDecode_segmentBytes {u : State} {g : Seg} {c : U16} {O P : Bytes} {ch : List TcpOption}
    (hf : u.status.fatal = false) (hW : u.WindowIs (segmentBytes g c O P)) (hl : goodLength O)
    (hO : decodeOptions O = some ch) :
    execSegDecode u = .next ((u.commitSegment (segmentBytes g c O P) (20 + O.length) ch).setErr .none) :=
  execSegDecode_ok hf hW (decodeHeader_segmentBytes g c P hl hO)

/-! ### SEG_FIND_OPTION -/

theorem execSegFindOption_of {s : State} {kind : Byte} {r : Option TcpOption} (hf : s.status.fatal = false)
    (h : s.chain.find? (fun o => o.kind == kind) = r) : execSegFindOption kind s =
      .next { s with fopt := r, status := { s.status with err := .none, found := r.isSome } } := by
  subst h
  exact issued_running hf

end Sys2Proof.Machine
end

section
/-! The statements about the segment commands (40_segment_codec.md R121 to R127). -/

namespace Sys2Proof.Machine

open Sys2Proof.Statement

/-- Settles O35: the window holds the segment's bytes, whose header and option area decode to the fields and the chain they were made of. -/
theorem segmentRoundTrip : Obligations.SegmentRoundTrip := by
  unfold Obligations.SegmentRoundTrip
  intro s t u hinv hsf h0 heol ht hterr huf hilen hwin hcopy
  obtain ⟨-, hibuf, -, -⟩ := hinv.cfg
  obtain ⟨-, -, hopt, hplen, -, -⟩ := hinv.ranges
  obtain ⟨hslots, -, -⟩ := hinv.slots
  rcases execSegEncode_running hsf ht with ⟨-, rfl⟩ | ⟨O, P, ho, hl, hP, rfl⟩
  · cases hterr
  obtain ⟨hch, hgood⟩ := encodedOptions_eq_some.mp ho
  have hdec : decodeOptions O = some s.chain := decodeOptions_encChain heol hch (by omega)
  have hcount : s.chain.length = s.seg.optcnt.toNat := State.chain_length (hslots ▸ hopt)
  have hlen : u.win.ilen.toNat = 20 + O.length + P.length := by
    simp only [Config.pbufBytes] at hplen
    rw [hilen, State.commitEncode_olen, toNat_ofNat_of_lt (by omega)]
  have hW := windowIs_of_commitEncode h0 hlen hwin (hilen ▸ hcopy)
  refine ⟨_, execSegDecode_segmentBytes huf hW hgood hdec, rfl, ?_, ?_, fun k hk => ?_, rfl⟩
  · rw [State.setErr_seg, State.commitSegment_seg, decodedSeg_segmentBytes _ _ _ hgood, hcount, hl,
      BitVec.ofNat_toNat, BitVec.ofNat_toNat, BitVec.setWidth_eq, BitVec.setWidth_eq]
    rfl
  · exact State.commitSegment_chain (by rw [hcount]; exact s.seg.optcnt.isLt)
  · have hv := u.commitSegment_holds (segmentBytes s.seg s.seg.csum O P) (20 + O.length) s.chain .none
    rw [segmentBytes_payload] at hv
    rw [← Nat.zero_add k, hv k (hl ▸ hk), hP k (hl ▸ hk)]

/-- Settles O20: the window's bytes decide the branch of `decodeHeader`, and the commit is read off field by field. -/
theorem segDecodeFollowsItsRule : Obligations.SegDecodeFollowsItsRule := by
  unfold Obligations.SegDecodeFollowsItsRule
  intro s hf
  refine ⟨execSegDecode_badWindow hf, fun W hW => ⟨fun h20 => execSegDecode_error hf hW (decodeHeader_short h20),
    fun h h20 hh => ?_⟩⟩
  rw [← headerLength_toNat] at hh
  subst hh
  refine ⟨fun hlow => execSegDecode_error hf hW (decodeHeader_low h20 hlow),
    fun hmin hlong => execSegDecode_error hf hW (decodeHeader_beyond h20 hlong),
    fun hmin hin hscan => execSegDecode_error hf hW (decodeHeader_noChain hmin hin hscan),
    fun ch hmin hin hscan => ?_⟩
  have hd := decodeHeader_chain hmin hin hscan
  obtain ⟨-, -, -, h60, -, -, h40, -⟩ := decodeHeader_ok hd
  have hWlen : W.length < 2 ^ 32 := by
    obtain ⟨-, hilen, -⟩ := hW
    exact hilen ▸ s.win.ilen.isLt
  refine ⟨_, execSegDecode_ok hf hW hd, rfl, rfl, rfl, rfl, ?_, flagsOf_toNat _ _, rfl, rfl, rfl, ?_, ?_,
    fun k hk => putChain_inside hk, fun k hk => putChain_outside hk, s.commitSegment_holds _ _ _ _, ?_, rfl, rfl⟩
  · exact toNat_ofNat_of_lt (by omega)
  · exact toNat_ofNat_of_lt (by omega)
  · exact toNat_ofNat_of_lt (by omega)
  · rw [← List.length_drop]
    exact s.commitSegment_sameOutside _ _ _ _

/-- Settles O21: a chain whose options do not encode is EIV; otherwise the bytes of the segment stand at OBUF[OOFF..). -/
theorem segEncodeFollowsItsRule : Obligations.SegEncodeFollowsItsRule := by
  unfold Obligations.SegEncodeFollowsItsRule
  intro s hf
  refine ⟨fun hc => execSegEncode_eiv hf (encodedOptions_of_encChain_none hc),
    fun O hc => ⟨fun hl => execSegEncode_eiv hf (encodedOptions_of_badLength hc hl), fun P hgood hlen hP => ?_⟩⟩
  exact ⟨_, _, execSegEncode_ok hf (encodedOptions_eq_some.mpr ⟨hc, hgood⟩) hlen hP, tcpHeader_segmentBytes _ _ _ hgood,
    segmentBytes_tail .., s.commitEncode_holds O P, s.commitEncode_sameOutside O P, s.commitEncode_frame O P⟩

/-- Settles O22: the linear scan is `List.find?`, which finds the first match or none. -/
theorem segFindOptionFindsTheFirst : Obligations.SegFindOptionFindsTheFirst := by
  unfold Obligations.SegFindOptionFindsTheFirst
  intro s kind hf
  refine ⟨fun i o hi hk hfirst => ?_, fun hnone => ?_⟩
  · obtain ⟨hlt, hget⟩ := List.getElem?_eq_some_iff.mp hi
    have hfind : s.chain.find? (fun o => o.kind == kind) = some o := by
      refine List.find?_eq_some_iff_getElem.mpr ⟨by simp [hk], i, hlt, hget, fun j hj => ?_⟩
      simpa using hfirst j _ hj (List.getElem?_eq_getElem (hj.trans hlt))
    exact execSegFindOption_of hf hfind
  · exact execSegFindOption_of hf (List.find?_eq_none.mpr (by simpa using hnone))

/-- Settles O36: the bytes are those of a segment with no options and no payload, and the decode of a window that holds them gives its fields back. -/
theorem eachFlagHasItsOwnBit : Obligations.EachFlagHasItsOwnBit := by
  unfold Obligations.EachFlagHasItsOwnBit
  intro s j hj hf h0 hs
  have hchain : s.chain = [] := by simp [State.chain, hs, Seg.empty]
  have henc : encodedOptions s = some [] := encodedOptions_eq_some.mpr ⟨by rw [hchain]; rfl, by decide⟩
  have hflags : s.seg.flags = 1#9 <<< j := by rw [hs]
  obtain ⟨h12, h13⟩ := oneFlag_bytes hj
  refine ⟨_, execSegEncode_ok (P := []) hf henc (by simp [hs, Seg.empty]) (fun k hk => by cases hk), rfl, ?_, ?_,
    fun u huf hilen hwin hcopy => ?_⟩
  · rw [State.commitEncode_byte h0 _ _ (by simp), segmentBytes_byte12, hflags]
    exact congrArg some h12
  · rw [State.commitEncode_byte h0 _ _ (by simp), segmentBytes_byte13, hflags]
    exact congrArg some h13
  · have hlen : u.win.ilen.toNat = 20 := by rw [hilen]; rfl
    have hW := windowIs_of_commitEncode (O := []) (P := []) h0 hlen (hlen.symm ▸ hwin) (hlen.symm ▸ hcopy)
    refine ⟨_, execSegDecode_segmentBytes huf hW (by decide) rfl, rfl, ?_⟩
    rw [State.setErr_seg, State.commitSegment_seg, decodedSeg_segmentBytes _ _ _ (by decide)]
    exact hflags

/-- Settles O37: what is committed has a good length, and byte 12 of the header is OBUF[12]. -/
theorem encodedHeaderLengthIsLegal : Obligations.EncodedHeaderLengthIsLegal := by
  unfold Obligations.EncodedHeaderLengthIsLegal
  intro s t hf h0 ht
  rcases execSegEncode_running hf ht with ⟨-, rfl⟩ | ⟨O, P, ho, -, -, rfl⟩
  · exact .inl ⟨rfl, rfl⟩
  obtain ⟨-, hgood⟩ := encodedOptions_eq_some.mp ho
  have hhlen : (s.commitEncode O P).seg.hlen.toNat = 20 + O.length :=
    toNat_ofNat_of_lt (by omega)
  rw [hhlen]
  refine .inr ⟨rfl, by omega, hgood.2, hgood.1, _, State.commitEncode_byte h0 O P (by omega),
    headerLength_segmentBytes _ _ _ hgood, ?_⟩
  rw [segmentBytes_byte12, byte12_reserved]

/-- Settles O19: the commit of SEG_NEW, whose `nextTrk + 1` is addition modulo 2^32. -/
theorem segNewMakesAnEmptySegment : Obligations.SegNewMakesAnEmptySegment := by
  unfold Obligations.SegNewMakesAnEmptySegment
  intro s link hf
  have hnext : BitVec.ofNat 32 ((s.track.nextTrk.toNat + 1) % 2 ^ 32) = s.track.nextTrk + 1 :=
    BitVec.eq_of_toNat_eq (by simp [BitVec.toNat_add])
  rw [hnext, exec, execSegNew, issued_running hf]
  rfl

end Sys2Proof.Machine
end

section
/-! The checksum arithmetic and its input (41_checksum.md R140 to R142, R151): the two special results, the order of the words, and the bytes that are summed. -/

namespace Sys2Proof.Machine

/-! ### The folded sum -/

/-- All ones is the checksum of the folded sum 0 alone (R142 c). -/
theorem ocsum_eq_ones {D : Bytes} : ocsum D = 0xFFFF ↔ foldedSum D = 0 := by
  have hle := foldedSum_le D
  rw [← BitVec.toNat_inj, ocsum_toNat, show (0xFFFF : U16).toNat = 0xFFFF from rfl]
  omega

/-- Zero is the checksum of the folded sum 0xFFFF alone (R142 c, R151). -/
theorem ocsum_eq_zero {D : Bytes} : ocsum D = 0 ↔ foldedSum D = 0xFFFF := by
  have hle := foldedSum_le D
  rw [← BitVec.toNat_inj, ocsum_toNat, show (0 : U16).toNat = 0 from rfl]
  omega

/-- Exchanging two neighbouring words keeps the sum (R142 d). -/
theorem wordSum_swap {A : Bytes} (B : Bytes) (a b c d : Byte) (hA : A.length % 2 = 0) :
    wordSum (A ++ a :: b :: c :: d :: B) = wordSum (A ++ c :: d :: a :: b :: B) := by
  simp only [wordSum_append _ _ hA, wordSum]
  omega

/-- Settles O28: the laws of the fold, and that the checksum depends on the word sum alone. -/
theorem checksumArithmetic : Obligations.ChecksumArithmetic := by
  unfold Obligations.ChecksumArithmetic
  exact ⟨fun D => ⟨foldedSum_le D, foldedSum_mod D,
      ocsum_eq_ones.trans (foldedSum_eq_zero.trans (wordSum_eq_zero D)), ocsum_eq_zero⟩,
    fun A B a b c d hA => ocsum_congr (wordSum_swap B a b c d hA)⟩

/-! ### The summed bytes -/

theorem byteAt_append_right (A B : Bytes) (k : Nat) : byteAt (A ++ B) (A.length + k) = byteAt B k := by
  simp [byteAt, List.getElem?_append_right]

theorem zeroTwo_append_right (A B : Bytes) (i : Nat) : zeroTwo (A ++ B) (A.length + i) = A ++ zeroTwo B i := by
  simp [zeroTwo, List.set_append_right, Nat.add_assoc]

theorem be16At_zeroTwo_same {D : Bytes} {i : Nat} (h : i + 1 < D.length) : be16At (zeroTwo D i) i = 0 := by
  have hi : i < D.length := by omega
  simp [be16At, byteAt, zeroTwo, h, hi, be16]

theorem byteAt_zeroTwo_other (D : Bytes) {i k : Nat} (h0 : k ≠ i) (h1 : k ≠ i + 1) :
    byteAt (zeroTwo D i) k = byteAt D k := by
  simp [byteAt, zeroTwo, List.getElem?_set_ne h0.symm, List.getElem?_set_ne h1.symm]

@[simp] theorem PseudoHdr.bytes_length (p : PseudoHdr) : p.bytes.length = 12 := rfl

/-- Byte k of a segment stands at 12 + k behind the pseudo-header. -/
theorem PseudoHdr.byteAt_bytes_append (p : PseudoHdr) (E : Bytes) (k : Nat) : byteAt (p.bytes ++ E) (12 + k) = byteAt E k :=
  byteAt_append_right p.bytes E k

theorem PseudoHdr.be16At_bytes_append (p : PseudoHdr) (E : Bytes) (k : Nat) : be16At (p.bytes ++ E) (12 + k) = be16At E k :=
  congrArg₂ be16 (p.byteAt_bytes_append E k) (p.byteAt_bytes_append E (k + 1))

/-- The zeroed bytes 28 and 29 are the segment's checksum field (R141). -/
theorem tcpSumInput_eq (p : PseudoHdr) (E : Bytes) : tcpSumInput p E = p.bytes ++ zeroTwo E 16 :=
  zeroTwo_append_right p.bytes E 16

/-- The pseudo-header's fields come back (30_encoding.md R93). -/
theorem PseudoHdr.bytes_fields (p : PseudoHdr) (R : Bytes) :
    be32At (p.bytes ++ R) 0 = p.src ∧ be32At (p.bytes ++ R) 4 = p.dst ∧
    be16At (p.bytes ++ R) 8 = p.proto ∧ be16At (p.bytes ++ R) 10 = p.len :=
  ⟨be32_toBe32 p.src, be32_toBe32 p.dst, be16_toBe16 p.proto, be16_toBe16 p.len⟩

/-- Settles O27: the input is the pseudo-header followed by the segment with two bytes zeroed. -/
theorem checksumInputIsPseudoHeaderAndSegment : Obligations.ChecksumInputIsPseudoHeaderAndSegment := by
  unfold Obligations.ChecksumInputIsPseudoHeaderAndSegment
  intro p E h20
  rw [tcpSumInput_eq]
  obtain ⟨hsrc, hdst, hproto, hlen⟩ := p.bytes_fields (zeroTwo E 16)
  refine ⟨by simp, hsrc, hdst, hproto, hlen, ?_, fun k h16 h17 => ?_⟩
  · exact (p.be16At_bytes_append _ 16).trans (be16At_zeroTwo_same (by omega))
  · exact (p.byteAt_bytes_append _ k).trans (byteAt_zeroTwo_other E h16 h17)

end Sys2Proof.Machine
end

section
/-! CSUM_VERIFY (41_checksum.md R145 to R149): its three ends, once for all four layers, and what each layer's check answers. -/

namespace Sys2Proof.Machine

open Sys2Proof.Statement

/-! ### The common part -/

section CsumVerify
variable {verify : Bytes → Except Err (U16 × Bool)} {s : State} {W : Bytes} (hf : s.status.fatal = false)
include hf

theorem issued_csumVerify_badWindow (hb : badWindow s) : issued (csumVerify verify) s = raised .badWindow s :=
  (issued_running hf).trans (withWindow_outside hb)

theorem issued_csumVerify_error {e : Err} (hW : s.WindowIs W) (hv : verify W = .error e) :
    issued (csumVerify verify) s = raised e s := by
  rw [issued_running hf, csumVerify, withWindow_of_windowIs hW, hv]
  rfl

theorem issued_csumVerify_ok {c : U16} {ok : Bool} (hW : s.WindowIs W) (hv : verify W = .ok (c, ok)) :
    issued (csumVerify verify) s =
      .next { s with result := c, status := { s.status with err := .none, csumOk := ok } } := by
  rw [issued_running hf, csumVerify, withWindow_of_windowIs hW, hv]
  rfl

end CsumVerify

/-! ### The layers -/

section Layers
variable (p : PseudoHdr) {W : Bytes}

theorem verifyTcp_short (h : W.length < 20) : verifyTcp p W = .error .truncated := if_pos h

theorem verifyTcp_long (h : 20 ≤ W.length) :
    verifyTcp p W = .ok (ocsum (tcpSumInput p W), ocsum (tcpSumInput p W) == be16At W 16) := if_neg (Nat.not_lt.mpr h)

theorem verifyUdp_short (h : W.length < 8) : verifyUdp p W = .error .truncated := if_pos h

theorem verifyUdp_long {c0 c : U16} (h : 8 ≤ W.length) (h0 : c0 = ocsum (zeroTwo (p.bytes ++ W) 18))
    (hc : c = if c0 = 0 then 0xFFFF else c0) :
    verifyUdp p W = .ok (c, be16At W 6 == 0 || c == be16At W 6) := by
  subst h0 hc
  exact if_neg (Nat.not_lt.mpr h)

theorem verifyIcmp_short (h : W.length < 4) : verifyIcmp W = .error .truncated := if_pos h

theorem verifyIcmp_long (h : 4 ≤ W.length) :
    verifyIcmp W = .ok (ocsum (zeroTwo W 2), ocsum (zeroTwo W 2) == be16At W 2) := if_neg (Nat.not_lt.mpr h)

/-- IHL is the low nibble of the first byte (30_encoding.md R96). -/
theorem lowNibble_toNat (b : Byte) : (b.extractLsb' 0 4).toNat = b.toNat % 16 := by
  simp [BitVec.extractLsb'_toNat]

theorem verifyIp4_short (h : W.length < 20) : verifyIp4 W = .error .truncated := if_pos h

/-- What follows the first check of R149, with IHL as a number. -/
theorem verifyIp4_long (h : 20 ≤ W.length) : verifyIp4 W =
    if (byteAt W 0).toNat % 16 < 5 then .error .malformedHeader
    else if W.length < 4 * ((byteAt W 0).toNat % 16) then .error .truncated
    else .ok (ocsum (zeroTwo (W.take (4 * ((byteAt W 0).toNat % 16))) 10),
      ocsum (zeroTwo (W.take (4 * ((byteAt W 0).toNat % 16))) 10) == be16At W 10) := by
  rw [verifyIp4, if_neg (Nat.not_lt.mpr h), lowNibble_toNat]

end Layers

/-- Settles O25: each branch of the layer's check is one end of CSUM_VERIFY. -/
theorem csumVerifyWithPseudoHeader : Obligations.CsumVerifyWithPseudoHeader := by
  unfold Obligations.CsumVerifyWithPseudoHeader
  intro s hf
  exact ⟨fun hb => ⟨issued_csumVerify_badWindow hf hb, issued_csumVerify_badWindow hf hb⟩,
    fun W hW => ⟨fun h => issued_csumVerify_error hf hW (verifyTcp_short s.ph h),
      fun h => issued_csumVerify_ok hf hW (verifyTcp_long s.ph h),
      fun h => issued_csumVerify_error hf hW (verifyUdp_short s.ph h),
      fun _ _ h h0 hc => issued_csumVerify_ok hf hW (verifyUdp_long s.ph h h0 hc)⟩⟩

/-- Settles O26: the same ends, and for IPv4 the checks on IHL in their order. -/
theorem csumVerifyWithoutPseudoHeader : Obligations.CsumVerifyWithoutPseudoHeader := by
  unfold Obligations.CsumVerifyWithoutPseudoHeader
  intro s hf
  refine ⟨fun hb => ⟨issued_csumVerify_badWindow hf hb, issued_csumVerify_badWindow hf hb⟩,
    fun W hW => ⟨fun h => issued_csumVerify_error hf hW (verifyIcmp_short h),
      fun h => issued_csumVerify_ok hf hW (verifyIcmp_long h),
      fun h => issued_csumVerify_error hf hW (verifyIp4_short h), fun ihl h20 hihl => ?_⟩⟩
  have hlong := verifyIp4_long h20
  rw [← hihl] at hlong
  refine ⟨fun hlow => issued_csumVerify_error hf hW ?_, fun hmin hout => issued_csumVerify_error hf hW ?_,
    fun hmin hin => issued_csumVerify_ok hf hW ?_⟩
  · rw [hlong, if_pos hlow]
  · rw [hlong, if_neg (by omega), if_pos hout]
  · rw [hlong, if_neg (by omega), if_neg (by omega)]

end Sys2Proof.Machine
end

section
/-! SEG_CHECKSUM and SEG_GET_RAW (41_checksum.md R143, R144), case by case, and the segment that SEG_GET_RAW finalised verifies (R150). -/

namespace Sys2Proof.Machine

open Sys2Proof.Statement

/-! ### The segment and its checksum -/

/-- Bytes with the segment's header, options and payload are the bytes of the segment. -/
theorem eq_segmentBytes {E O P : Bytes} {g : Seg} {c : U16} (hl : goodLength O) (hE : tcpHeader E g (20 + O.length) c)
    (hOP : E.drop 20 = O ++ P) : E = segmentBytes g c O P := by
  obtain ⟨h20, hsport, hdport, hseq, hack, h12, h13, hwin, hcsum, hurp⟩ := hE
  rw [segmentBytes_eq, ← hOP]
  exact headerBytes_of_fields hl.2 h20 hsport hdport hseq hack h12 h13 hwin hcsum hurp

theorem putBe16_segmentBytes (g : Seg) (c d : U16) (O P : Bytes) :
    putBe16 (segmentBytes g c O P) 16 d = segmentBytes g d O P := by
  rw [segmentBytes_eq, segmentBytes_eq, putBe16_headerBytes]

/-- The checksum of the segment with options O and payload P, its own field counted as 0: `ocsum(tcp_sum_input(E0))` (R143). -/
def State.segmentChecksum (s : State) (O P : Bytes) : U16 := ocsum (tcpSumInput s.ph (segmentBytes s.seg 0 O P))

/-- Whatever the checksum field holds, the checksum is the same. -/
theorem ocsum_segmentBytes (s : State) (c : U16) (O P : Bytes) :
    ocsum (tcpSumInput s.ph (segmentBytes s.seg c O P)) = s.segmentChecksum O P := by
  rw [State.segmentChecksum, segmentBytes_eq, segmentBytes_eq, tcpSumInput_headerBytes]

/-- The final bytes: the segment with its checksum filled in (R144). -/
def State.finalBytes (s : State) (O P : Bytes) : Bytes := segmentBytes s.seg (s.segmentChecksum O P) O P

theorem State.finalBytes_length (s : State) (O P : Bytes) : (s.finalBytes O P).length = 20 + O.length + P.length :=
  segmentBytes_length ..

theorem State.finalBytes_csum (s : State) (O P : Bytes) : be16At (s.finalBytes O P) 16 = s.segmentChecksum O P := by
  rw [State.finalBytes, segmentBytes_eq, headerBytes_csum]

theorem State.ocsum_finalBytes (s : State) (O P : Bytes) :
    ocsum (tcpSumInput s.ph (s.finalBytes O P)) = s.segmentChecksum O P := ocsum_segmentBytes ..

/-! ### The two commands, case by case -/

/-- What SEG_GET_RAW commits: CSUM, RESULT and HLEN, the final bytes at OBUF[OOFF..) and their count. -/
def State.commitRaw (s : State) (O P : Bytes) : State :=
  (State.putOut { s.setHlen O with
    seg := { (s.setHlen O).seg with csum := s.segmentChecksum O P }
    result := s.segmentChecksum O P } (s.finalBytes O P)).setErr .none

theorem withSegment_eiv {s : State} {c : U16} {k : Nat → Bytes → Out} (ho : encodedOptions s = none) :
    withSegment s c k = halted s := by
  rw [withSegment, ho]
  rfl

section Commands
variable {s : State} (hf : s.status.fatal = false)
include hf

theorem execSegChecksum_eiv (ho : encodedOptions s = none) : execSegChecksum s = halted s :=
  (issued_running hf).trans (withSegment_eiv ho)

theorem execSegGetRaw_eiv (ho : encodedOptions s = none) : execSegGetRaw s = halted s :=
  (issued_running hf).trans (withSegment_eiv ho)

variable {O P : Bytes} (ho : encodedOptions s = some O) (hl : P.length = s.seg.plen.toNat) (hP : s.Holds .pbuf 0 P)
include ho hl hP

theorem execSegChecksum_ok :
    execSegChecksum s = .next { s with status := doneStatus s, result := s.segmentChecksum O P } := by
  rw [execSegChecksum, issued_running hf, withSegment_of ho hl hP]
  rfl

theorem execSegGetRaw_ok : execSegGetRaw s = .next (s.commitRaw O P) := by
  rw [execSegGetRaw, issued_running hf, withSegment_of ho hl hP, State.commitRaw, State.finalBytes,
    ← putBe16_segmentBytes s.seg 0]
  rfl

end Commands

theorem State.commitRaw_holds (s : State) (O P : Bytes) :
    (s.commitRaw O P).Holds .obuf s.out.ooff.toNat (s.finalBytes O P) :=
  State.putOut_holds _ _ .none

theorem State.commitRaw_sameOutside (s : State) (O P : Bytes) :
    s.SameOutside (s.commitRaw O P) .obuf s.out.ooff.toNat (s.finalBytes O P).length :=
  State.putOut_sameOutside _ _ .none

/-- What SEG_GET_RAW writes beside OBUF; everything else is as before. -/
theorem State.commitRaw_frame (s : State) (O P : Bytes) : s.commitRaw O P =
    { s with
      status := doneStatus s
      result := s.segmentChecksum O P
      seg := { s.seg with csum := s.segmentChecksum O P, hlen := BitVec.ofNat 8 (20 + O.length) }
      out := { s.out with olen := BitVec.ofNat 32 (s.finalBytes O P).length }
      obuf := (s.commitRaw O P).obuf } := by
  unfold State.commitRaw
  generalize s.segmentChecksum O P = c, s.finalBytes O P = E
  rfl

/-- Settles O23: the bytes given are the segment's, with some checksum field that is not summed. -/
theorem segChecksumWritesResultOnly : Obligations.SegChecksumWritesResultOnly := by
  unfold Obligations.SegChecksumWritesResultOnly
  intro s hf
  refine ⟨fun hc => execSegChecksum_eiv hf (encodedOptions_of_encChain_none hc),
    fun O hc => ⟨fun hl => execSegChecksum_eiv hf (encodedOptions_of_badLength hc hl),
      fun P E c hgood hlen hP hE hOP => ?_⟩⟩
  rw [eq_segmentBytes hgood hE hOP, ocsum_segmentBytes]
  exact execSegChecksum_ok hf (encodedOptions_eq_some.mpr ⟨hc, hgood⟩) hlen hP

/-- Settles O24: the final bytes carry the checksum that is taken over them. -/
theorem segGetRawStoresTheChecksumAndTheBytes : Obligations.SegGetRawStoresTheChecksumAndTheBytes := by
  unfold Obligations.SegGetRawStoresTheChecksumAndTheBytes
  intro s hf
  refine ⟨fun hc => execSegGetRaw_eiv hf (encodedOptions_of_encChain_none hc),
    fun O hc => ⟨fun hl => execSegGetRaw_eiv hf (encodedOptions_of_badLength hc hl), fun P hgood hlen hP => ?_⟩⟩
  refine ⟨s.commitRaw O P, s.finalBytes O P, execSegGetRaw_ok hf (encodedOptions_eq_some.mpr ⟨hc, hgood⟩) hlen hP, ?_,
    segmentBytes_tail .., s.commitRaw_holds O P, s.commitRaw_sameOutside O P, ?_⟩
  · rw [State.ocsum_finalBytes]
    exact tcpHeader_segmentBytes _ _ _ hgood
  · rw [State.ocsum_finalBytes]
    exact s.commitRaw_frame O P

/-! ### The final bytes verify -/

/-- A buffer holds one sequence of a given length at an address. -/
theorem State.Holds_unique {s : State} {b : BufId} {a : Nat} {B C : Bytes} (hB : s.Holds b a B) (hC : s.Holds b a C)
    (hl : B.length = C.length) : B = C :=
  Except.ok.inj <| ((Memory.readRange_eq_ok _ _ a B).mpr ⟨hl, hB⟩).symm.trans ((Memory.readRange_eq_ok _ _ a C).mpr ⟨rfl, hC⟩)

/-- A window onto a copy of OBUF[0..ILEN) is a window of the bytes OBUF holds there. -/
theorem windowIs_of_copy {t u : State} {E : Bytes} (hE : t.Holds .obuf 0 E) (hlen : E.length = u.win.ilen.toNat)
    (hwin : u.win.ioff.toNat + u.win.ilen.toNat ≤ u.cfg.ibufBytes)
    (hcopy : ∀ k, k < u.win.ilen.toNat → u.byte? .ibuf (u.win.ioff.toNat + k) = t.byte? .obuf k) : u.WindowIs E :=
  ⟨hwin, hlen, fun k hk => (hcopy k (hlen ▸ hk)).trans (by simpa using hE k hk)⟩

/-- The check of R146 accepts the final bytes. -/
theorem verifyTcp_finalBytes (s : State) (O P : Bytes) :
    verifyTcp s.ph (s.finalBytes O P) = .ok (s.segmentChecksum O P, true) := by
  rw [verifyTcp_long s.ph (by rw [State.finalBytes_length]; omega), State.ocsum_finalBytes,
    State.finalBytes_csum, beq_self_eq_true]

/-- The final bytes behind the pseudo-header sum to all ones. -/
theorem ocsum_bytes_finalBytes (s : State) (O P : Bytes) : ocsum (s.ph.bytes ++ s.finalBytes O P) = 0 := by
  have hfilled : be16At (s.ph.bytes ++ s.finalBytes O P) 28 = ocsum (zeroTwo (s.ph.bytes ++ s.finalBytes O P) 28) :=
    calc be16At (s.ph.bytes ++ s.finalBytes O P) 28
      _ = be16At (s.finalBytes O P) 16 := s.ph.be16At_bytes_append _ 16
      _ = s.segmentChecksum O P := s.finalBytes_csum O P
      _ = ocsum (tcpSumInput s.ph (s.finalBytes O P)) := (s.ocsum_finalBytes O P).symm
  refine ocsum_filled ?_ rfl hfilled
  rw [List.length_append, PseudoHdr.bytes_length, State.finalBytes_length]
  omega

/-- From a running block SEG_GET_RAW is EIV or commits the final bytes. -/
theorem execSegGetRaw_running {s t : State} (hf : s.status.fatal = false) (h : execSegGetRaw s = .next t) :
    RaisedEiv s t ∨ ∃ O P, encodedOptions s = some O ∧ P.length = s.seg.plen.toNat ∧ t = s.commitRaw O P := by
  rcases execSegGetRaw_next h with (⟨hh, -⟩ | ⟨-, e, he, -⟩) | heiv | ⟨-, O, P, -, -, ho, hl, hP, -⟩
  · rw [hf] at hh; cases hh
  · cases he
  · exact .inl heiv
  · rw [execSegGetRaw_ok hf ho hl hP] at h
    exact .inr ⟨O, P, ho, hl, (Host.Outcome.next.inj h).symm⟩

/-- Settles O38: the window and OBUF hold the final bytes, which carry their own checksum. -/
theorem finalisedSegmentVerifies : Obligations.FinalisedSegmentVerifies := by
  unfold Obligations.FinalisedSegmentVerifies
  intro s t u hinv hsf h0 ht hterr huf hph hilen hwin hcopy
  obtain ⟨-, hibuf, -, -⟩ := hinv.cfg
  obtain ⟨-, -, -, hplen, -, -⟩ := hinv.ranges
  rcases execSegGetRaw_running hsf ht with ⟨-, rfl⟩ | ⟨O, P, ho, hl, rfl⟩
  · cases hterr
  obtain ⟨-, hgood⟩ := encodedOptions_eq_some.mp ho
  have holen : (s.commitRaw O P).out.olen.toNat = (s.finalBytes O P).length := by
    simp only [Config.pbufBytes] at hplen
    exact toNat_ofNat_of_lt (by rw [State.finalBytes_length]; omega)
  have hholds : (s.commitRaw O P).Holds .obuf 0 (s.finalBytes O P) := by
    have h := s.commitRaw_holds O P
    rwa [h0] at h
  have hW : u.WindowIs (s.finalBytes O P) := windowIs_of_copy hholds (by rw [hilen, holen]) hwin (hilen ▸ hcopy)
  refine ⟨⟨_, issued_csumVerify_ok huf hW (hph ▸ verifyTcp_finalBytes s O P), rfl, rfl, rfl⟩, fun E hlen hE => ?_⟩
  rw [State.Holds_unique hE hholds (hlen.trans holen)]
  exact ocsum_bytes_finalBytes s O P

end Sys2Proof.Machine
end

section
/-! The option chain (42_option_chain.md): the round trip (R172) and the commands OPT_DECODE and OPT_ENCODE (R168 to R171), case by case. -/

namespace Sys2Proof.Machine

open Sys2Proof.Statement

/-- Settles O34: the scan undoes the encoding one option at a time. -/
theorem optionChainRoundTrip : Obligations.OptionChainRoundTrip := by
  unfold Obligations.OptionChainRoundTrip
  exact fun c b => decodeOptions_encChain

/-! ### OPT_DECODE -/

section Decode
variable {s : State} {W : Bytes} (hf : s.status.fatal = false)
include hf

theorem execOptDecode_badWindow (hb : badWindow s) : execOptDecode s = raised .badWindow s :=
  (issued_running hf).trans (withWindow_outside hb)

variable (hW : s.WindowIs W)
include hW

theorem execOptDecode_long (h : 40 < W.length) : execOptDecode s = raised .malformedOptions s := by
  rw [execOptDecode, issued_running hf, withWindow_of_windowIs hW, if_pos h]
  rfl

theorem execOptDecode_noChain (h : W.length ≤ 40) (hd : decodeOptions W = none) :
    execOptDecode s = raised .malformedOptions s := by
  rw [execOptDecode, issued_running hf, withWindow_of_windowIs hW, if_neg (Nat.not_lt.mpr h), hd]
  rfl

theorem execOptDecode_chain {c : List TcpOption} (h : W.length ≤ 40) (hd : decodeOptions W = some c) :
    execOptDecode s = .next ((s.commitChain c).setErr .none) := by
  rw [execOptDecode, issued_running hf, withWindow_of_windowIs hW, if_neg (Nat.not_lt.mpr h), hd]
  rfl

end Decode

/-- Settles O29: each branch of the command's body; OPTCNT counts the chain because an area of 40 bytes decodes to at most 40 options. -/
theorem optDecodeFollowsItsRule : Obligations.OptDecodeFollowsItsRule := by
  unfold Obligations.OptDecodeFollowsItsRule
  intro s hf
  refine ⟨execOptDecode_badWindow hf, fun W hW => ⟨execOptDecode_long hf hW, execOptDecode_noChain hf hW,
    fun ch h40 hd => ?_⟩⟩
  have hlen : ch.length ≤ W.length := (decodeOptions_bounds hd).1
  exact ⟨_, execOptDecode_chain hf hW h40 hd, toNat_ofNat_of_lt (by omega), fun k hk => putChain_inside hk,
    fun k hk => putChain_outside hk, rfl⟩

/-! ### The bytes of an option and of a chain -/

/-- The known tags as numbers (30_encoding.md R91). -/
theorem knownTag_iff (t : Byte) : knownTag t = true ↔ t.toNat ∈ [0, 1, 2, 3, 4, 8] := by
  simp [knownTag, ← BitVec.toNat_inj, or_assoc]

theorem encOpt_unknown_knownTag {t : Byte} (h : knownTag t = true) (d : Bytes) : encOpt (.unknown t d) = none := if_pos h

/-- The length byte of an UNKNOWN counts the tag and itself (42_option_chain.md R168). -/
theorem encOpt_unknown {t l : Byte} {d : Bytes} (h : knownTag t = false) (hl : l.toNat = 2 + d.length) :
    encOpt (.unknown t d) = some (t :: l :: d) := by
  have hlen : BitVec.ofNat 8 (2 + d.length) = l := by rw [← hl, BitVec.ofNat_toNat, BitVec.setWidth_eq]
  simp [encOpt, h, hlen]

theorem encOpt_mss (a b : Byte) : encOpt (.mss (be16 a b)) = some [2, 4, a, b] := by
  rw [encOpt, toBe16_be16]
  rfl

theorem encOpt_ts (a b c d e f g h : Byte) :
    encOpt (.ts (be32 a b c d) (be32 e f g h)) = some [8, 10, a, b, c, d, e, f, g, h] := by
  rw [encOpt, toBe32_be32, toBe32_be32]
  rfl

/-- A chain of encodable options is encoded option by option (R169). -/
theorem encChain_of_map {c : List TcpOption} : ∀ {Bs : List Bytes}, c.map encOpt = Bs.map some →
    encChain c = some Bs.flatten := by
  induction c with
  | nil => intro Bs h; rw [List.map_eq_nil_iff.mp h.symm]; rfl
  | cons o c ih =>
    intro Bs h
    cases Bs with
    | nil => cases h
    | cons B Bs =>
      obtain ⟨ho, hc⟩ := List.cons.inj h
      simp [encChain, ho, ih hc]

theorem encChain_none {c : List TcpOption} (h : ∃ o ∈ c, encOpt o = none) : encChain c = none := by
  rw [Option.eq_none_iff_forall_ne_some]
  intro b hb
  induction c generalizing b with
  | nil => simp at h
  | cons p c ih =>
    obtain ⟨bp, bc, hp, hc, -⟩ := encChain_cons hb
    obtain ⟨o, ho, hnone⟩ := h
    rcases List.mem_cons.mp ho with rfl | hmem
    · rw [hp] at hnone; cases hnone
    · exact ih ⟨o, hmem, hnone⟩ bc hc

/-! ### OPT_ENCODE -/

section Encode
variable {s : State} {slot : Byte} (hf : s.status.fatal = false)
include hf

theorem execOptEncode_indexRange (h : s.seg.optcnt.toNat ≤ slot.toNat) : execOptEncode slot s = raised .indexRange s := by
  rw [execOptEncode, issued_running hf, if_pos h]
  rfl

variable {o : TcpOption} (hslot : slot.toNat < s.seg.optcnt.toNat) (ho : s.opts[slot.toNat]? = some o)
include hslot ho

theorem execOptEncode_eiv (he : encOpt o = none) : execOptEncode slot s = halted s := by
  rw [execOptEncode, issued_running hf, if_neg (Nat.not_le.mpr hslot), List.getD_eq_getElem?_getD, ho, Option.getD_some, he]
  rfl

theorem execOptEncode_ok {B : Bytes} (he : encOpt o = some B) :
    execOptEncode slot s = .next ((s.putOut B).setErr .none) := by
  rw [execOptEncode, issued_running hf, if_neg (Nat.not_le.mpr hslot), List.getD_eq_getElem?_getD, ho, Option.getD_some, he]
  rfl

end Encode

/-- Settles O30: the command's three ends, then the bytes kind by kind and the concatenation. -/
theorem optEncodeFollowsItsRule : Obligations.OptEncodeFollowsItsRule := by
  unfold Obligations.OptEncodeFollowsItsRule
  refine ⟨fun s slot hf => ⟨execOptEncode_indexRange hf, fun o hslot ho => ⟨execOptEncode_eiv hf hslot ho, fun B he => ?_⟩⟩,
    rfl, rfl, rfl, fun x => rfl, encOpt_mss, encOpt_ts,
    fun tag data h => encOpt_unknown_knownTag ((knownTag_iff tag).mpr h) data, fun tag len data h hl => ?_,
    fun c Bs => encChain_of_map, fun c => encChain_none⟩
  · exact ⟨_, execOptEncode_ok hf hslot ho he, s.putOut_holds B .none, s.putOut_sameOutside B .none, rfl⟩
  · exact encOpt_unknown (Bool.eq_false_iff.mpr (mt (knownTag_iff tag).mp h)) hl

end Sys2Proof.Machine
end

section
/-! The option scan (42_option_chain.md R160 to R167): one turn at each kind of record, the records as instructions of the scanner, and a whole scan run step by step (log 10). -/

namespace Sys2Proof.Machine

open Sys2Proof.Statement

/-! ### One turn, by what the area begins with -/

theorem Scan.turn_of_decode {b : Byte} {r : Bytes} {c : List TcpOption} {i : Instr} (h : decodeOption (b :: r) = .ok i) :
    (Scan.scanning (b :: r) c).turn = Scan.apply i (.scanning (b :: r) c) := by
  rw [Scan.turn, h]

/-- A turn at an UNKNOWN's record appends it, however long its data, and goes on behind it (R167). -/
theorem Scan.turn_unknown {t l : Byte} {d : Bytes} (ht : knownTag t = false) (hl : l.toNat = 2 + d.length) (r : Bytes)
    (c : List TcpOption) : (Scan.scanning (t :: l :: (d ++ r)) c).turn = .scanning r (c ++ [.unknown t d]) := by
  have hlen : l.toNat = (t :: l :: d).length := by simp only [List.length_cons]; omega
  have hdrop : (t :: l :: (d ++ r)).drop l.toNat = r := hlen ▸ List.drop_left
  rw [Scan.turn_of_decode (decodeOption_unknown ht (by omega) r)]
  refine (Scan.accept_ok _ c (by omega) rfl ?_).trans (by rw [hdrop])
  rw [hlen, ← List.cons_append, ← List.cons_append, List.length_append]
  exact Nat.le_add_right ..

/-- A record with a length byte is accepted or refused by that length (R160). -/
theorem decodeOption_accepts {t l : Byte} {r : Bytes} {i : Instr} (h0 : t ≠ 0) (h1 : t ≠ 1)
    (h : decodeOption (t :: l :: r) = .ok i) : ∃ fixed o, ∀ sc, Scan.apply i sc = Scan.accept l.toNat fixed o sc := by
  simp only [decodeOption, if_neg h0, if_neg h1] at h
  repeat' split at h
  all_goals cases h
  all_goals exact ⟨_, _, fun _ => rfl⟩

/-- A length below 2, or over what is left, fails the scan whatever the kind (R160). -/
theorem Scan.turn_badLength {t l : Byte} {r : Bytes} (h0 : t ≠ 0) (h1 : t ≠ 1) (hl : l.toNat < 2 ∨ 2 + r.length < l.toNat)
    (c : List TcpOption) : (Scan.scanning (t :: l :: r) c).turn = .failed := by
  cases hd : decodeOption (t :: l :: r) with
  | error e => rw [Scan.turn, hd]
  | ok i =>
    obtain ⟨fixed, o, happly⟩ := decodeOption_accepts h0 h1 hd
    rw [Scan.turn_of_decode hd, happly]
    refine Scan.accept_failed o c ?_
    simp only [List.length_cons]
    omega

theorem Scan.turn_noLength {t : Byte} (h0 : t ≠ 0) (h1 : t ≠ 1) (c : List TcpOption) :
    (Scan.scanning [t] c).turn = .failed := by
  simp only [Scan.turn, decodeOption, if_neg h0, if_neg h1]

/-! ### A length byte that is not the kind's -/

theorem toNat_ne_of_ne {l k : Byte} (h : l ≠ k) : l.toNat ≠ k.toNat := mt BitVec.toNat_inj.mp h

section WrongLength
variable {len : Byte}

theorem Scan.mss_wrongLength (h : len ≠ 4) (v : U16) (rest : Bytes) (c : List TcpOption) :
    Scan.mss len v (.scanning rest c) = .failed :=
  Scan.accept_failed _ c (.inr (.inr (toNat_ne_of_ne h)))

theorem Scan.ws_wrongLength (h : len ≠ 3) (x : Byte) (rest : Bytes) (c : List TcpOption) :
    Scan.ws len x (.scanning rest c) = .failed :=
  Scan.accept_failed _ c (.inr (.inr (toNat_ne_of_ne h)))

theorem Scan.sackperm_wrongLength (h : len ≠ 2) (rest : Bytes) (c : List TcpOption) :
    Scan.sackperm len (.scanning rest c) = .failed :=
  Scan.accept_failed _ c (.inr (.inr (toNat_ne_of_ne h)))

theorem Scan.ts_wrongLength (h : len ≠ 10) (a b : U32) (rest : Bytes) (c : List TcpOption) :
    Scan.ts len a b (.scanning rest c) = .failed :=
  Scan.accept_failed _ c (.inr (.inr (toNat_ne_of_ne h)))

end WrongLength

/-- An area whose first record fails the scan decodes to nothing. -/
theorem decodeOptions_refused {b : Byte} {r : Bytes} {i : Instr} (hd : decodeOption (b :: r) = .ok i)
    (hf : Scan.apply i (.scanning (b :: r) []) = .failed) : decodeOptions (b :: r) = none :=
  decodeOptions_failed ((Scan.turn_of_decode hd).trans hf)

/-- Settles O32: the first turn of the scan decides each equation; a failing one ends it. -/
theorem scanFollowsItsRule : Obligations.ScanFollowsItsRule := by
  unfold Obligations.ScanFollowsItsRule
  refine ⟨rfl, fun r => ?_, decodeOptions_encOpt (o := .nop) rfl rfl (by simp),
    fun a b r => decodeOptions_encOpt (encOpt_mss a b) rfl (by simp) r,
    fun x r => decodeOptions_encOpt (o := .ws x) rfl rfl (by simp) r,
    decodeOptions_encOpt (o := .sackperm) rfl rfl (by simp),
    fun a b c d e f g h r => decodeOptions_encOpt (encOpt_ts a b c d e f g h) rfl (by simp) r,
    fun t l d r ht hl => decodeOptions_turn (Scan.turn_unknown ht hl r []) (by
      simp only [List.length_cons, List.length_append]; omega),
    fun t h0 h1 => decodeOptions_failed (Scan.turn_noLength h0 h1 []),
    fun t l r h0 h1 hl => decodeOptions_failed (Scan.turn_badLength h0 h1 hl []),
    fun l r hl => decodeOptions_refused (i := .optMss l 0) (if_neg hl) (Scan.mss_wrongLength hl ..),
    fun l r hl => decodeOptions_refused (i := .optWs l 0) (if_neg hl) (Scan.ws_wrongLength hl ..),
    fun l r hl => decodeOptions_refused (i := .optSackperm l) rfl (Scan.sackperm_wrongLength hl ..),
    fun l r hl => decodeOptions_refused (i := .optTs l 0 0) (if_neg hl) (Scan.ts_wrongLength hl ..)⟩
  exact decodeOptions_turn (r := []) (Scan.turn_eol r []) (by simp)

/-! ### The records as instructions of the scanner -/

/-- An instruction of the scanner changes the scan and nothing else (log 10). -/
theorem onScan_of {f : Scan → Scan} {s : State} {sc sc' : Scan} (hs : s.scan = sc) (hf : f sc = sc') :
    onScan f s = .next { s with scan := sc' } := by
  rw [onScan, hs, hf]

/-- Settles O31: every record but EOL and NOP is accepted or refused by its length. -/
theorem optionRecordsExtendTheScannedChain : Obligations.OptionRecordsExtendTheScannedChain := by
  unfold Obligations.OptionRecordsExtendTheScannedChain
  intro s rest c hs
  refine ⟨onScan_of hs rfl, fun _ => onScan_of hs rfl,
    fun v h => onScan_of hs (Scan.accept_ok _ c (by decide) rfl h),
    fun x h => onScan_of hs (Scan.accept_ok _ c (by decide) rfl h),
    fun h => onScan_of hs (Scan.accept_ok _ c (by decide) rfl h),
    fun a b h => onScan_of hs (Scan.accept_ok _ c (by decide) rfl h),
    fun tag len d h2 h => onScan_of hs (Scan.accept_ok _ c h2 rfl h),
    fun len v h => onScan_of hs (Scan.mss_wrongLength h ..),
    fun len x h => onScan_of hs (Scan.ws_wrongLength h ..),
    fun len h => onScan_of hs (Scan.sackperm_wrongLength h ..),
    fun len a b h => onScan_of hs (Scan.ts_wrongLength h ..),
    fun v h => onScan_of hs (Scan.accept_failed _ c (.inr (.inl h))),
    fun x h => onScan_of hs (Scan.accept_failed _ c (.inr (.inl h))),
    fun h => onScan_of hs (Scan.accept_failed _ c (.inr (.inl h))),
    fun a b h => onScan_of hs (Scan.accept_failed _ c (.inr (.inl h))),
    fun tag len d h => onScan_of hs (Scan.accept_failed _ c ?_)⟩
  exact h.imp_right .inl

/-! ### A whole scan, step by step -/

/-- Any number of turns of an open scan is a number of steps of the machine, which leave everything but the scan. -/
theorem run_turns (n : Nat) : ∀ {s : State} {A : Bytes} {c : List TcpOption}, s.scan = .scanning A c →
    ∃ k, ∀ m, Sys2Proof.core.run (k + m) s = Sys2Proof.core.run m { s with scan := Scan.turns n (.scanning A c) } := by
  induction n with
  | zero => intro s A c h; exact ⟨0, fun m => by rw [Nat.zero_add, Scan.turns, ← h]⟩
  | succ n ih =>
    intro s A c h
    cases A with
    | nil => exact ⟨0, fun m => by rw [Nat.zero_add, Scan.turns_nil, ← h]⟩
    | cons b r =>
      have hstep := step_scanning h
      rw [Scan.turns_succ]
      rcases Scan.turn_cases (List.cons_ne_nil b r) c with ht | ⟨rest, o, ht, -, -⟩
      · rw [ht] at hstep ⊢
        exact ⟨1, fun m => by rw [Nat.add_comm, core_run_next m hstep, Scan.turns_failed]⟩
      · rw [ht] at hstep ⊢
        obtain ⟨k, hk⟩ := ih (s := { s with scan := .scanning rest (c ++ [o]) }) rfl
        exact ⟨k + 1, fun m => by rw [Nat.add_right_comm, core_run_next _ hstep, hk]⟩

/-- A scan that used up its area commits the chain (42_option_chain.md R170, log 10). -/
theorem step_scanEnd {s : State} {c : List TcpOption} (h : s.scan = .scanning [] c) :
    step s = .next ((State.commitChain { s with scan := .idle } c).setErr .none) := by
  rw [step, fetch, h]
  rfl

/-- A scan that failed raises MALFORMED_OPTIONS (R160, log 10). -/
theorem step_scanFailed {s : State} (h : s.scan = .failed) :
    step s = .next (State.setErr { s with scan := .idle } .malformedOptions) := by
  rw [step, fetch, h]
  rfl

/-- Settles O33: as many turns as the area has bytes, then the step that closes the scan. -/
theorem scanningRecordByRecordIsDecodeOptions : Obligations.ScanningRecordByRecordIsDecodeOptions := by
  unfold Obligations.ScanningRecordByRecordIsDecodeOptions
  intro s A hs
  obtain ⟨k, hk⟩ := run_turns A.length hs
  refine ⟨k + 1, ?_⟩
  rw [hk 1]
  rcases Scan.turns_cases A.length A [] (Nat.le_refl _) with ht | ⟨c, ht, -, -⟩
  · have hd : decodeOptions A = none := by rw [decodeOptions, ht]
    rw [ht, hd, core_run_next 0 (step_scanFailed rfl)]
    rfl
  · have hd : decodeOptions A = some c := by rw [decodeOptions, ht, List.nil_append]
    rw [ht, hd, core_run_next 0 (step_scanEnd rfl)]
    rfl

end Sys2Proof.Machine
end

section
/-! The frame parsers (43_frame_parsers.md R180 to R185): what a command does with its window, once for all five, then each parser's checks and registers. -/

namespace Sys2Proof.Machine

open Sys2Proof.Statement

/-! ### The window and what is left of it -/

section Window
variable {s : State} {W : Bytes} {k : State → Bytes → Out}

theorem issued_window_outside (hf : s.status.fatal = false) (hb : badWindow s) :
    issued (fun s => withWindow s (k s)) s = raised .badWindow s :=
  (issued_running hf).trans (withWindow_outside hb)

/-- Every command that reads the window checks it first (20_memory.md R64). -/
theorem exec_window_outside {i : Instr} (hi : i ∈ windowCommands) (hf : s.status.fatal = false) (hb : badWindow s) :
    exec i s = raised .badWindow s := by
  simp only [windowCommands, List.mem_cons, List.not_mem_nil, or_false] at hi
  rcases hi with rfl | rfl | rfl | rfl | rfl | rfl | rfl | rfl | rfl | rfl | rfl <;> simp only [exec] <;>
    exact issued_window_outside hf hb

theorem issued_window_of (hf : s.status.fatal = false) (hW : s.WindowIs W) :
    issued (fun s => withWindow s (k s)) s = k s W :=
  (issued_running hf).trans (withWindow_of_windowIs hW)

/-- L_POFF: n bytes behind the start of the window. -/
theorem ioff_add (s : State) (n : Nat) : s.win.ioff + BitVec.ofNat 32 n = BitVec.ofNat 32 (s.win.ioff.toNat + n) := by
  rw [BitVec.ofNat_add, BitVec.ofNat_toNat, BitVec.setWidth_eq]

/-- L_PLEN: what is left of the window behind n bytes. -/
theorem ilen_sub (hW : s.WindowIs W) {n : Nat} (h : n ≤ W.length) :
    s.win.ilen - BitVec.ofNat 32 n = BitVec.ofNat 32 (W.length - n) := by
  obtain ⟨-, hlen, -⟩ := hW
  rw [hlen] at h ⊢
  bv_omega

end Window

theorem be16At_toNat (W : Bytes) (i : Nat) : (be16At W i).toNat = (byteAt W i).toNat * 256 + (byteAt W (i + 1)).toNat :=
  be16_toNat ..

/-! ### ETH_PARSE -/

theorem execEthParse_window {s : State} {W : Bytes} (hf : s.status.fatal = false) (hW : s.WindowIs W) :
    execEthParse s =
      if W.length < 14 then raise .truncated s
      else
        complete { s with
          eth := ⟨be48At W 0, be48At W 6, be16At W 12⟩
          lpay := ⟨s.win.ioff + 14, s.win.ilen - 14⟩ } :=
  issued_window_of hf hW

/-- Settles O39: the one check on the length, then the three fields. -/
theorem ethParseFollowsItsRule : Obligations.EthParseFollowsItsRule := by
  unfold Obligations.EthParseFollowsItsRule
  refine fun s hf => ⟨exec_window_outside (by decide) hf, fun W hW => ?_⟩
  have hwin := execEthParse_window hf hW
  refine ⟨fun h => hwin.trans (if_pos h), fun h => ?_⟩
  rw [← ilen_sub hW h, ← ioff_add]
  exact hwin.trans (if_neg (Nat.not_lt.mpr h))

/-! ### ARP_PARSE -/

theorem arpAccepted_iff {W : Bytes} : arpAccepted W = true ↔
    be16At W 0 = 1 ∧ be16At W 2 = 0x0800 ∧ byteAt W 4 = 6 ∧ byteAt W 5 = 4 := by
  simp [arpAccepted, and_assoc]

/-- The registers of an accepted packet: its first four fields have one value each (R182). -/
theorem arpRegs_of_accepted {W : Bytes} (h : arpAccepted W = true) :
    arpRegs W = { htype := 1, ptype := 0x0800, hlen := 6, plen := 4, oper := be16At W 6, sha := be48At W 8,
                  spa := be32At W 14, tha := be48At W 18, tpa := be32At W 24 } := by
  obtain ⟨hhtype, hptype, hhlen, hplen⟩ := arpAccepted_iff.mp h
  rw [arpRegs, hhtype, hptype, hhlen, hplen]

theorem execArpParse_window {s : State} {W : Bytes} (hf : s.status.fatal = false) (hW : s.WindowIs W) :
    execArpParse s =
      if W.length < 28 then raise .truncated s
      else if arpAccepted W then complete { s with arp := arpRegs W, lpay := ⟨s.win.ioff + 28, 0⟩ }
      else raise .malformedHeader s :=
  issued_window_of hf hW

/-- Settles O40: the check on the length, then the four fields that are accepted. -/
theorem arpParseFollowsItsRule : Obligations.ArpParseFollowsItsRule := by
  unfold Obligations.ArpParseFollowsItsRule
  refine fun s hf => ⟨exec_window_outside (by decide) hf, fun W hW => ?_⟩
  have hwin := execArpParse_window hf hW
  refine ⟨fun h => hwin.trans (if_pos h), fun h hno => ?_, fun h h0 h2 h4 h5 => ?_⟩
  · rw [if_neg (Nat.not_lt.mpr h), if_neg (mt arpAccepted_iff.mp hno)] at hwin
    exact hwin
  · have hacc : arpAccepted W = true := arpAccepted_iff.mpr ⟨h0, h2, h4, h5⟩
    rw [if_neg (Nat.not_lt.mpr h), if_pos hacc, arpRegs_of_accepted hacc] at hwin
    rw [← ioff_add]
    exact hwin

/-! ### IP4_PARSE -/

/-- The version is the high nibble of the first byte (30_encoding.md R96). -/
theorem version_eq_four_iff (b : Byte) : b.extractLsb' 4 4 = 4 ↔ b.toNat / 16 = 4 := by
  rw [← BitVec.toNat_inj, BitVec.extractLsb'_toNat, Nat.shiftRight_eq_div_pow]
  have : b.toNat < 256 := b.isLt
  change b.toNat / 16 % 16 = 4 ↔ _
  omega

theorem ip4Check_short {W : Bytes} (h : W.length < 20) : ip4Check W = .error .truncated := if_pos h

/-- What follows the first check of R183, with version, header length and total length as numbers. -/
theorem ip4Check_long {W : Bytes} {ver hl tlen : Nat} (h : 20 ≤ W.length) (hver : ver = (byteAt W 0).toNat / 16)
    (hhl : hl = 4 * ((byteAt W 0).toNat % 16)) (htlen : tlen = (byteAt W 2).toNat * 256 + (byteAt W 3).toNat) :
    ip4Check W =
      if ver ≠ 4 ∨ hl < 20 then .error .malformedHeader
      else if W.length < hl then .error .truncated
      else if tlen < hl then .error .malformedHeader
      else if W.length < tlen then .error .truncated
      else .ok hl := by
  have hihl : hl < 20 ↔ (byteAt W 0).toNat % 16 < 5 := by omega
  rw [ip4Check, if_neg (Nat.not_lt.mpr h)]
  simp only [ne_eq, version_eq_four_iff, lowNibble_toNat, be16At_toNat, ← hver, ← hhl, ← htlen, hihl, ite_or]

/-- The fragment offset: the low five bits of its first byte, then its second (R96). -/
theorem fragmentOffset_eq (a b : Byte) :
    a.extractLsb' 0 5 ++ b = BitVec.ofNat 13 (a.toNat % 32 * 256 + b.toNat) := by
  apply BitVec.eq_of_toNat_eq
  rw [BitVec.toNat_append, ← Nat.shiftLeft_add_eq_or_of_lt b.isLt, Nat.shiftLeft_eq, toNat_ofNat_of_lt (by omega)]
  simp [BitVec.extractLsb'_toNat]

/-- The registers of a version 4 header, with the bit fields as numbers. -/
theorem ipRegs_of_version {W : Bytes} (hver : (byteAt W 0).toNat / 16 = 4) (hl : Nat) :
    ipRegs W hl =
      { ver := 4, hlen := BitVec.ofNat 8 hl, tos := byteAt W 1, tlen := be16At W 2, ident := be16At W 4,
        flags := BitVec.ofNat 3 ((byteAt W 6).toNat / 32),
        frag := BitVec.ofNat 13 ((byteAt W 6).toNat % 32 * 256 + (byteAt W 7).toNat),
        ttl := byteAt W 8, proto := byteAt W 9, csum := be16At W 10, src := be32At W 12, dst := be32At W 16 } := by
  rw [ipRegs, (version_eq_four_iff _).mpr hver, fragmentOffset_eq, BitVec.extractLsb', Nat.shiftRight_eq_div_pow]

section Ip4
variable {s : State} {W : Bytes} (hf : s.status.fatal = false) (hW : s.WindowIs W)
include hf hW

theorem execIp4Parse_error {e : Err} (hc : ip4Check W = .error e) : execIp4Parse s = raised e s := by
  rw [execIp4Parse, issued_window_of hf hW, hc]
  rfl

theorem execIp4Parse_ok {hl : Nat} (hc : ip4Check W = .ok hl) :
    execIp4Parse s = .next { s with
      status := doneStatus s
      ip := ipRegs W hl
      lpay := ⟨s.win.ioff + BitVec.ofNat 32 hl, BitVec.ofNat 32 ((be16At W 2).toNat - hl)⟩ } := by
  rw [execIp4Parse, issued_window_of hf hW, hc]
  rfl

end Ip4

/-- Settles O41: each end of the command is one end of its checks. -/
theorem ip4ParseFollowsItsRule : Obligations.Ip4ParseFollowsItsRule := by
  unfold Obligations.Ip4ParseFollowsItsRule
  refine fun s hf => ⟨exec_window_outside (by decide) hf, fun W hW =>
    ⟨fun h => execIp4Parse_error hf hW (ip4Check_short h), fun ver hl tlen h20 hver hhl htlen => ?_⟩⟩
  have hcheck := ip4Check_long h20 hver hhl htlen
  refine ⟨fun hbad => execIp4Parse_error hf hW ?_, fun h4 hmin hout => execIp4Parse_error hf hW ?_,
    fun h4 hmin hin hshort => execIp4Parse_error hf hW ?_, fun h4 hmin hle hin hlong => execIp4Parse_error hf hW ?_,
    fun h4 hmin hle hin => ?_⟩
  · rw [hcheck, if_pos hbad]
  · rw [hcheck, if_neg (by omega), if_pos hout]
  · rw [hcheck, if_neg (by omega), if_neg (by omega), if_pos hshort]
  · rw [hcheck, if_neg (by omega), if_neg (by omega), if_neg (by omega), if_pos hlong]
  · have hok : ip4Check W = .ok hl := by
      rw [hcheck, if_neg (by omega), if_neg (by omega), if_neg (by omega), if_neg (by omega)]
    rw [← ipRegs_of_version (hver.symm.trans h4), ← ioff_add, htlen, ← be16At_toNat W 2]
    exact execIp4Parse_ok hf hW hok

/-! ### ICMP4_PARSE -/

theorem execIcmp4Parse_window {s : State} {W : Bytes} (hf : s.status.fatal = false) (hW : s.WindowIs W) :
    execIcmp4Parse s =
      if W.length < 8 then raise .truncated s
      else
        complete { s with
          icmp := ⟨byteAt W 0, byteAt W 1, be16At W 2, be32At W 4⟩
          lpay := ⟨s.win.ioff + 8, s.win.ilen - 8⟩ } :=
  issued_window_of hf hW

/-- Settles O42: the one check on the length, then the four fields. -/
theorem icmp4ParseFollowsItsRule : Obligations.Icmp4ParseFollowsItsRule := by
  unfold Obligations.Icmp4ParseFollowsItsRule
  refine fun s hf => ⟨exec_window_outside (by decide) hf, fun W hW => ?_⟩
  have hwin := execIcmp4Parse_window hf hW
  refine ⟨fun h => hwin.trans (if_pos h), fun h => ?_⟩
  rw [← ilen_sub hW h, ← ioff_add]
  exact hwin.trans (if_neg (Nat.not_lt.mpr h))

/-! ### UDP_PARSE -/

theorem execUdpParse_window {s : State} {W : Bytes} (hf : s.status.fatal = false) (hW : s.WindowIs W) :
    execUdpParse s =
      if W.length < 8 then raise .truncated s
      else if (be16At W 4).toNat < 8 then raise .malformedHeader s
      else if W.length < (be16At W 4).toNat then raise .truncated s
      else
        complete { s with
          udp := ⟨be16At W 0, be16At W 2, be16At W 4, be16At W 6⟩
          lpay := ⟨s.win.ioff + 8, BitVec.ofNat 32 ((be16At W 4).toNat - 8)⟩ } :=
  issued_window_of hf hW

/-- Settles O43: the check on the window, then the two on the UDP length. -/
theorem udpParseFollowsItsRule : Obligations.UdpParseFollowsItsRule := by
  unfold Obligations.UdpParseFollowsItsRule
  refine fun s hf => ⟨exec_window_outside (by decide) hf, fun W hW => ?_⟩
  have hwin := execUdpParse_window hf hW
  refine ⟨fun h => hwin.trans (if_pos h), fun ulen h8 hulen => ?_⟩
  rw [if_neg (Nat.not_lt.mpr h8), be16At_toNat, ← hulen] at hwin
  refine ⟨fun hlow => hwin.trans (if_pos hlow), fun hmin hout => ?_, fun hmin hin => ?_⟩
  · rw [if_neg (Nat.not_lt.mpr hmin), if_pos hout] at hwin
    exact hwin
  · rw [if_neg (Nat.not_lt.mpr hmin), if_neg (Nat.not_lt.mpr hin)] at hwin
    rw [← ioff_add]
    exact hwin

end Sys2Proof.Machine
end

section
/-! The queues and the held TX_ENQUEUE (44_pipeline.md R202, R208, R210; 20_memory.md R73): all that one step can do to them, said once, and the statements about them read off it. -/

namespace Sys2Proof.Machine

open Sys2Proof.Statement

/-! ### What a step does to the queues and the holds -/

/-- A step from s to t ends no hold. -/
def KeepsHolds (s t : State) : Prop := ∀ th, s.held th = true → t.held th = true

/-- The ways a step treats RXQ, TXQ and the holds. Where no hold is ended this is said; a resume and a reset may end one. -/
inductive QueueMove (s t : State) : Prop where
  | quiet (hrx : t.rxq = s.rxq) (htx : t.txq = s.txq) (hh : KeepsHolds s t)
  | transmit (F : Frame) (hlen : F.length = s.out.txlen.toNat) (hF : s.Holds .obuf 0 F) (hroom : s.txRoom = true)
      (hrx : t.rxq = s.rxq) (htx : t.txq = s.txq ++ [F])
  | released (hroom : s.txRoom = true) (hrx : t.rxq = s.rxq) (htx : t.txq = s.txq)
  | dequeue (F : Frame) (hr : s.sq.running = true) (hf : s.status.fatal = false) (hp : s.seqr.phase = .idle)
      (hrx : s.rxq = F :: t.rxq) (htx : t.txq = s.txq) (hh : KeepsHolds s t)
  | arrive (F : Frame) (hi : s.inputs.head? = some (.rxArrive F)) (hrx : t.rxq = s.rxq ++ [F]) (htx : t.txq = s.txq)
      (hh : KeepsHolds s t)
  | rxTaken (hi : s.inputs.head? = some .rxTakeOther) (hrx : t.rxq = s.rxq.tail) (htx : t.txq = s.txq) (hh : KeepsHolds s t)
  | txPut (F : Frame) (hi : s.inputs.head? = some (.txPutOther F)) (hroom : s.txRoom = true) (hrx : t.rxq = s.rxq)
      (htx : t.txq = s.txq ++ [F])
  | txTaken (hi : s.inputs.head? = some .txTake) (hrx : t.rxq = s.rxq) (htx : t.txq = s.txq.tail) (hh : KeepsHolds s t)
  | reset (hreset : s.ResetNext) (hrx : t.rxq = s.rxq) (htx : t.txq = s.txq)

theorem keepsHolds_of_eq {s t : State} (hhost : t.hostHeld = s.hostHeld) (hworker : t.workerHeld = s.workerHeld) :
    KeepsHolds s t
  | .host, h => hhost.trans h
  | .worker, h => hworker.trans h

theorem State.holds_release (s : State) (th : Thread) {b : BufId} {a : Nat} {B : Bytes} :
    (s.release th).Holds b a B ↔ s.Holds b a B := by
  cases th <;> exact .rfl

/-- An instruction enqueues OBUF[0..TXLEN) where there is room, or leaves the queues and the holds. -/
theorem QueueMove.instr {s t : State} {rest : List Event} {th : Thread}
    (h : InstrKept { s with inputs := rest, issuer := th } t) : QueueMove s t := by
  rcases h.txq with htx | ⟨-, hroom, F, hlen, hF, htx⟩
  · exact .quiet h.rxq htx h.held
  · exact .transmit F hlen hF hroom h.rxq htx

/-- A released TX_ENQUEUE enqueues its frame, or, halted, leaves the queues. -/
theorem QueueMove.resume {s t : State} {rest : List Event} {th : Thread} (hroom : s.txRoom = true)
    (h : InstrKept (State.release { s with inputs := rest } th) t) : QueueMove s t := by
  have hrx : t.rxq = s.rxq := h.rxq.trans (State.release_rxq _ th)
  rcases h.txq with htx | ⟨-, -, F, hlen, hF, htx⟩
  · exact .released hroom hrx (htx.trans (State.release_txq _ th))
  · rw [State.release_out] at hlen
    rw [State.release_txq] at htx
    exact .transmit F hlen ((State.holds_release { s with inputs := rest } th).mp hF) hroom hrx htx

theorem dequeueFrame_rxq (F : Frame) (rest : List Frame) (s : State) : (dequeueFrame F rest s).rxq = rest := by
  unfold dequeueFrame
  split <;> rfl

theorem dequeueFrame_txq (F : Frame) (rest : List Frame) (s : State) : (dequeueFrame F rest s).txq = s.txq := by
  unfold dequeueFrame
  split <;> rfl

theorem dequeueFrame_keepsHolds (F : Frame) (rest : List Frame) (s : State) : KeepsHolds s (dequeueFrame F rest s) := by
  unfold dequeueFrame
  split <;> exact fun _ => id

/-- SEQ takes the oldest frame in IDLE, and otherwise leaves the queues. -/
theorem QueueMove.seq {s t : State} {rest : List Event} (h : seqStep { s with inputs := rest } = .next t) :
    QueueMove s t := by
  rcases seqStep_next h with rfl | ⟨hr, hf, hp, F, more, hq, rfl⟩ | ⟨-, -, l, -, h⟩
  · exact .quiet rfl rfl fun _ => id
  · exact .dequeue F hr hf hp (hq.trans (congrArg _ (dequeueFrame_rxq ..).symm)) (dequeueFrame_txq ..)
      (dequeueFrame_keepsHolds F more { s with inputs := rest })
  · have hk := parseLayer_kept h
    exact .quiet hk.rxq hk.txq (keepsHolds_of_eq hk.hostHeld hk.workerHeld)

/-- Every step treats the queues and the holds in one of these ways. -/
theorem step_queueMove {s t : State} (h : step s = .next t) : QueueMove s t := by
  cases step_moved h with
  | scanRecord A c i hs hA hd he => exact .instr (rest := s.inputs) (th := s.issuer) (exec_kept he)
  | txn who bytes rest i hs hi hm hd he => exact .instr (exec_kept he)
  | selector rest l i hs hi hl hw hd he => exact .instr (th := s.issuer) (exec_kept he)
  | resume th rest hs hi hh hroom he => exact .resume hroom (exec_kept he)
  | seqEvent rest hs hi he => exact .seq he
  | seqOwn hs hi he => exact .seq (rest := s.inputs) he
  | rxArrive F rest hs hi ht =>
    obtain ⟨-, harr⟩ | harr := State.rxArrive_cases { s with inputs := rest } F
    · rw [ht, harr]
      exact .arrive F (congrArg List.head? hi) rfl rfl fun _ => id
    · rw [ht, harr]
      exact .quiet rfl rfl fun _ => id
  | txPutOther F rest hs hi ht =>
    obtain ⟨hroom, hput⟩ | hput := State.txPutOther_cases { s with inputs := rest } F
    · rw [ht, hput]
      exact .txPut F (congrArg List.head? hi) hroom rfl rfl
    · rw [ht, hput]
      exact .quiet rfl rfl fun _ => id
  | txTake rest hs hi ht => rw [ht]; exact .txTaken (congrArg List.head? hi) rfl List.drop_one fun _ => id
  | rxTakeOther rest hs hi ht => rw [ht]; exact .rxTaken (congrArg List.head? hi) List.drop_one rfl fun _ => id
  | reset rest hs hi ht => rw [ht]; exact .reset ⟨hs, congrArg List.head? hi⟩ rfl rfl
  | scanEnd c hs ht => rw [ht]; exact .quiet rfl rfl fun _ => id
  | scanFail A c hs ht => rw [ht]; exact .quiet rfl rfl fun _ => id
  | scanRaise hs ht => rw [ht]; exact .quiet rfl rfl fun _ => id
  | handlerEnd rest v l hs hi hl hw ht => rw [ht]; exact .quiet rfl rfl fun _ => id
  | resolve addr answer rest hs hi ht => rw [ht]; exact .quiet rfl rfl fun _ => id
  | arpcStore cache rest hs hi ht => rw [ht]; exact .quiet rfl rfl fun _ => id
  | pass e rest hs hi ht => rw [ht]; exact .quiet rfl rfl fun _ => id

/-- Settles O52: only the producer, another block and SEQ in IDLE touch RXQ. -/
theorem framesAreTakenInOrderAndOneAtATime : Obligations.FramesAreTakenInOrderAndOneAtATime := by
  unfold Obligations.FramesAreTakenInOrderAndOneAtATime
  intro s t h
  cases step_queueMove h with
  | quiet hrx htx hh => exact .inl hrx
  | transmit F hlen hF hroom hrx htx => exact .inl hrx
  | released hroom hrx htx => exact .inl hrx
  | txPut F hi hroom hrx htx => exact .inl hrx
  | txTaken hi hrx htx hh => exact .inl hrx
  | reset hreset hrx htx => exact .inl hrx
  | arrive F hi hrx htx hh => exact .inr (.inl ⟨F, hi, hrx⟩)
  | rxTaken hi hrx htx hh => exact .inr (.inr (.inl ⟨hi, hrx⟩))
  | dequeue F hr hf hp hrx htx hh => exact .inr (.inr (.inr ⟨hr, hf, hp, F, hrx⟩))

/-- Settles O53: only TX_ENQUEUE, another block and the consumer touch TXQ. -/
theorem transmitQueueIsFirstInFirstOut : Obligations.TransmitQueueIsFirstInFirstOut := by
  unfold Obligations.TransmitQueueIsFirstInFirstOut
  intro s t h
  cases step_queueMove h with
  | quiet hrx htx hh => exact .inl htx
  | released hroom hrx htx => exact .inl htx
  | dequeue F hr hf hp hrx htx hh => exact .inl htx
  | arrive F hi hrx htx hh => exact .inl htx
  | rxTaken hi hrx htx hh => exact .inl htx
  | reset hreset hrx htx => exact .inl htx
  | transmit F hlen hF hroom hrx htx => exact .inr (.inl ⟨F, hlen, hF, s.txRoom_iff.mp hroom, htx⟩)
  | txPut F hi hroom hrx htx => exact .inr (.inr (.inl ⟨F, hi, s.txRoom_iff.mp hroom, htx⟩))
  | txTaken hi hrx htx hh => exact .inr (.inr (.inr ⟨hi, htx⟩))

/-- A hold ends only where TXQ has room, or at a reset (R202, R210, R250). -/
theorem step_keepsHolds {s t : State} (h : step s = .next t) (hfull : ¬ txqHasRoom s) (hreset : ¬ s.ResetNext) :
    KeepsHolds s t := by
  have hroom : s.txRoom ≠ true := mt s.txRoom_iff.mp hfull
  cases step_queueMove h with
  | quiet hrx htx hh => exact hh
  | dequeue F hr hf hp hrx htx hh => exact hh
  | arrive F hi hrx htx hh => exact hh
  | rxTaken hi hrx htx hh => exact hh
  | txTaken hi hrx htx hh => exact hh
  | transmit F hlen hF hr hrx htx => exact absurd hr hroom
  | released hr hrx htx => exact absurd hr hroom
  | txPut F hi hr hrx htx => exact absurd hr hroom
  | reset hr hrx htx => exact absurd hr hreset

/-! ### TX_ENQUEUE, case by case -/

section TxEnqueue
variable {s : State} (hf : s.status.fatal = false)
include hf

theorem execTxEnqueue_room {F : Bytes} (hlen : F.length = s.out.txlen.toNat) (hF : s.Holds .obuf 0 F)
    (hroom : txqHasRoom s) : execTxEnqueue s = .next { s with status := doneStatus s, txq := s.txq ++ [F] } := by
  rw [execTxEnqueue, issued_running hf, if_pos (s.txRoom_iff.mpr hroom), ← hlen, withBytes_of_holds hF]
  rfl

theorem execTxEnqueue_drop {F : Bytes} (hfull : ¬ txqHasRoom s) (hdrop : s.cfg.txqFull = .drop)
    (hlen : F.length = s.out.txlen.toNat) (hF : s.Holds .obuf 0 F) :
    execTxEnqueue s = .next { s with status := doneStatus s } := by
  rw [execTxEnqueue, issued_running hf, if_neg (mt s.txRoom_iff.mp hfull), hdrop, ← hlen]
  exact withBytes_of_holds hF

theorem execTxEnqueue_hold (hfull : ¬ txqHasRoom s) (hhold : s.cfg.txqFull = .hold) :
    execTxEnqueue s = .next s.markHeld := by
  rw [execTxEnqueue, issued_running hf, if_neg (mt s.txRoom_iff.mp hfull)]
  simp only [hhold]

end TxEnqueue

theorem State.markHeld_host {s : State} (h : s.issuer = .host) : s.markHeld = { s with hostHeld := true } := by
  rw [State.markHeld, h]

theorem State.markHeld_worker {s : State} (h : s.issuer = .worker) : s.markHeld = { s with workerHeld := true } := by
  rw [State.markHeld, h]

/-! ### Events that pass (log 3) -/

/-- An event that is no move of an enabled agent is taken, and nothing else happens. -/
theorem step_passes {s : State} {e : Event} {rest : List Event} (hn : nextEvent s e rest)
    (hpass : fetchEvent e { s with inputs := rest } = .move (.next { s with inputs := rest })) :
    step s = .next { s with inputs := rest } := by
  obtain ⟨hs, hi⟩ := hn
  rw [step_event hs hi, hpass]

theorem fetchEvent_resume_full {s : State} (th : Thread) (hfull : ¬ txqHasRoom s) :
    fetchEvent (.resume th) s = .move (.next s) := by
  have hno : s.mayResume th ≠ true := fun h => mt s.txRoom_iff.mp hfull (Bool.and_eq_true_iff.mp h).2
  exact if_neg hno

theorem fetchEvent_verdict_held {s : State} (v : Verdict) (hw : s.workerHeld = true) :
    fetchEvent (.verdict v) s = .move (.next s) := by
  simp only [fetchEvent]
  split
  · exact if_pos hw
  · rfl

theorem fetchEvent_txn_disabled {s : State} {who : Agent} (bytes : Bytes) (h : s.mayIssue who = false) :
    fetchEvent (.txn who bytes) s = .move (.next s) :=
  if_neg (by simp [h])

/-- Settles O44: the command's ends, the holds that a step keeps, and the two events that pass. -/
theorem txEnqueueFollowsItsRule : Obligations.TxEnqueueFollowsItsRule := by
  unfold Obligations.TxEnqueueFollowsItsRule
  refine ⟨fun s hf => ⟨fun _ => execTxEnqueue_room hf, fun hfull =>
      ⟨fun _ => execTxEnqueue_drop hf hfull, fun hhold hissuer => ?_, fun hhold hissuer => ?_⟩⟩,
    fun s t h hfull hreset => ⟨step_keepsHolds h hfull hreset .host, step_keepsHolds h hfull hreset .worker⟩,
    fun s th rest hn hfull => step_passes hn (fetchEvent_resume_full th hfull),
    fun s v rest hn hw => step_passes hn (fetchEvent_verdict_held v hw)⟩
  · rw [← State.markHeld_host hissuer]
    exact execTxEnqueue_hold hf hfull hhold
  · rw [← State.markHeld_worker hissuer]
    exact execTxEnqueue_hold hf hfull hhold

/-- Settles O54: outside its phase neither agent may issue, so its transaction passes. -/
theorem workerAgentsActOnlyInsideAHandler : Obligations.WorkerAgentsActOnlyInsideAHandler := by
  unfold Obligations.WorkerAgentsActOnlyInsideAHandler
  refine fun s bytes rest => ⟨fun hn hout => step_passes hn (fetchEvent_txn_disabled bytes ?_),
    fun hn hnone => step_passes hn (fetchEvent_txn_disabled bytes ?_)⟩
  · have harpc : s.mayIssue .arpc = false := by
      rcases hout with hwired | hnone
      · simp [State.mayIssue, hwired]
      · simp [State.mayIssue, hnone]
    exact harpc
  · have hhandler : s.mayIssue .handler = false := by simp [State.mayIssue, hnone]
    exact hhandler

end Sys2Proof.Machine
end

section
/-! The steps of the pipeline one at a time (44_pipeline.md R200 to R206): SQ_START, a verdict, the dequeue step, and the turns in which SEQ holds still. -/

namespace Sys2Proof.Machine

open Sys2Proof.Statement

/-! ### SQ_START -/

theorem execSqStart_running {s : State} (hf : s.status.fatal = false) (hr : s.sq.running = true) :
    execSqStart s = raised .badState s := by
  rw [execSqStart, issued_running hf, if_pos hr]
  rfl

theorem execSqStart_uninit {s : State} (hf : s.status.fatal = false) (hr : s.sq.running = false) :
    execSqStart s = .next { s with
      status := doneStatus s
      sq := { s.sq with wired := true, running := true }
      seqr := { s.seqr with phase := .idle } } := by
  rw [execSqStart, issued_running hf, if_neg (ne_true_of_eq_false hr)]
  rfl

/-- Settles O45: STATE decides between the two ends. -/
theorem sqStartStartsTheWorkerOnce : Obligations.SqStartStartsTheWorkerOnce := by
  unfold Obligations.SqStartStartsTheWorkerOnce
  exact fun s hf => ⟨execSqStart_running hf, execSqStart_uninit hf⟩

/-! ### Verdicts -/

/-- SQ_SEL after the Ethernet handler: a selector that moves the phase as the table says, or no selector and IDLE (R205). -/
theorem decodeEtype_phaseAfter (sel : U16) {s : State} (hp : s.seqr.phase = .handle .eth) :
    (∃ i, decodeEtype sel = .ok i ∧ exec i s = .next (s.setPhase (phaseAfter .cont .eth sel))) ∨
    (∃ r, decodeEtype sel = .error r) ∧ phaseAfter .cont .eth sel = .idle := by
  by_cases hip : sel = 0x0800
  · subst hip
    exact .inl ⟨.etypeIpv4, rfl, dispatchTo_handled hp⟩
  by_cases harp : sel = 0x0806
  · subst harp
    exact .inl ⟨.etypeArp, rfl, dispatchTo_handled hp⟩
  · exact .inr ⟨⟨_, (if_neg hip).trans (if_neg harp)⟩, (if_neg harp).trans (if_neg hip)⟩

/-- SQ_SEL after the IP handler, in the same way (R205). -/
theorem decodeIpproto_phaseAfter (sel : U16) {s : State} (hp : s.seqr.phase = .handle .ip) :
    (∃ i, decodeIpproto sel = .ok i ∧ exec i s = .next (s.setPhase (phaseAfter .cont .ip sel))) ∨
    (∃ r, decodeIpproto sel = .error r) ∧ phaseAfter .cont .ip sel = .idle := by
  by_cases hicmp : sel = 1
  · subst hicmp
    exact .inl ⟨.ipprotoIcmp, rfl, dispatchTo_handled hp⟩
  by_cases htcp : sel = 6
  · subst htcp
    exact .inl ⟨.ipprotoTcp, rfl, dispatchTo_handled hp⟩
  by_cases hudp : sel = 17
  · subst hudp
    exact .inl ⟨.ipprotoUdp, rfl, dispatchTo_handled hp⟩
  · exact .inr ⟨⟨_, (if_neg hicmp).trans ((if_neg htcp).trans (if_neg hudp))⟩,
      (if_neg hicmp).trans ((if_neg hudp).trans (if_neg htcp))⟩

/-- Settles O47: only a CONTINUE of the Ethernet and the IP handler looks at SQ_SEL; every other verdict ends in IDLE. -/
theorem verdictMovesThePhaseByTheTable : Obligations.VerdictMovesThePhaseByTheTable := by
  unfold Obligations.VerdictMovesThePhaseByTheTable
  rintro s v l rest ⟨hs, hi⟩ hr hp hw
  rw [step_verdict hs hi (State.handling_of hr hp) hw]
  cases v with
  | drop => rfl
  | cont =>
    cases l with
    | arp => rfl
    | icmp => rfl
    | udp => rfl
    | tcp => rfl
    | eth =>
      simp only [endHandler]
      rcases decodeEtype_phaseAfter s.seqr.sel (s := { s with inputs := rest }) hp with ⟨i, hd, hexec⟩ | ⟨⟨r, hd⟩, hidle⟩
      · rw [hd]
        exact hexec
      · rw [hd, hidle]
        rfl
    | ip =>
      simp only [endHandler]
      rcases decodeIpproto_phaseAfter s.seqr.sel (s := { s with inputs := rest }) hp with ⟨i, hd, hexec⟩ | ⟨⟨r, hd⟩, hidle⟩
      · rw [hd]
        exact hexec
      · rw [hd, hidle]
        rfl

/-! ### SEQ's step, phase by phase -/

theorem seqStep_disabled {s : State} (h : s.seqEnabled = false) : seqStep s = .next s :=
  if_neg (ne_true_of_eq_false h)

theorem seqStep_handle {s : State} {l : Layer} (hp : s.seqr.phase = .handle l) : seqStep s = .next s := by
  rw [seqStep, hp]
  exact ite_self _

section Enabled
variable {s : State} (hr : s.sq.running = true) (hf : s.status.fatal = false)
include hr hf

theorem seqEnabled_of : s.seqEnabled = true := by
  rw [State.seqEnabled, hr, hf]
  rfl

theorem seqStep_empty (hp : s.seqr.phase = .idle) (hq : s.rxq = []) : seqStep s = .next s := by
  rw [seqStep, if_pos (seqEnabled_of hr hf), hp, hq]

theorem seqStep_dequeue {F : Frame} {more : List Frame} (hp : s.seqr.phase = .idle) (hq : s.rxq = F :: more) :
    seqStep s = .next (dequeueFrame F more s) := by
  rw [seqStep, if_pos (seqEnabled_of hr hf), hp, hq]

theorem seqStep_parse {l : Layer} (hp : s.seqr.phase = .parse l) : seqStep s = parseLayer l s := by
  rw [seqStep, if_pos (seqEnabled_of hr hf), hp]

end Enabled

/-- Settles O51: SEQ is not enabled in UNINIT or while halted, and its step in a HANDLE phase is none. -/
theorem sequencerHoldsStill : Obligations.SequencerHoldsStill := by
  unfold Obligations.SequencerHoldsStill
  rintro s rest ⟨hs, hi⟩ h
  rw [step_seq hs hi]
  rcases h with hr | hf | ⟨l, hp⟩
  · have hoff : State.seqEnabled { s with inputs := rest } = false := by simp [State.seqEnabled, hr]
    exact seqStep_disabled hoff
  · have hoff : State.seqEnabled { s with inputs := rest } = false := by simp [State.seqEnabled, hf]
    exact seqStep_disabled hoff
  · exact seqStep_handle (l := l) hp

/-! ### The dequeue step -/

theorem dequeueFrame_oversized {F : Frame} {s : State} (more : List Frame) (h : s.cfg.ibufBytes < F.length) :
    dequeueFrame F more s = { s with
      rxq := more
      track := { s.track with inTrk := s.track.nextTrk, nextTrk := s.track.nextTrk + 1 }
      sq := { s.sq with drops := s.sq.drops + 1 } } := if_pos h

theorem dequeueFrame_loaded {F : Frame} {s : State} (more : List Frame) (h : F.length ≤ s.cfg.ibufBytes) :
    dequeueFrame F more s = { s with
      rxq := more
      track := { s.track with inTrk := s.track.nextTrk, nextTrk := s.track.nextTrk + 1 }
      ibuf := s.ibuf.writeRange 0 F
      seqr := { s.seqr with flen := BitVec.ofNat 32 F.length, phase := .parse .eth } } := if_neg (Nat.not_lt.mpr h)

/-- Settles O48: the frame at the head of RXQ is loaded by a range write, or dropped where it is too long for one. -/
theorem dequeueFollowsItsRule : Obligations.DequeueFollowsItsRule := by
  unfold Obligations.DequeueFollowsItsRule
  rintro s rest ⟨hs, hi⟩ hr hf hp
  rw [step_seq hs hi]
  refine ⟨fun hq => seqStep_empty hr hf hp hq, fun F more hq => ?_⟩
  rw [seqStep_dequeue (s := { s with inputs := rest }) hr hf hp hq]
  refine ⟨fun hbig => congrArg _ (dequeueFrame_oversized more hbig), fun hfits => ?_⟩
  rw [dequeueFrame_loaded (s := { s with inputs := rest }) more hfits]
  exact ⟨_, rfl, fun k hk => Memory.read?_writeRange_inside s.ibuf 0 k F hk,
    fun _ hx => Memory.read?_writeRange_outside s.ibuf hx, rfl⟩

end Sys2Proof.Machine
end

section
/-! The parse steps of SEQ (44_pipeline.md R205, R207): a parse step is its layer's parser behind the window R205 gives it, then a drop or what follows a completed parser; on a written window neither stops. -/

namespace Sys2Proof.Machine

open Sys2Proof.Statement

/-! ### The parts of a parse step -/

/-- The parser of a layer (R205). -/
def layerParser : Layer → Instr
  | .eth => .ethParse
  | .arp => .arpParse
  | .ip => .ip4Parse
  | .icmp => .icmp4Parse
  | .udp => .udpParse
  | .tcp => .segDecode

/-- The window, and for TCP the pseudo-header, that a parse step sets before its parser runs (R205). -/
def layerEntry (l : Layer) (s : State) : State :=
  match l with
  | .eth => s.setWindow 0 s.seqr.flen
  | .arp | .ip | .icmp | .udp => s.setWindow s.seqr.noff s.seqr.nlen
  | .tcp =>
    { s.setWindow s.seqr.noff s.seqr.nlen with ph := ⟨s.seqr.psrc, s.seqr.pdst, 6, s.seqr.nlen.setWidth 16⟩ }

/-- What follows a parser that completed: the checksum where the layer has one, the saved fields, HANDLE (R205). -/
def layerFinish (l : Layer) (u : State) : Out :=
  match l with
  | .eth => .next { u with seqr := { u.seqr with
      sel := u.eth.etype, noff := u.lpay.poff, nlen := u.lpay.plen, phase := .handle .eth } }
  | .arp => .next (u.setPhase (.handle .arp))
  | .ip => andThen (execCsumVerifyIp4 u) fun w => .next { w with seqr := { w.seqr with
      sel := w.ip.proto.setWidth 16, noff := w.lpay.poff, nlen := w.lpay.plen
      psrc := w.ip.src, pdst := w.ip.dst, phase := .handle .ip } }
  | .icmp => andThen (execCsumVerifyIcmp u) fun w => .next (w.setPhase (.handle .icmp))
  | .udp => andThen (execCsumVerifyUdp { u with
      win := { u.win with ilen := u.udp.len.setWidth 32 }
      ph := ⟨u.seqr.psrc, u.seqr.pdst, 17, u.udp.len⟩ }) fun w => .next (w.setPhase (.handle .udp))
  | .tcp => andThen (execCsumVerifyTcp u) fun w => .next (w.setPhase (.handle .tcp))

theorem parseLayer_eq (l : Layer) (s : State) :
    parseLayer l s = andThen (exec (layerParser l) (layerEntry l s)) (dropOnError (layerFinish l)) := by
  cases l <;> rfl

theorem andThen_of_eq {o : Out} {u : State} (h : o = .next u) (k : State → Out) : andThen o k = k u := by
  rw [h, andThen_of_next]

section Parsed
variable {l : Layer} {s u : State} (hu : exec (layerParser l) (layerEntry l s) = .next u)
include hu

theorem parseLayer_of_error (he : u.status.err ≠ .none) : parseLayer l s = .next u.dropFrame := by
  rw [parseLayer_eq, andThen_of_eq hu]
  exact if_neg he

theorem parseLayer_of_completed (he : u.status.err = .none) : parseLayer l s = layerFinish l u := by
  rw [parseLayer_eq, andThen_of_eq hu]
  exact if_pos he

end Parsed

/-- Settles O49: each clause is one of the parts, in its layer. -/
theorem parseStepsFollowTheTable : Obligations.ParseStepsFollowTheTable := by
  unfold Obligations.ParseStepsFollowTheTable
  rintro s rest s0 ⟨hs, hi⟩ hr hf rfl l i u hp hlayer
  have hu : exec (layerParser l) (layerEntry l { s with inputs := rest }) = .next u := by
    rcases hlayer with ⟨rfl, rfl, h⟩ | ⟨rfl, rfl, h⟩ | ⟨rfl, rfl, h⟩ | ⟨rfl, rfl, h⟩ | ⟨rfl, rfl, h⟩ | ⟨rfl, rfl, h⟩ <;>
      exact h
  rw [step_seq hs hi, seqStep_parse (s := { s with inputs := rest }) hr hf hp]
  refine ⟨fun he => parseLayer_of_error hu he, fun he => ?_⟩
  rw [parseLayer_of_completed hu he]
  refine ⟨?_, ?_, ?_, ?_, ?_, ?_⟩
  · rintro rfl
    rfl
  · rintro rfl
    rfl
  · rintro w rfl hw
    exact andThen_of_eq hw _
  · rintro w rfl hw
    exact andThen_of_eq hw _
  · rintro w rfl hw
    have hseqr : u.seqr = s.seqr := (execUdpParse_kept hu).seqr
    rw [← hseqr] at hw
    exact andThen_of_eq hw _
  · rintro w rfl hw
    exact andThen_of_eq hw _

/-! ### On a written window the parser answers -/

theorem layerEntry_status (l : Layer) (s : State) : (layerEntry l s).status = s.status := by
  cases l <;> rfl

/-- The window R205 sets is the frame for Ethernet and the saved window of the layer below for the others. -/
theorem layerEntry_windowIs {l : Layer} {s : State} {off len : Nat} {W : Bytes}
    (hoff : off = if l = .eth then 0 else s.seqr.noff.toNat)
    (hlen : len = if l = .eth then s.seqr.flen.toNat else s.seqr.nlen.toNat)
    (hin : off + len ≤ s.cfg.ibufBytes) (hW : W.length = len) (hB : s.Holds .ibuf off W) : (layerEntry l s).WindowIs W := by
  subst hoff hlen
  cases l <;> exact ⟨hin, hW, hB⟩

theorem layerParser_answers {s : State} {W : Bytes} (l : Layer) (hf : s.status.fatal = false) (hW : s.WindowIs W) :
    ∃ u, exec (layerParser l) s = .next u := by
  cases l with
  | eth =>
    simp only [layerParser, exec, execEthParse_window hf hW]
    split <;> exact ⟨_, rfl⟩
  | arp =>
    simp only [layerParser, exec, execArpParse_window hf hW]
    repeat' split
    all_goals exact ⟨_, rfl⟩
  | ip =>
    cases hc : ip4Check W with
    | error e => exact ⟨_, execIp4Parse_error hf hW hc⟩
    | ok hl => exact ⟨_, execIp4Parse_ok hf hW hc⟩
  | icmp =>
    simp only [layerParser, exec, execIcmp4Parse_window hf hW]
    split <;> exact ⟨_, rfl⟩
  | udp =>
    simp only [layerParser, exec, execUdpParse_window hf hW]
    repeat' split
    all_goals exact ⟨_, rfl⟩
  | tcp =>
    cases hd : decodeHeader W with
    | error e => exact ⟨_, execSegDecode_error hf hW hd⟩
    | ok p => exact ⟨_, execSegDecode_ok hf hW hd⟩

/-! ### Behind a completed parser the checksum completes -/

theorem Raised.err_ne_none {codes : List Err} {s t : State} (h : Raised codes s t) (hf : s.status.fatal = false)
    (hcodes : Err.none ∉ codes) : t.status.err ≠ .none := by
  rcases h with ⟨hhalted, -⟩ | ⟨-, e, he, rfl⟩
  · exact absurd (hf.symm.trans hhalted) (by decide)
  · rintro rfl
    exact hcodes he

/-- CSUM_VERIFY on a window its check accepts ends with ERR NONE, and what follows leaves STATUS. -/
theorem andThen_csumVerify {verify : Bytes → Except Err (U16 × Bool)} {u : State} {W : Bytes} {c : U16} {ok : Bool}
    {k : State → State} (hf : u.status.fatal = false) (hW : u.WindowIs W) (hv : verify W = .ok (c, ok))
    (hk : ∀ w, (k w).status = w.status) :
    ∃ t, andThen (issued (csumVerify verify) u) (fun w => .next (k w)) = .next t ∧ t.status.err = .none :=
  ⟨_, andThen_of_eq (issued_csumVerify_ok hf hW hv) _, congrArg Status.err (hk _)⟩

/-- An accepted IPv4 header has every byte its checksum is taken over (R149, R183). -/
theorem verifyIp4_of_ip4Check {W : Bytes} {hl : Nat} (h : ip4Check W = .ok hl) : ∃ c ok, verifyIp4 W = .ok (c, ok) := by
  obtain ⟨h20, -, htlen, hlen, hihl⟩ := ip4Check_ok h
  rw [lowNibble_toNat] at hihl
  rw [verifyIp4_long (by omega), if_neg (by omega), if_neg (by omega)]
  exact ⟨_, _, rfl⟩

/-- A shorter ILEN leaves the first bytes of the window. -/
theorem windowIs_take {s : State} {W : Bytes} {n : U32} (hW : s.WindowIs W) (hn : n.toNat ≤ W.length) :
    State.WindowIs { s with win := { s.win with ilen := n } } (W.take n.toNat) := by
  obtain ⟨hin, hlen, hB⟩ := hW
  refine ⟨Nat.le_trans (Nat.add_le_add_left (hlen ▸ hn) _) hin, List.length_take_of_le hn, fun k hk => ?_⟩
  obtain ⟨hkn, hkW⟩ := Nat.lt_min.mp (List.length_take ▸ hk)
  have hbyte : byteAt (W.take n.toNat) k = byteAt W k := by simp [byteAt, hkn]
  rw [hbyte]
  exact hB k hkW

theorem layerFinish_answers {l : Layer} {s u : State} (hf : s.status.fatal = false)
    (hu : exec (layerParser l) s = .next u) (he : u.status.err = .none) :
    ∃ t, layerFinish l u = .next t ∧ t.status.err = .none := by
  have notRaised {codes : List Err} (hcodes : Err.none ∉ codes) : ¬ Raised codes s u :=
    fun h => h.err_ne_none hf hcodes he
  cases l with
  | eth => exact ⟨_, rfl, he⟩
  | arp => exact ⟨_, rfl, he⟩
  | ip =>
    obtain ⟨-, W, hl, hW, hc, rfl⟩ := (execIp4Parse_next hu).resolve_left (notRaised (by decide))
    obtain ⟨c, ok, hv⟩ := verifyIp4_of_ip4Check hc
    exact andThen_csumVerify hf hW hv fun _ => rfl
  | icmp =>
    obtain ⟨-, W, hW, h8, rfl⟩ := (execIcmp4Parse_next hu).resolve_left (notRaised (by decide))
    exact andThen_csumVerify hf hW (verifyIcmp_long (by omega)) fun _ => rfl
  | udp =>
    obtain ⟨-, W, hW, h8, hfits, rfl⟩ := (execUdpParse_next hu).resolve_left (notRaised (by decide))
    have hn : ((be16At W 4).setWidth 32).toNat = (be16At W 4).toNat := BitVec.toNat_setWidth_of_le (by decide)
    have htake : 8 ≤ (W.take ((be16At W 4).setWidth 32).toNat).length := by
      rw [List.length_take_of_le (hn ▸ hfits), hn]
      exact h8
    exact andThen_csumVerify hf (windowIs_take hW (hn ▸ hfits)) (verifyUdp_long _ htake rfl rfl) fun _ => rfl
  | tcp =>
    obtain ⟨-, W, hl, c, hW, hd, rfl⟩ := (execSegDecode_next hu).resolve_left (notRaised (by decide))
    obtain ⟨h20, -⟩ := decodeHeader_ok hd
    exact andThen_csumVerify hf hW (verifyTcp_long _ h20) fun _ => rfl

/-- A parse step on a written window answers, and where it reaches the handler ERR is NONE. -/
theorem parseLayer_answers {l : Layer} {s : State} {W : Bytes} (hf : s.status.fatal = false)
    (hW : (layerEntry l s).WindowIs W) :
    ∃ t, parseLayer l s = .next t ∧ (t.seqr.phase = .handle l → t.status.err = .none) := by
  have hf' : (layerEntry l s).status.fatal = false := (congrArg Status.fatal (layerEntry_status l s)).trans hf
  obtain ⟨u, hu⟩ := layerParser_answers l hf' hW
  by_cases he : u.status.err = .none
  · obtain ⟨t, ht, hnone⟩ := layerFinish_answers hf' hu he
    exact ⟨t, (parseLayer_of_completed hu he).trans ht, fun _ => hnone⟩
  · exact ⟨_, parseLayer_of_error hu he, nofun⟩

/-- Settles O50: the step answers, its phase is HANDLE or IDLE, and the rest is kept. -/
theorem decodeErrorsNeverStopTheLoop : Obligations.DecodeErrorsNeverStopTheLoop := by
  unfold Obligations.DecodeErrorsNeverStopTheLoop
  rintro s l rest off len W ⟨hs, hi⟩ hr hf hp hoff hlen hin hW hB
  rw [step_seq hs hi, seqStep_parse (s := { s with inputs := rest }) hr hf hp]
  have hwin := layerEntry_windowIs (s := { s with inputs := rest }) hoff hlen hin hW hB
  obtain ⟨t, ht, hnone⟩ := parseLayer_answers (s := { s with inputs := rest }) hf hwin
  have hkept := parseLayer_kept ht
  exact ⟨t, ht, hkept.running.trans hr, hkept.fatal.trans hf, hkept.rxq, hkept.txq,
    (parseLayer_phase ht).imp_left fun ⟨hphase, hdrops⟩ => ⟨hphase, hdrops, hnone hphase⟩⟩

end Sys2Proof.Machine
end

section
/-! Every command keeps the invariant (45_host_port.md R222; 10_state.md R33, R43 to R46; 20_memory.md R60): the updates that keep it, then the commits that are made of them. -/

namespace Sys2Proof.Machine

open Sys2Proof.Statement

/-! ### Updates that keep the invariant -/

section Updates
variable {s : State} (h : s.Inv)
include h

/-- No clause speaks of RESULT or of STATUS. -/
theorem State.Inv.setResult (r : U16) (q : Status) : State.Inv { s with result := r, status := q } :=
  ⟨h.cfg, h.buffers, h.ranges, h.slots, h.queues, h.sequencer, h.windows, h.scan⟩

/-- The parsers' result registers are free; L_POFF and L_PLEN must lie inside IBUF. -/
theorem State.Inv.setParsed {p : LayerPayload} (hp : p.poff.toNat + p.plen.toNat ≤ s.cfg.ibufBytes) (e : EthRegs)
    (a : ArpRegs) (i : IpRegs) (c : IcmpRegs) (u : UdpRegs) :
    State.Inv { s with eth := e, arp := a, ip := i, icmp := c, udp := u, lpay := p } :=
  ⟨h.cfg, h.buffers, h.ranges, h.slots, h.queues, h.sequencer, ⟨hp, h.windows.2⟩, h.scan⟩

theorem State.Inv.setFopt {r : Option TcpOption} (hr : ∀ o ∈ r, slotOk o = true) : State.Inv { s with fopt := r } :=
  ⟨h.cfg, h.buffers, h.ranges, ⟨h.slots.1, h.slots.2.1, hr⟩, h.queues, h.sequencer, h.windows, h.scan⟩

theorem State.Inv.setTrack (k : Track) : State.Inv { s with track := k } :=
  ⟨h.cfg, h.buffers, h.ranges, h.slots, h.queues, h.sequencer, h.windows, h.scan⟩

/-- The empty segment has no option and no payload (40_segment_codec.md R121). -/
theorem State.Inv.emptySeg : State.Inv { s with seg := Seg.empty } := by
  obtain ⟨r1, r2, -, -, r5, r6⟩ := h.ranges
  exact ⟨h.cfg, h.buffers, ⟨r1, r2, Nat.zero_le _, Nat.zero_le _, r5, r6⟩, h.slots, h.queues, h.sequencer, h.windows,
    h.scan⟩

theorem State.Inv.setPh (p : PseudoHdr) : State.Inv { s with ph := p } :=
  ⟨h.cfg, h.buffers, h.ranges, h.slots, h.queues, h.sequencer, h.windows, h.scan⟩

theorem State.Inv.setIlen {n : U32} (hn : n.toNat ≤ s.cfg.ibufBytes) :
    State.Inv { s with win := { s.win with ilen := n } } :=
  ⟨h.cfg, h.buffers, ⟨h.ranges.1, hn, h.ranges.2.2⟩, h.slots, h.queues, h.sequencer, h.windows, h.scan⟩

theorem State.Inv.setScan {sc : Scan} (hsc : State.ScanOk { s with scan := sc }) : State.Inv { s with scan := sc } :=
  ⟨h.cfg, h.buffers, h.ranges, h.slots, h.queues, h.sequencer, h.windows, hsc⟩

theorem State.Inv.setIssuer (th : Thread) : State.Inv { s with issuer := th } :=
  ⟨h.cfg, h.buffers, h.ranges, h.slots, h.queues, h.sequencer, h.windows, h.scan⟩

theorem State.Inv.setArpc (c : List (U32 × U48)) (r : Option (U32 × Option U48)) :
    State.Inv { s with arpcCache := c, arpcResp := r } :=
  ⟨h.cfg, h.buffers, h.ranges, h.slots, h.queues, h.sequencer, h.windows, h.scan⟩

theorem State.Inv.setRxq {q : List Frame} (hq : ∀ c ∈ s.cfg.rxqCap, q.length ≤ c) : State.Inv { s with rxq := q } :=
  ⟨h.cfg, h.buffers, h.ranges, h.slots, ⟨hq, h.queues.2⟩, h.sequencer, h.windows, h.scan⟩

theorem State.Inv.setTxq {q : List Frame} (hq : ∀ c ∈ s.cfg.txqCap, q.length ≤ c) : State.Inv { s with txq := q } :=
  ⟨h.cfg, h.buffers, h.ranges, h.slots, ⟨h.queues.1, hq⟩, h.sequencer, h.windows, h.scan⟩

/-- A frame goes to TXQ where there is room (44_pipeline.md R202). -/
theorem State.Inv.enqueue (hroom : s.txRoom = true) (F : Frame) : State.Inv { s with txq := s.txq ++ [F] } :=
  h.setTxq fun c hc => by
    rw [List.length_append]
    exact s.txRoom_iff.mp hroom c hc

/-- In UNINIT no handler runs, so the worker holds nothing when it starts (R201). -/
theorem State.Inv.start (hr : s.sq.running = false) : State.Inv { s with
    sq := { s.sq with wired := true, running := true }
    seqr := { s.seqr with phase := .idle } } := by
  have hw : s.workerHeld = false := h.notHeld (by simp [State.handling, hr])
  exact ⟨h.cfg, h.buffers, h.ranges, h.slots, h.queues,
    ⟨rfl, fun _ => rfl, fun hh => absurd (hw.symm.trans hh) (by simp)⟩, h.windows, h.scan⟩

/-- The worker's TX_ENQUEUE is held only while a handler runs (R210). -/
theorem State.Inv.markHeld (hq : s.issuer = .worker → s.handling.isSome = true) : s.markHeld.Inv := by
  cases hi : s.issuer with
  | host =>
    rw [State.markHeld_host hi]
    exact ⟨h.cfg, h.buffers, h.ranges, h.slots, h.queues, h.sequencer, h.windows, h.scan⟩
  | worker =>
    rw [State.markHeld_worker hi]
    exact ⟨h.cfg, h.buffers, h.ranges, h.slots, h.queues,
      ⟨h.sequencer.1, h.sequencer.2.1, fun _ => hq hi⟩, h.windows, h.scan⟩

theorem State.Inv.release (th : Thread) : (s.release th).Inv := by
  cases th with
  | host => exact ⟨h.cfg, h.buffers, h.ranges, h.slots, h.queues, h.sequencer, h.windows, h.scan⟩
  | worker =>
    exact ⟨h.cfg, h.buffers, h.ranges, h.slots, h.queues, ⟨h.sequencer.1, h.sequencer.2.1, nofun⟩, h.windows, h.scan⟩

end Updates

/-! ### Commands -/

/-- m bytes of the window, n bytes behind its start, lie inside IBUF. -/
theorem window_part {s : State} {W : Bytes} {n m : Nat} (hW : s.WindowIs W) (h : n + m ≤ W.length) :
    (s.win.ioff + BitVec.ofNat 32 n).toNat + (BitVec.ofNat 32 m).toNat ≤ s.cfg.ibufBytes := by
  obtain ⟨hin, hlen, -⟩ := hW
  have hoff : (s.win.ioff + BitVec.ofNat 32 n).toNat ≤ s.win.ioff.toNat + n := by
    rw [ioff_add, BitVec.toNat_ofNat]
    exact Nat.mod_le ..
  have hm : (BitVec.ofNat 32 m).toNat ≤ m := by
    rw [BitVec.toNat_ofNat]
    exact Nat.mod_le ..
  omega

/-- What is left of the window behind n bytes lies inside IBUF. -/
theorem window_rest {s : State} {W : Bytes} {n : Nat} (hW : s.WindowIs W) (h : n ≤ W.length) :
    (s.win.ioff + BitVec.ofNat 32 n).toNat + (s.win.ilen - BitVec.ofNat 32 n).toNat ≤ s.cfg.ibufBytes := by
  rw [ilen_sub hW h]
  exact window_part hW (Nat.add_sub_cancel' h).le

theorem State.Inv.window_length {s : State} {W : Bytes} (h : s.Inv) (hW : s.WindowIs W) : W.length ≤ s.cfg.ibufBytes :=
  hW.2.1.trans_le h.ranges.2.1

/-- A slot of the chain, and EOL beyond the slots, is a legal record. -/
theorem State.Inv.slotOk_getD {s : State} (h : s.Inv) (k : Nat) : slotOk (s.opts.getD k .eol) = true := by
  by_cases hk : k < s.opts.length
  · rw [List.getD_eq_getElem _ _ hk]
    exact h.slots.2.1 _ (List.getElem_mem hk)
  · rw [List.getD_eq_default _ _ (Nat.not_lt.mp hk)]
    rfl

/-- OBUF has room behind OOFF for a header of 60 bytes and a payload of PLEN bytes (00_scope.md R7). -/
theorem State.Inv.out_room {s : State} (h : s.Inv) {n : Nat} (hn : n ≤ 60 + s.seg.plen.toNat) :
    s.out.ooff.toNat + n ≤ s.cfg.obufBytes := by
  obtain ⟨-, -, -, hplen, hooff, -⟩ := h.ranges
  simp only [Config.pbufBytes] at hplen
  simp only [Config.obufBytes]
  omega

/-- The encoded segment is written inside OBUF; CSUM, HLEN and RESULT are free. -/
theorem State.Inv.putSegment {s : State} {O P E : Bytes} (h : s.Inv) (hO : encodedOptions s = some O)
    (hP : P.length = s.seg.plen.toNat) (hE : E.length = 20 + O.length + P.length) (c : U16) (hl : Byte) (r : U16) :
    (State.putOut { s with seg := { s.seg with csum := c, hlen := hl }, result := r } E).Inv := by
  obtain ⟨-, -, h60⟩ := encodedOptions_eq_some.mp hO
  exact ((h.setSeg { s.seg with csum := c, hlen := hl } rfl rfl).setResult r s.status).putOut (h.out_room (by omega))

/-- Every command keeps the invariant; TX_ENQUEUE where its thread may hold it. -/
theorem command_inv {i : Instr} {s t : State} (hc : command i) (hs : s.Inv)
    (hq : i = .txEnqueue → s.issuer = .worker → s.handling.isSome = true) (h : exec i s = .next t) : t.Inv := by
  cases i with
  | segDecode =>
    obtain h | ⟨-, W, hl, c, hW, hd, rfl⟩ := execSegDecode_next h
    · exact hs.raised h
    · obtain ⟨-, -, -, -, -, -, hlen, hslots⟩ := decodeHeader_ok hd
      exact (hs.commitSegment (hs.window_length hW) hlen hslots).setErr _
  | segEncode =>
    obtain h | h | ⟨-, O, P, E, hO, hP, -, rfl, rfl⟩ := execSegEncode_next h
    exacts [hs.raised h, hs.raisedEiv h, (hs.putSegment hO hP (segmentBytes_length ..) _ _ _).setErr _]
  | segChecksum =>
    obtain h | h | ⟨-, O, P, c, -, -, -, -, rfl⟩ := execSegChecksum_next h
    exacts [hs.raised h, hs.raisedEiv h, hs.setResult _ _]
  | segGetRaw =>
    obtain h | h | ⟨-, O, P, c, E, hO, hP, -, -, rfl, rfl⟩ := execSegGetRaw_next h
    exacts [hs.raised h, hs.raisedEiv h,
      (hs.putSegment hO hP ((putBe16_length ..).trans (segmentBytes_length ..)) _ _ _).setErr _]
  | csumVerifyTcp =>
    obtain h | ⟨-, W, c, ok, -, -, rfl⟩ := execCsumVerifyTcp_next h
    exacts [hs.raised h, hs.setResult _ _]
  | csumVerifyUdp =>
    obtain h | ⟨-, W, c, ok, -, -, rfl⟩ := execCsumVerifyUdp_next h
    exacts [hs.raised h, hs.setResult _ _]
  | csumVerifyIcmp =>
    obtain h | ⟨-, W, c, ok, -, -, rfl⟩ := execCsumVerifyIcmp_next h
    exacts [hs.raised h, hs.setResult _ _]
  | csumVerifyIp4 =>
    obtain h | ⟨-, W, c, ok, -, -, rfl⟩ := execCsumVerifyIp4_next h
    exacts [hs.raised h, hs.setResult _ _]
  | segFindOption kind =>
    obtain h | ⟨-, rfl⟩ := execSegFindOption_next h
    · exact hs.raised h
    · exact (hs.setFopt fun o ho => hs.slots.2.1 o (List.mem_of_mem_take (List.mem_of_find?_eq_some ho))).status _
  | optDecode =>
    obtain h | ⟨-, W, c, -, h40, hd, rfl⟩ := execOptDecode_next h
    · exact hs.raised h
    · obtain ⟨hlen, hslots⟩ := decodeOptions_bounds hd
      exact (hs.commitChain (hlen.trans h40) (hslots h40)).setErr _
  | optEncode slot =>
    obtain h | h | ⟨-, -, B, hB, rfl⟩ := execOptEncode_next h
    · exact hs.raised h
    · exact hs.raisedEiv h
    · have hlen : B.length ≤ 40 := encOpt_length hB (hs.slotOk_getD _)
      exact (hs.putOut (hs.out_room (by omega))).setErr _
  | segNew link =>
    obtain h | ⟨-, rfl⟩ := execSegNew_next h
    · exact hs.raised h
    · exact (hs.emptySeg.setTrack _).setErr _
  | ethParse =>
    obtain h | ⟨-, W, hW, h14, rfl⟩ := execEthParse_next h
    exacts [hs.raised h, (hs.setParsed (window_rest hW h14) _ _ _ _ _).setErr _]
  | arpParse =>
    obtain h | ⟨-, W, hW, h28, -, rfl⟩ := execArpParse_next h
    exacts [hs.raised h, (hs.setParsed (window_part (m := 0) hW h28) _ _ _ _ _).setErr _]
  | ip4Parse =>
    obtain h | ⟨-, W, hl, hW, hc, rfl⟩ := execIp4Parse_next h
    · exact hs.raised h
    · obtain ⟨-, -, hhl, htlen, -⟩ := ip4Check_ok hc
      exact (hs.setParsed (window_part hW (by omega)) _ _ _ _ _).setErr _
  | icmp4Parse =>
    obtain h | ⟨-, W, hW, h8, rfl⟩ := execIcmp4Parse_next h
    exacts [hs.raised h, (hs.setParsed (window_rest hW h8) _ _ _ _ _).setErr _]
  | udpParse =>
    obtain h | ⟨-, W, hW, h8, hlen, rfl⟩ := execUdpParse_next h
    · exact hs.raised h
    · exact (hs.setParsed (window_part (n := 8) hW (by omega)) _ _ _ _ _).setErr _
  | txEnqueue =>
    obtain h | ⟨-, hroom, F, -, -, rfl⟩ | ⟨-, -, -, rfl⟩ | ⟨-, -, -, rfl⟩ := execTxEnqueue_next h
    exacts [hs.raised h, (hs.enqueue hroom F).setErr _, hs.markHeld (hq rfl), hs.setErr _]
  | sqStart =>
    obtain h | ⟨-, hr, rfl⟩ := execSqStart_next h
    exacts [hs.raised h, (hs.start hr).setErr _]
  | _ => cases hc

end Sys2Proof.Machine
end

section
/-! Every step keeps the invariant: host transactions, selectors, the scanner, SEQ and every move from outside keep it, and a step is one of these. -/

namespace Sys2Proof.Machine

open Sys2Proof.Statement

/-! ### Host transactions and selectors -/

theorem issueWord_inv {w : U32} {s t : State} (hs : s.Inv) (hq : s.issuer = .worker → s.handling.isSome = true)
    (h : issueWord w s = .next t) : t.Inv := by
  rcases issued_next h with ⟨-, rfl⟩ | ⟨-, h⟩
  · exact hs.setErr _
  · cases hd : decodeCommand w with
    | error e =>
      rw [hd] at h
      cases h
      exact hs.setErr _
    | ok i =>
      obtain ⟨-, hop⟩ := decodeCommand_eq_ok.mp hd
      obtain ⟨hc, -⟩ := encode_of_decodeOp hop
      rw [hd] at h
      exact command_inv hc hs (fun _ => hq) ((runCommand_eq_exec hc s).symm.trans h)

theorem hostTxn_inv {i : Instr} {s t : State} (hi : i.format = .hostTxn) (hs : s.Inv)
    (hq : s.issuer = .worker → s.handling.isSome = true) (h : exec i s = .next t) : t.Inv := by
  cases i with
  | regRead n =>
    cases h
    exact hs.resp _
  | regWrite n v =>
    simp only [exec, execRegWrite] at h
    split at h
    · cases h
      exact hs
    · split at h
      · exact issueWord_inv hs hq h
      · cases h
        exact hs
      · cases h
        exact hs
    · cases h
      exact hs.write
  | bufRead b a =>
    simp only [exec, execBufRead] at h
    split at h
    · cases h
      exact hs.resp _
    · split at h
      · cases h
        exact hs.resp _
      · split at h <;> cases h
        exact hs.resp _
  | bufWrite b a x =>
    simp only [exec, execBufWrite] at h
    split at h
    · cases h
      exact hs
    · rename_i id _
      split at h <;> cases h
      · exact hs
      · exact hs.setBuf (Memory.write_ok x (by omega) (hs.buf id))
  | _ => cases hi

theorem dispatchTo_inv {after next : Layer} {s t : State} (hs : s.Inv) (hr : s.sq.running = true)
    (hw : s.workerHeld = false) (h : dispatchTo after next s = .next t) : t.Inv := by
  unfold dispatchTo at h
  split at h <;> cases h
  · exact hs.setPhase hr hw
  · exact hs

/-- A selector moves SEQ on, which the worker does not wait for. -/
theorem selector_inv {i : Instr} {s t : State} (hi : i.format = .etype16 ∨ i.format = .ipproto8) (hs : s.Inv)
    (hr : s.sq.running = true) (hw : s.workerHeld = false) (h : exec i s = .next t) : t.Inv := by
  cases i with
  | etypeIpv4 | etypeArp | ipprotoIcmp | ipprotoTcp | ipprotoUdp => exact dispatchTo_inv hs hr hw h
  | _ => rcases hi with hi | hi <;> cases hi

theorem decodeEtype_format {sel : U16} {i : Instr} (h : decodeEtype sel = .ok i) : i.format = .etype16 := by
  unfold decodeEtype at h
  repeat' split at h
  all_goals cases h
  all_goals rfl

theorem decodeIpproto_format {sel : U16} {i : Instr} (h : decodeIpproto sel = .ok i) : i.format = .ipproto8 := by
  unfold decodeIpproto at h
  repeat' split at h
  all_goals cases h
  all_goals rfl

/-! ### The scanner -/

/-- A turn uses up at least one byte for the record it appends (42_option_chain.md R160). -/
theorem State.Inv.scanTurn {s : State} (h : s.Inv) {A : Bytes} {c : List TcpOption} (hs : s.scan = .scanning A c)
    (hA : A ≠ []) : State.Inv { s with scan := (Scan.scanning A c).turn } := by
  obtain ⟨hlen, hc⟩ : A.length + c.length ≤ Config.maxOpts ∧ ∀ o ∈ c, slotOk o = true := by
    simpa only [State.ScanOk, hs] using h.scan
  rcases Scan.turn_cases hA c with ht | ⟨rest, o, ht, hl, ho⟩
  · exact ht ▸ h.setScan trivial
  · rw [ht]
    refine h.setScan ⟨?_, fun x hx => ?_⟩
    · rw [List.length_append, List.length_singleton]
      omega
    · rcases List.mem_append.mp hx with hx | hx
      · exact hc x hx
      · rw [List.mem_singleton.mp hx]
        exact ho ((Nat.le_add_right ..).trans hlen)

/-- The chain of a scan that has used up its area fits the slots. -/
theorem State.Inv.scanEnd {s : State} (h : s.Inv) {c : List TcpOption} (hs : s.scan = .scanning [] c) :
    (State.commitChain { s with scan := .idle } c).Inv := by
  obtain ⟨hlen, hc⟩ : 0 + c.length ≤ Config.maxOpts ∧ ∀ o ∈ c, slotOk o = true := by
    simpa only [State.ScanOk, hs, List.length_nil] using h.scan
  exact (h.setScan (sc := .idle) trivial).commitChain ((Nat.zero_add _).symm.trans_le hlen) hc

/-! ### SEQ -/

theorem State.Inv.dequeueFrame {s : State} (h : s.Inv) {F : Frame} {rest : List Frame} (hr : s.sq.running = true)
    (hw : s.workerHeld = false) (hq : s.rxq = F :: rest) : (dequeueFrame F rest s).Inv := by
  have hrest : ∀ c ∈ s.cfg.rxqCap, rest.length ≤ c := fun c hc => by
    have := h.queues.1 c hc
    rw [hq, List.length_cons] at this
    omega
  have h1 := (h.setRxq hrest).setTrack { s.track with inTrk := s.track.nextTrk, nextTrk := s.track.nextTrk + 1 }
  by_cases hF : s.cfg.ibufBytes < F.length
  · rw [dequeueFrame_oversized rest hF]
    exact ⟨h1.cfg, h1.buffers, h1.ranges, h1.slots, h1.queues, h1.sequencer, h1.windows, h1.scan⟩
  · have hlen : F.length ≤ s.cfg.ibufBytes := Nat.not_lt.mp hF
    rw [dequeueFrame_loaded rest hlen]
    have hflen : (BitVec.ofNat 32 F.length).toNat ≤ s.cfg.ibufBytes := by
      rw [BitVec.toNat_ofNat]
      exact (Nat.mod_le ..).trans hlen
    have hibuf := Memory.writeRange_ok F ((Nat.zero_add _).trans_le hlen) h.buffers.1
    exact ⟨h1.cfg, ⟨hibuf, h1.buffers.2⟩, h1.ranges, h1.slots, h1.queues,
      ⟨h1.sequencer.1, fun hh => absurd (hr.symm.trans hh) (by simp), fun hh => absurd (hw.symm.trans hh) (by simp)⟩,
      ⟨h1.windows.1, h1.windows.2.1, hflen⟩, h1.scan⟩

theorem State.Inv.layerEntry {s : State} (h : s.Inv) (l : Layer) : (layerEntry l s).Inv := by
  obtain ⟨-, hnext, hframe⟩ := h.windows
  cases l with
  | eth => exact h.setWindow (by simpa using hframe)
  | tcp => exact (h.setWindow hnext).setPh _
  | arp | ip | icmp | udp => exact h.setWindow hnext

/-- The invariant during a parse step: SEQ runs, and no handler does, so the worker holds nothing. -/
structure State.ParseInv (s : State) : Prop where
  inv : s.Inv
  running : s.sq.running = true
  free : s.workerHeld = false

theorem State.ParseInv.layerEntry {s : State} (h : s.ParseInv) (l : Layer) : (layerEntry l s).ParseInv :=
  ⟨h.inv.layerEntry l, by cases l <;> exact h.running, by cases l <;> exact h.free⟩

theorem State.ParseInv.setPhase {s : State} (h : s.ParseInv) (p : Phase) : (s.setPhase p).Inv :=
  h.inv.setPhase h.running h.free

/-- The layer payload becomes the window of the next layer (R205). -/
theorem State.ParseInv.setSeqr {s : State} (h : s.ParseInv) (q : SeqState) (hoff : q.noff = s.lpay.poff)
    (hlen : q.nlen = s.lpay.plen) (hflen : q.flen = s.seqr.flen) : State.Inv { s with seqr := q } :=
  h.inv.setSeqr h.running h.free q (hoff ▸ hlen ▸ h.inv.windows.1) hflen

/-- What a parse step runs leaves SEQ and the holds. -/
theorem windowCommand_kept {i : Instr} {s t : State} (hi : i ∈ windowCommands) (h : exec i s = .next t) : Kept s t := by
  simp only [windowCommands, List.mem_cons, List.not_mem_nil, or_false] at hi
  rcases hi with rfl | rfl | rfl | rfl | rfl | rfl | rfl | rfl | rfl | rfl | rfl
  · exact execSegDecode_kept h
  · obtain h | ⟨-, W, c, -, -, -, rfl⟩ := execOptDecode_next h
    · exact .raised h
    · constructor <;> rfl
  · exact execCsumVerifyTcp_kept h
  · exact execCsumVerifyUdp_kept h
  · exact execCsumVerifyIcmp_kept h
  · exact execCsumVerifyIp4_kept h
  · exact execEthParse_kept h
  · exact execArpParse_kept h
  · exact execIp4Parse_kept h
  · exact execIcmp4Parse_kept h
  · exact execUdpParse_kept h

theorem windowCommand_command {i : Instr} (hi : i ∈ windowCommands) : command i ∧ i ≠ .txEnqueue :=
  (by decide : ∀ i ∈ windowCommands, command i ∧ i ≠ .txEnqueue) i hi

theorem State.ParseInv.windowCommand {i : Instr} {s t : State} (hs : s.ParseInv) (hi : i ∈ windowCommands)
    (h : exec i s = .next t) : t.ParseInv := by
  obtain ⟨hc, hne⟩ := windowCommand_command hi
  have hk := windowCommand_kept hi h
  exact ⟨command_inv hc hs.inv (fun he => absurd he hne) h, (congrArg _ hk.sq).trans hs.running,
    hk.workerHeld.trans hs.free⟩

/-- A datagram that UDP_PARSE accepts lies inside IBUF (43_frame_parsers.md R185). -/
theorem execUdpParse_len {s u : State} (hs : s.Inv) (hf : s.status.fatal = false) (h : execUdpParse s = .next u)
    (he : u.status.err = .none) : (u.udp.len.setWidth 32).toNat ≤ u.cfg.ibufBytes := by
  obtain h | ⟨-, W, hW, -, hlen, rfl⟩ := execUdpParse_next h
  · exact absurd he (h.err_ne_none hf (by decide))
  · rw [BitVec.toNat_setWidth_of_le (by decide)]
    exact hlen.trans (hs.window_length hW)

theorem layerParser_mem (l : Layer) : layerParser l ∈ windowCommands := by
  cases l <;> decide

theorem layerFinish_inv {l : Layer} {s u t : State} (hs : s.ParseInv) (hf : s.status.fatal = false)
    (hp : exec (layerParser l) s = .next u) (he : u.status.err = .none) (h : layerFinish l u = .next t) : t.Inv := by
  have hu : u.ParseInv := hs.windowCommand (layerParser_mem l) hp
  cases l with
  | eth =>
    cases h
    exact hu.setSeqr _ rfl rfl rfl
  | arp =>
    cases h
    exact hu.setPhase _
  | ip =>
    obtain ⟨w, hv, h⟩ := andThen_next h
    cases h
    exact (hu.windowCommand (i := .csumVerifyIp4) (by decide) hv).setSeqr _ rfl rfl rfl
  | icmp =>
    obtain ⟨w, hv, h⟩ := andThen_next h
    cases h
    exact (hu.windowCommand (i := .csumVerifyIcmp) (by decide) hv).setPhase _
  | udp =>
    obtain ⟨w, hv, h⟩ := andThen_next h
    cases h
    have hwin := (hu.inv.setIlen (execUdpParse_len hs.inv hf hp he)).setPh ⟨u.seqr.psrc, u.seqr.pdst, 17, u.udp.len⟩
    exact (State.ParseInv.windowCommand ⟨hwin, hu.running, hu.free⟩ (i := .csumVerifyUdp) (by decide) hv).setPhase _
  | tcp =>
    obtain ⟨w, hv, h⟩ := andThen_next h
    cases h
    exact (hu.windowCommand (i := .csumVerifyTcp) (by decide) hv).setPhase _

theorem parseLayer_inv {l : Layer} {s t : State} (hs : s.ParseInv) (hf : s.status.fatal = false)
    (h : parseLayer l s = .next t) : t.Inv := by
  rw [parseLayer_eq] at h
  obtain ⟨u, hp, h⟩ := andThen_next h
  have hentry : (layerEntry l s).ParseInv := hs.layerEntry l
  rcases dropOnError_next h with ⟨-, rfl⟩ | ⟨he, h⟩
  · have hu := hentry.windowCommand (layerParser_mem l) hp
    exact hu.inv.dropFrame hu.free
  · exact layerFinish_inv hentry ((congrArg _ (layerEntry_status l s)).trans hf) hp he h

theorem seqStep_inv {s t : State} (hs : s.Inv) (h : seqStep s = .next t) : t.Inv := by
  rcases seqStep_next h with rfl | ⟨hr, -, hp, F, rest, hq, rfl⟩ | ⟨hr, hf, l, hp, h⟩
  · exact hs
  · exact hs.dequeueFrame hr (hs.notHeld (by simp [State.handling, hr, hp])) hq
  · exact parseLayer_inv ⟨hs, hr, hs.notHeld (by simp [State.handling, hr, hp])⟩ hf h

/-! ### Steps -/

theorem State.Inv.rxArrive {s : State} (h : s.Inv) (F : Frame) : (s.rxArrive F).Inv := by
  obtain ⟨hroom, harr⟩ | harr := s.rxArrive_cases F
  · rw [harr]
    refine h.setRxq fun c hc => ?_
    rw [Option.mem_def.mp hc] at hroom
    rw [List.length_append]
    exact of_decide_eq_true hroom
  · rw [harr]
    exact h

theorem State.Inv.txPutOther {s : State} (h : s.Inv) (F : Frame) : (s.txPutOther F).Inv := by
  obtain ⟨hroom, hput⟩ | hput := s.txPutOther_cases F
  · exact hput ▸ h.enqueue hroom F
  · rw [hput]
    exact h

theorem State.Inv.dropRxq {s : State} (h : s.Inv) (n : Nat) : State.Inv { s with rxq := s.rxq.drop n } :=
  h.setRxq fun c hc => (List.length_drop ▸ Nat.sub_le ..).trans (h.queues.1 c hc)

theorem State.Inv.dropTxq {s : State} (h : s.Inv) (n : Nat) : State.Inv { s with txq := s.txq.drop n } :=
  h.setTxq fun c hc => (List.length_drop ▸ Nat.sub_le ..).trans (h.queues.2 c hc)

/-- The reset values meet every clause; parameters and queues are kept (70_reset_and_hazards.md R250, R253). -/
theorem State.Inv.resetFrom {s : State} (h : s.Inv) : s.resetFrom.Inv where
  cfg := h.cfg
  buffers := ⟨Memory.ok_nil _, Memory.ok_nil _, Memory.ok_nil _⟩
  ranges := ⟨Nat.zero_le _, Nat.zero_le _, Nat.zero_le _, Nat.zero_le _, Nat.zero_le _, Nat.zero_le _⟩
  slots := ⟨rfl, fun o ho => by rw [List.eq_of_mem_replicate ho]; rfl, nofun⟩
  queues := h.queues
  sequencer := ⟨rfl, fun _ => rfl, nofun⟩
  windows := ⟨Nat.zero_le _, Nat.zero_le _, Nat.zero_le _⟩
  scan := trivial

/-- A handler or ARPC issues only inside a HANDLE phase (45_host_port.md R220). -/
theorem State.handling_of_mayIssue {s : State} {who : Agent} (h : s.mayIssue who = true) (hw : who.thread = .worker) :
    s.handling.isSome = true := by
  cases who with
  | host => cases hw
  | handler => exact (Bool.and_eq_true_iff.mp h).1
  | arpc => exact (Bool.and_eq_true_iff.mp (Bool.and_eq_true_iff.mp h).1).1

/-- A held TX_ENQUEUE takes its step: the worker holds one only while a handler runs. -/
theorem State.Inv.resume {s t : State} {th : Thread} (h : s.Inv) (hh : s.held th = true)
    (he : exec .txEnqueue (s.release th) = .next t) : t.Inv := by
  refine command_inv rfl (h.release th) (fun _ hw => ?_) he
  obtain rfl : th = .worker := (s.release_issuer th).symm.trans hw
  exact h.sequencer.2.2 hh

/-- Settles O60, by the ways a step can move. -/
theorem everyStepKeepsTheInvariant : Obligations.EveryStepKeepsTheInvariant := by
  unfold Obligations.EveryStepKeepsTheInvariant
  intro s t hs h
  cases step_moved h with
  | scanEnd c hsc ht => exact ht ▸ (hs.scanEnd hsc).setErr _
  | scanRecord A c i hsc hA hd he =>
    obtain ⟨b, r, rfl⟩ := List.exists_cons_of_ne_nil hA
    cases (step_scanning hsc).symm.trans h
    exact hs.scanTurn hsc hA
  | scanFail A c hsc ht => exact ht ▸ hs.setScan trivial
  | scanRaise hsc ht => exact ht ▸ (hs.setScan (sc := .idle) trivial).setErr _
  | txn who bytes rest i hsc hi hm hd he =>
    exact hostTxn_inv (decodeTxn_format hd) ((hs.inputs rest).setIssuer _) (State.handling_of_mayIssue hm) he
  | selector rest l i hsc hi hl hw hd he =>
    have hformat := hd.imp (fun hd => decodeEtype_format hd.2) fun hd => decodeIpproto_format hd.2
    exact selector_inv hformat (hs.inputs rest) (State.handling_some hl).1 hw he
  | handlerEnd rest v l hsc hi hl hw ht => exact ht ▸ (hs.inputs rest).setPhase (State.handling_some hl).1 hw
  | seqEvent rest hsc hi he => exact seqStep_inv (hs.inputs rest) he
  | seqOwn hsc hi he => exact seqStep_inv hs he
  | resume th rest hsc hi hh hroom he => exact (hs.inputs rest).resume (by cases th <;> exact hh) he
  | rxArrive F rest hsc hi ht => exact ht ▸ (hs.inputs rest).rxArrive F
  | txTake rest hsc hi ht => exact ht ▸ (hs.inputs rest).dropTxq 1
  | rxTakeOther rest hsc hi ht => exact ht ▸ (hs.inputs rest).dropRxq 1
  | txPutOther F rest hsc hi ht => exact ht ▸ (hs.inputs rest).txPutOther F
  | resolve addr answer rest hsc hi ht => exact ht ▸ (hs.inputs rest).setArpc _ _
  | arpcStore cache rest hsc hi ht => exact ht ▸ (hs.inputs rest).setArpc _ _
  | reset rest hsc hi ht => exact ht ▸ (hs.inputs rest).resetFrom
  | pass e rest hsc hi ht => exact ht ▸ hs.inputs rest

end Sys2Proof.Machine
end

section
/-! The register file as a host reaches it (45_host_port.md R221, R222; 10_state.md R22 to R44): the numbers of the registers, what a read gives, what a write keeps and what it ignores. -/

namespace Sys2Proof.Machine

open Sys2Proof.Statement

/-! ### The numbers -/

/-- The number of a register (10_state.md R23 to R44), the inverse of `Reg.ofNumber`. -/
def Reg.number : Reg → Byte
  | .cmd => 0x00 | .status => 0x01 | .result => 0x02 | .ioff => 0x03 | .ilen => 0x04 | .olen => 0x05
  | .phSrc => 0x06 | .phDst => 0x07 | .phProto => 0x08 | .phLen => 0x09 | .inTrk => 0x0A | .nextTrk => 0x0B
  | .sqCtrl => 0x0C | .drops => 0x0D | .cfgMac => 0x0E | .cfgIp => 0x0F
  | .sport => 0x10 | .dport => 0x11 | .seqno => 0x12 | .ackno => 0x13 | .hlen => 0x14 | .flags => 0x15 | .win => 0x16
  | .csum => 0x17 | .urp => 0x18 | .optcnt => 0x19 | .plen => 0x1A
  | .trk => 0x1B | .trkParent => 0x1C | .trkHasParent => 0x1D | .fopt => 0x1E
  | .ethDst => 0x20 | .ethSrc => 0x21 | .ethType => 0x22
  | .arpHtype => 0x28 | .arpPtype => 0x29 | .arpHlen => 0x2A | .arpPlen => 0x2B | .arpOper => 0x2C
  | .arpSha => 0x2D | .arpSpa => 0x2E | .arpTha => 0x2F | .arpTpa => 0x30
  | .ipVer => 0x38 | .ipHlen => 0x39 | .ipTos => 0x3A | .ipTlen => 0x3B | .ipId => 0x3C | .ipFlags => 0x3D
  | .ipFrag => 0x3E | .ipTtl => 0x3F | .ipProto => 0x40 | .ipCsum => 0x41 | .ipSrc => 0x42 | .ipDst => 0x43
  | .icmpType => 0x48 | .icmpCode => 0x49 | .icmpCsum => 0x4A | .icmpRest => 0x4B
  | .udpSport => 0x50 | .udpDport => 0x51 | .udpLen => 0x52 | .udpCsum => 0x53
  | .lPoff => 0x58 | .lPlen => 0x59 | .ooff => 0x5C | .txlen => 0x5D
  | .opt i => slotNumber i

/-- A number names at most the register whose number it is. -/
theorem Reg.number_of_ofNumber {n : Byte} {r : Reg} (h : Reg.ofNumber n = some r) : r.number = n := by
  unfold Reg.ofNumber at h
  split at h
  any_goals
    cases h
    exact (BitVec.toNat_eq_nat.mp ‹_›).2.symm
  split at h <;> cases h
  simp only [Reg.number, slotNumber]
  bv_omega

theorem Reg.ofNumber_slotNumber : ∀ i : Fin 40, Reg.ofNumber (slotNumber i) = some (.opt i) := by decide

/-- A slot's number is one of 0x80 to 0xA7 (R33). -/
theorem not_noSlot_slotNumber (i : Fin 40) : ¬ noSlot (slotNumber i) := by
  simp only [noSlot, slotNumber]
  bv_omega

theorem Reg.notSlot_of_noSlot {r : Reg} (h : noSlot r.number) (i : Fin 40) : r ≠ .opt i := by
  rintro rfl
  exact not_noSlot_slotNumber i h

/-- Two numbers name two registers. -/
theorem Reg.ne_of_number_ne {m n : Byte} {q r : Reg} (hm : Reg.ofNumber m = some q) (hn : Reg.ofNumber n = some r)
    (h : m ≠ n) : q ≠ r := by
  rintro rfl
  exact h ((Reg.number_of_ofNumber hm).symm.trans (Reg.number_of_ofNumber hn))

/-! ### Reads -/

theorem regValue_of {n : Byte} {r : Reg} (h : Reg.ofNumber n = some r) (s : State) : regValue n s = r.read s := by
  rw [regValue, h]

/-- A number other than n reads the same in s and t, if every register other than n's does. -/
theorem regValue_other {n m : Byte} {r : Reg} {s t : State} (hn : Reg.ofNumber n = some r)
    (h : ∀ q, q ≠ r → q.read t = q.read s) (hm : m ≠ n) : regValue m t = regValue m s := by
  unfold regValue
  split
  · rfl
  · exact h _ (Reg.ne_of_number_ne ‹_› hn hm)

/-- STATUS as a number (R24, R25). -/
theorem numValue_statusWord (q : Status) : numValue q.word =
    .num (BitVec.ofNat 64 (codeNumber q.err + 16 * q.fatal.toNat + 32 * q.found.toNat + 64 * q.csumOk.toNat)) := by
  unfold Status.word
  cases q.err <;> cases q.fatal <;> cases q.found <;> cases q.csumOk <;> rfl

/-- SQ_CTRL as a number (R44). -/
theorem numValue_ctrl (q : SqRegs) :
    numValue q.ctrl = .num (BitVec.ofNat 64 (q.running.toNat + 2 * q.wired.toNat)) := by
  unfold SqRegs.ctrl
  cases q.running <;> cases q.wired <;> rfl

theorem numValue_ofBool (b : Bool) : numValue (BitVec.ofBool b) = .num (BitVec.ofNat 64 b.toNat) := by
  cases b <;> rfl

/-- Row by row, the table of R23 to R44 is what a read gives. -/
theorem regValue_of_mem_registerTable {s : State} : ∀ p ∈ registerTable s, regValue p.1 s = p.2 := by
  simp only [registerTable, List.forall_mem_append, List.forall_mem_cons, List.not_mem_nil, false_implies, implies_true,
    and_true]
  and_intros
  all_goals first
    | rfl
    | exact numValue_statusWord s.status
    | exact numValue_ctrl s.sq
    | exact numValue_ofBool s.track.hasParent

/-- The numbers of the table, one for each register that is no slot. -/
def registerNumbers : List Byte := (registerTable State.reset).map Prod.fst

theorem registerTable_numbers (s : State) : (registerTable s).map Prod.fst = registerNumbers := rfl

theorem Reg.number_mem_registerNumbers {r : Reg} (h : ∀ i, r ≠ .opt i) : r.number ∈ registerNumbers := by
  cases r with
  | opt i => exact absurd rfl (h i)
  | _ => decide

/-- A number outside the table that is no slot's is reserved (R22). -/
theorem Reg.ofNumber_reserved {n : Byte} (hn : n ∉ registerNumbers) (hslot : noSlot n) : Reg.ofNumber n = none := by
  cases hr : Reg.ofNumber n with
  | none => rfl
  | some r =>
    obtain rfl := Reg.number_of_ofNumber hr
    exact absurd (Reg.number_mem_registerNumbers (Reg.notSlot_of_noSlot hslot)) hn

theorem exec_regRead {n : Byte} {s : State} {v : Value} (h : regValue n s = v) :
    exec (.regRead n) s = .next { s with resp := some v } := by
  rw [← h]
  rfl

/-- Settles O8: the table's rows, the slots, and the numbers that name no register. -/
theorem regReadGivesTheValueAndChangesNothing : Obligations.RegReadGivesTheValueAndChangesNothing := by
  unfold Obligations.RegReadGivesTheValueAndChangesNothing
  refine fun s => ⟨fun p hp => exec_regRead (regValue_of_mem_registerTable p hp), fun i o ho => exec_regRead ?_,
    fun n hn hslot => exec_regRead ?_, fun n => rfl⟩
  · rw [regValue_of (Reg.ofNumber_slotNumber i), Reg.read, List.getD_eq_getElem?_getD, ho, Option.getD_some]
  · rw [regValue, Reg.ofNumber_reserved (registerTable_numbers s ▸ hn) hslot]

/-! ### Stores -/

/-- A value cut to a register's width, as a read gives it. -/
theorem numValue_setWidth (w : Nat) (v : BitVec 64) :
    numValue (v.setWidth w) = .num (BitVec.ofNat 64 (v.toNat % 2 ^ w)) := by
  simp only [numValue, Value.num.injEq]
  apply BitVec.eq_of_toNat_eq
  simp

/-- A write of one register shows in no other. -/
theorem Reg.read_store_other {q r : Reg} (h : q ≠ r) (v : BitVec 64) (s : State) : q.read (r.store v s) = q.read s := by
  cases r <;> first
    | rfl
    | cases q <;> first
      | rfl
      | exact absurd rfl h

theorem Reg.store_sameButRegisters (r : Reg) (v : BitVec 64) (s : State) : sameButRegisters s (r.store v s) := by
  cases r <;> exact ⟨rfl, rfl, rfl, rfl, rfl, rfl, rfl, rfl, rfl, rfl, rfl, rfl, rfl, rfl, rfl⟩

/-! ### What a write does -/

theorem exec_regWrite_reserved {n : Byte} (hn : Reg.ofNumber n = none) (v : Value) (s : State) :
    exec (.regWrite n v) s = .next s := by
  simp only [exec, execRegWrite, hn]

theorem exec_regWrite_reg {n : Byte} {r : Reg} (hn : Reg.ofNumber n = some r) (hr : r ≠ .cmd) (v : Value) (s : State) :
    exec (.regWrite n v) s = .next (r.write v s) := by
  simp only [exec, execRegWrite, hn]

theorem Reg.ne_cmd_of_writable {r : Reg} (h : r.writable = true) : r ≠ .cmd := by
  rintro rfl
  cases h

/-- An integer is stored if it is in the register's range (R222). -/
theorem Reg.write_num {r : Reg} (hw : r.writable = true) (hr : ∀ i, r ≠ .opt i) (x : BitVec 64) (s : State) :
    (inRange (r.limit s.cfg) x.toNat → r.write (.num x) s = r.store x s) ∧
    (¬ inRange (r.limit s.cfg) x.toNat → r.write (.num x) s = s) := by
  unfold Reg.write
  rw [if_pos hw]
  split
  · exact absurd rfl (hr _)
  · exact absurd rfl (hr _)
  · cases ‹Value.num x = _›
    split
    · rename_i m hm
      simp only [hm, inRange, Option.mem_some_iff, forall_eq']
      exact ⟨fun h => if_pos h, fun h => if_neg h⟩
    · rename_i hm
      simp [hm, inRange]
  · exact absurd rfl (‹∀ y, Value.num x = .num y → False› x)

/-- No integer register takes a record or none (log 8). -/
theorem Reg.write_notNum {r : Reg} {v : Value} (hr : ∀ i, r ≠ .opt i) (hv : ∀ x, v ≠ .num x) (s : State) :
    r.write v s = s := by
  unfold Reg.write
  split
  · split
    · exact absurd rfl (hr _)
    · exact absurd rfl (hr _)
    · exact absurd rfl (hv _)
    · rfl
  · rfl

theorem Reg.write_readOnly {r : Reg} (h : r.writable = false) (v : Value) (s : State) : r.write v s = s := by
  unfold Reg.write
  rw [if_neg (ne_true_of_eq_false h)]

/-! ### Integer registers -/

/-- What a row of `integerRegisters` says of its register: the number names it, it takes integers in the row's range, and it reads as the stored value cut to the row's width. -/
structure IntegerRow (c : Config) (n : Byte) (w : Nat) (max : Option Nat) (r : Reg) : Prop where
  number : Reg.ofNumber n = some r
  writable : r.writable = true
  notSlot : ∀ i, r ≠ .opt i
  limit : r.limit c = max
  read : ∀ v s, r.read (r.store v s) = .num (BitVec.ofNat 64 (v.toNat % 2 ^ w))

theorem exists_integerRow {c : Config} : ∀ p ∈ integerRegisters c, ∃ r, IntegerRow c p.1 p.2.1 p.2.2 r := by
  simp only [integerRegisters, List.forall_mem_append, List.forall_mem_cons, List.not_mem_nil, false_implies, implies_true,
    and_true]
  and_intros
  all_goals exact ⟨_, rfl, rfl, nofun, rfl, fun _ _ => numValue_setWidth _ _⟩

section Row
variable {s : State} {n : Byte} {w : Nat} {max : Option Nat} {r : Reg} (h : IntegerRow s.cfg n w max r)
include h

theorem IntegerRow.regWrite (v : Value) : exec (.regWrite n v) s = .next (r.write v s) :=
  exec_regWrite_reg h.number (Reg.ne_cmd_of_writable h.writable) v s

theorem IntegerRow.stored {x : BitVec 64} (hx : inRange max x.toNat) :
    exec (.regWrite n (.num x)) s = .next (r.store x s) := by
  rw [h.regWrite, (Reg.write_num h.writable h.notSlot x s).1 (h.limit ▸ hx)]

theorem IntegerRow.outOfRange {x : BitVec 64} (hx : ¬ inRange max x.toNat) :
    exec (.regWrite n (.num x)) s = .next s := by
  rw [h.regWrite, (Reg.write_num h.writable h.notSlot x s).2 (h.limit ▸ hx)]

theorem IntegerRow.notNum {v : Value} (hv : ∀ x, v ≠ .num x) : exec (.regWrite n v) s = .next s := by
  rw [h.regWrite, Reg.write_notNum h.notSlot hv]

end Row

/-- Settles O9: a row's register stores the value, and no other register reads differently. -/
theorem integerRegisterKeepsTheValueCutToItsWidth : Obligations.IntegerRegisterKeepsTheValueCutToItsWidth := by
  unfold Obligations.IntegerRegisterKeepsTheValueCutToItsWidth
  intro s n w max v hrow hrange
  obtain ⟨r, hr⟩ := exists_integerRow _ hrow
  refine ⟨r.store v s, hr.stored hrange, (regValue_of hr.number _).trans (hr.read v s), fun m hm => ?_,
    r.store_sameButRegisters v s⟩
  exact regValue_other hr.number (fun q hq => Reg.read_store_other hq v s) hm

/-! ### Slots -/

/-- The records a slot accepts (R33). -/
theorem slotOk_iff {o : TcpOption} : slotOk o = true ↔ ∀ tag data, o = .unknown tag data → data.length ≤ 38 := by
  cases o with
  | unknown tag data => exact decide_eq_true_iff.trans ⟨fun h _ _ he => by cases he; exact h, fun h => h tag data rfl⟩
  | _ => simp [slotOk]

theorem exec_regWrite_slot (i : Fin 40) (v : Value) (s : State) :
    exec (.regWrite (slotNumber i) v) s = .next ((Reg.opt i).write v s) :=
  exec_regWrite_reg (Reg.ofNumber_slotNumber i) nofun v s

theorem Reg.write_slot_accepted {o : TcpOption} (h : slotOk o = true) (i : Fin 40) (s : State) :
    (Reg.opt i).write (.opt o) s = { s with opts := s.opts.set i.val o } := if_pos h

theorem Reg.write_slot_refused {o : TcpOption} (h : ¬ slotOk o = true) (i : Fin 40) (s : State) :
    (Reg.opt i).write (.opt o) s = s := if_neg h

theorem Reg.write_slot_notOpt {v : Value} (h : ∀ o, v ≠ .opt o) (i : Fin 40) (s : State) : (Reg.opt i).write v s = s := by
  cases v with
  | opt o => exact absurd rfl (h o)
  | num x => rfl
  | none => rfl

/-- A written slot shows in no other register. -/
theorem Reg.read_setSlot_other {q : Reg} {i : Fin 40} (h : q ≠ .opt i) (o : TcpOption) (s : State) :
    q.read { s with opts := s.opts.set i.val o } = q.read s := by
  cases q with
  | opt j =>
    have hij : i.val ≠ j.val := fun hij => h (congrArg Reg.opt (Fin.ext hij.symm))
    simp only [Reg.read, List.getD_eq_getElem?_getD, List.getElem?_set_ne hij]
  | _ => rfl

/-- Settles O10: an accepted record is what its slot reads, and no other register reads differently. -/
theorem slotKeepsTheWrittenRecord : Obligations.SlotKeepsTheWrittenRecord := by
  unfold Obligations.SlotKeepsTheWrittenRecord
  intro s i o hlen ho
  have hslot := Reg.ofNumber_slotNumber i
  refine ⟨{ s with opts := s.opts.set i.val o }, ?_, ?_, fun m hm => ?_, ?_⟩
  · rw [exec_regWrite_slot, Reg.write_slot_accepted (slotOk_iff.mpr ho)]
  · have hi : i.val < s.opts.length := i.isLt.trans_eq hlen.symm
    simp only [regValue_of hslot, Reg.read, List.getD_eq_getElem?_getD, List.getElem?_set_self hi, Option.getD_some]
  · exact regValue_other hslot (fun q hq => Reg.read_setSlot_other hq o s) hm
  · exact ⟨rfl, rfl, rfl, rfl, rfl, rfl, rfl, rfl, rfl, rfl, rfl, rfl, rfl, rfl, rfl⟩

/-! ### Ignored writes -/

/-- The numbers of the writable integer registers, which do not depend on the parameters. -/
def integerNumbers : List Byte := (integerRegisters Config.standard).map Prod.fst

theorem integerRegisters_numbers (c : Config) : (integerRegisters c).map Prod.fst = integerNumbers := rfl

theorem Reg.number_mem_integerNumbers {r : Reg} (hw : r.writable = true) (hr : ∀ i, r ≠ .opt i) :
    r.number ∈ integerNumbers := by
  cases r with
  | opt i => exact absurd rfl (hr i)
  | _ => revert hw; decide

/-- A register that is not CMD, no slot and none of the integer registers is read-only (R22). -/
theorem exec_regWrite_ignored {n : Byte} (h0 : n ≠ 0x00) (hn : n ∉ integerNumbers) (hslot : noSlot n) (v : Value)
    (s : State) : exec (.regWrite n v) s = .next s := by
  cases hr : Reg.ofNumber n with
  | none => exact exec_regWrite_reserved hr v s
  | some r =>
    obtain rfl := Reg.number_of_ofNumber hr
    have hcmd : r ≠ .cmd := fun h => h0 (congrArg Reg.number h)
    have hopt := Reg.notSlot_of_noSlot hslot
    have hw : r.writable = false := Bool.eq_false_iff.mpr fun hw => hn (Reg.number_mem_integerNumbers hw hopt)
    rw [exec_regWrite_reg hr hcmd, Reg.write_readOnly hw]

/-- Settles O11: a number without a writable register, a value its register does not take, and CMD without an integer. -/
theorem ignoredRegisterWritesChangeNothing : Obligations.IgnoredRegisterWritesChangeNothing := by
  unfold Obligations.IgnoredRegisterWritesChangeNothing
  refine fun s => ⟨fun n v h0 hn hslot => exec_regWrite_ignored h0 (integerRegisters_numbers s.cfg ▸ hn) hslot v s,
    fun n w max x hrow hx => ?_, fun i tag data hlen => ?_, fun i v hv => ?_, fun n v hn hv => ?_⟩
  · obtain ⟨r, hr⟩ := exists_integerRow _ hrow
    exact hr.outOfRange hx
  · have hbad : ¬ slotOk (.unknown tag data) = true := fun h => absurd (slotOk_iff.mp h _ _ rfl) (by omega)
    rw [exec_regWrite_slot, Reg.write_slot_refused hbad]
  · rw [exec_regWrite_slot, Reg.write_slot_notOpt hv]
  · rcases hn with rfl | hn
    · cases v with
      | num x => exact absurd rfl (hv x)
      | opt o => rfl
      | none => rfl
    · obtain ⟨p, hp, rfl⟩ := List.mem_map.mp hn
      obtain ⟨r, hr⟩ := exists_integerRow p hp
      exact hr.notNum hv

end Sys2Proof.Machine
end

section
/-! The buffers as a host reaches them (45_host_port.md R223, R224; 20_memory.md R60, R68, R69): the buffer an id names, and what a read and a write of one byte do. -/

namespace Sys2Proof.Machine

open Sys2Proof.Statement

/-! ### The buffer an id names -/

/-- Ids of 3 and more name no buffer. -/
theorem BufId.ofNumber_none {b : Byte} (h : 3 ≤ b.toNat) : BufId.ofNumber b = none := by
  unfold BufId.ofNumber
  split
  · omega
  · omega
  · omega
  · rfl

/-- A row of the table is a buffer with its id, size and contents. -/
theorem bufferTable_row {s : State} {b : Byte} {id : BufId} {size : Nat} {mem : Memory}
    (h : (b, id, size, mem) ∈ bufferTable s) : BufId.ofNumber b = some id ∧ size = id.size s.cfg ∧ mem = s.buf id := by
  simp only [bufferTable, List.mem_cons, Prod.mk.injEq, List.not_mem_nil, or_false] at h
  rcases h with ⟨rfl, rfl, rfl, rfl⟩ | ⟨rfl, rfl, rfl, rfl⟩ | ⟨rfl, rfl, rfl, rfl⟩ <;> exact ⟨rfl, rfl, rfl⟩

/-! ### BUF_READ -/

theorem exec_bufRead_noBuffer {b : Byte} (hb : BufId.ofNumber b = none) (a : U32) (s : State) :
    exec (.bufRead b a) s = .next { s with resp := some (.num 0) } := by
  simp only [exec, execBufRead, hb]

section Read
variable {s : State} {b : Byte} {a : U32} {id : BufId} (hb : BufId.ofNumber b = some id)
include hb

theorem exec_bufRead_outside (h : id.size s.cfg ≤ a.toNat) :
    exec (.bufRead b a) s = .next { s with resp := some (.num 0) } := by
  simp only [exec, execBufRead, hb]
  exact if_pos h

theorem exec_bufRead_unwritten (h : a.toNat < id.size s.cfg) (hr : (s.buf id).read? a.toNat = none) :
    exec (.bufRead b a) s = .fault (.unwrittenByte id a.toNat) := by
  simp only [exec, execBufRead, hb, State.byte?, hr]
  exact if_neg (Nat.not_le.mpr h)

theorem exec_bufRead_written {x : Byte} (h : a.toNat < id.size s.cfg) (hr : (s.buf id).read? a.toNat = some x) :
    exec (.bufRead b a) s = .next { s with resp := some (int x) } := by
  simp only [exec, execBufRead, hb, State.byte?, hr]
  exact if_neg (Nat.not_le.mpr h)

end Read

/-- Settles O12, id by id and address by address. -/
theorem bufReadGivesTheByteOrFaults : Obligations.BufReadGivesTheByteOrFaults := by
  unfold Obligations.BufReadGivesTheByteOrFaults
  refine fun s b a => ⟨fun hb => exec_bufRead_noBuffer (BufId.ofNumber_none hb) a s, fun id size mem hrow => ?_⟩
  obtain ⟨hb, rfl, rfl⟩ := bufferTable_row hrow
  exact ⟨exec_bufRead_outside hb, exec_bufRead_unwritten hb, fun x => exec_bufRead_written hb⟩

/-! ### BUF_WRITE -/

theorem exec_bufWrite_noBuffer {b : Byte} (hb : BufId.ofNumber b = none) (a : U32) (x : Byte) (s : State) :
    exec (.bufWrite b a x) s = .next s := by
  simp only [exec, execBufWrite, hb]

section Write
variable {s : State} {b : Byte} {a : U32} {id : BufId} (hb : BufId.ofNumber b = some id) (x : Byte)
include hb

theorem exec_bufWrite_outside (h : id.size s.cfg ≤ a.toNat) : exec (.bufWrite b a x) s = .next s := by
  simp only [exec, execBufWrite, hb]
  exact if_pos h

theorem exec_bufWrite_inside (h : a.toNat < id.size s.cfg) :
    exec (.bufWrite b a x) s = .next (s.setBuf id ((s.buf id).write a.toNat x)) := by
  simp only [exec, execBufWrite, hb]
  exact if_neg (Nat.not_le.mpr h)

end Write

/-- A byte after one byte of one buffer is written. -/
theorem State.byte?_setBuf_write (s : State) (id c : BufId) (a y : Nat) (x : Byte) :
    (s.setBuf id ((s.buf id).write a x)).byte? c y = if c = id ∧ y = a then some x else s.byte? c y := by
  rw [State.byte?_setBuf, Memory.read?_write]
  by_cases hc : c = id
  · subst hc
    by_cases hy : y = a <;> simp [hy, State.byte?]
  · simp [hc]

/-- Settles O13, id by id and address by address. -/
theorem bufWriteWritesOneByte : Obligations.BufWriteWritesOneByte := by
  unfold Obligations.BufWriteWritesOneByte
  refine fun s b a x => ⟨fun hb => exec_bufWrite_noBuffer (BufId.ofNumber_none hb) a x s, fun id size mem hrow => ?_⟩
  obtain ⟨hb, rfl, rfl⟩ := bufferTable_row hrow
  refine ⟨exec_bufWrite_outside hb x, fun h => ⟨_, exec_bufWrite_inside hb x h, ?_, fun c y hcy => ?_, ?_, ?_, ?_⟩⟩
  · rw [State.byte?_setBuf_write, if_pos ⟨rfl, rfl⟩]
  · rw [State.byte?_setBuf_write, if_neg hcy]
  all_goals
    rintro rfl
    rfl

end Sys2Proof.Machine
end

section
/-! What a step fetches (45_host_port.md R220; 44_pipeline.md R202, R205; 42_option_chain.md R160): for each source of instructions, the step is the instruction that stands there. -/

namespace Sys2Proof.Machine

open Sys2Proof.Statement

/-- A step that takes an event runs the instruction which the event fetches. -/
theorem step_runs {s t : State} {e : Event} {rest : List Event} {i : Instr} (hn : nextEvent s e rest)
    (hf : fetchEvent e { s with inputs := rest } = .run i t) : step s = exec i t := by
  obtain ⟨hs, hi⟩ := hn
  rw [step_event hs hi, hf]

theorem fetchEvent_txn {s : State} {who : Agent} {bytes : Bytes} {i : Instr} (hm : s.mayIssue who = true)
    (hd : decodeTxn bytes = .ok i) : fetchEvent (.txn who bytes) s = .run i { s with issuer := who.thread } := by
  simp only [fetchEvent, hm, hd, if_true]

theorem fetchEvent_verdict {s : State} {l : Layer} (v : Verdict) (hl : s.handling = some l) (hw : s.workerHeld = false) :
    fetchEvent (.verdict v) s = endHandler v l s := by
  simp only [fetchEvent, hl, hw]
  rfl

theorem endHandler_eth {s : State} {i : Instr} (hd : decodeEtype s.seqr.sel = .ok i) :
    endHandler .cont .eth s = .run i s := by
  simp only [endHandler, hd]

theorem endHandler_ip {s : State} {i : Instr} (hd : decodeIpproto s.seqr.sel = .ok i) :
    endHandler .cont .ip s = .run i s := by
  simp only [endHandler, hd]

theorem fetchEvent_resume {s : State} {th : Thread} (hh : s.held th = true) (hroom : txqHasRoom s) :
    fetchEvent (.resume th) s = .run .txEnqueue (s.release th) :=
  if_pos (Bool.and_eq_true_iff.mpr ⟨hh, s.txRoom_iff.mpr hroom⟩)

/-- The record at the head of an area is run; an area that is used up has none. -/
theorem fetch_record {s : State} {A : Bytes} {c : List TcpOption} {i : Instr} (hs : s.scan = .scanning A c)
    (hd : decodeOption A = .ok i) : fetch s = .run i s := by
  cases A with
  | nil => cases hd
  | cons b r => simp only [fetch, hs, hd]

/-- Settles O7, one source of instructions after the other. -/
theorem stepRunsTheFetchedInstruction : Obligations.StepRunsTheFetchedInstruction := by
  unfold Obligations.StepRunsTheFetchedInstruction
  refine ⟨fun s who bytes rest i hn hm hd => step_runs hn ?_, fun s rest i hn hl hw hd => step_runs hn ?_,
    fun s rest i hn hl hw hd => step_runs hn ?_, fun s A c i hs hd => ?_,
    fun s rest hn hh hroom => step_runs hn (fetchEvent_resume (th := .host) hh hroom),
    fun s rest hn hh hroom => step_runs hn (fetchEvent_resume (th := .worker) hh hroom)⟩
  · have hm' : State.mayIssue { s with inputs := rest } who = true := by cases who <;> exact hm
    exact fetchEvent_txn hm' hd
  · exact (fetchEvent_verdict (s := { s with inputs := rest }) .cont hl hw).trans (endHandler_eth hd)
  · exact (fetchEvent_verdict (s := { s with inputs := rest }) .cont hl hw).trans (endHandler_ip hd)
  · rw [step, fetch_record hs hd]

end Sys2Proof.Machine
end

section
/-! Halting and the parameters along steps (60_exceptions.md R231; 44_pipeline.md R200, R209; 70_reset_and_hazards.md R250; 10_state.md R49): every step but a reset keeps FATAL and RUNNING once they are set, and every step keeps the parameters. -/

namespace Sys2Proof.Machine

/-- From s to t the parameters are the same, and FATAL and RUNNING, if set, stay so. -/
structure HaltKept (s t : State) : Prop where
  cfg : t.cfg = s.cfg
  fatal : s.status.fatal = true → t.status.fatal = true
  running : s.sq.running = true → t.sq.running = true

/-- From s to t the parameters, FATAL and RUNNING are the same. -/
structure HaltSame (s t : State) : Prop where
  cfg : t.cfg = s.cfg
  fatal : t.status.fatal = s.status.fatal
  running : t.sq.running = s.sq.running

theorem HaltSame.kept {s t : State} (h : HaltSame s t) : HaltKept s t := ⟨h.cfg, h.fatal.trans, h.running.trans⟩

/-- An event has been taken from the waiting inputs before its move is made. -/
theorem HaltSame.of_inputs {s t : State} {rest : List Event} (h : HaltSame { s with inputs := rest } t) : HaltSame s t :=
  ⟨h.cfg, h.fatal, h.running⟩

/-- An instruction is run on a state that differs in the waiting inputs and the issuer. -/
theorem InstrKept.haltKept {s t : State} {rest : List Event} {th : Thread}
    (h : InstrKept { s with inputs := rest, issuer := th } t) : HaltKept s t :=
  ⟨h.cfg, h.fatal, h.running⟩

/-- A held TX_ENQUEUE is run on a state whose hold has ended. -/
theorem InstrKept.haltKept_release {s t : State} {rest : List Event} {th : Thread}
    (h : InstrKept (State.release { s with inputs := rest } th) t) : HaltKept s t where
  cfg := h.cfg.trans (State.release_cfg _ th)
  fatal hf := h.fatal ((congrArg Status.fatal (State.release_status _ th)).trans hf)
  running hr := h.running ((congrArg SqRegs.running (State.release_sq _ th)).trans hr)

theorem dequeueFrame_haltSame (F : Frame) (rest : List Frame) (s : State) : HaltSame s (dequeueFrame F rest s) := by
  unfold dequeueFrame
  split <;> exact ⟨rfl, rfl, rfl⟩

/-- SEQ neither halts the block nor stops itself (44_pipeline.md R207, R209). -/
theorem seqStep_haltSame {s t : State} (h : seqStep s = .next t) : HaltSame s t := by
  rcases seqStep_next h with rfl | ⟨-, -, -, F, rest, -, rfl⟩ | ⟨-, -, l, -, h⟩
  · exact ⟨rfl, rfl, rfl⟩
  · exact dequeueFrame_haltSame F rest s
  · have hk := parseLayer_kept h
    exact ⟨hk.cfg, hk.fatal, hk.running⟩

theorem State.rxArrive_haltSame (s : State) (F : Frame) : HaltSame s (s.rxArrive F) := by
  obtain ⟨-, h⟩ | h := s.rxArrive_cases F <;> rw [h] <;> exact ⟨rfl, rfl, rfl⟩

theorem State.txPutOther_haltSame (s : State) (F : Frame) : HaltSame s (s.txPutOther F) := by
  obtain ⟨-, h⟩ | h := s.txPutOther_cases F <;> rw [h] <;> exact ⟨rfl, rfl, rfl⟩

/-- Every step is a reset, which keeps the parameters, or keeps FATAL and RUNNING too. -/
theorem step_haltKept {s t : State} (h : step s = .next t) : HaltKept s t ∨ (s.ResetNext ∧ t.cfg = s.cfg) := by
  cases step_moved h with
  | reset rest hs hi ht => exact .inr ⟨⟨hs, congrArg List.head? hi⟩, ht ▸ rfl⟩
  | scanRecord A c i hs hA hd he => exact .inl (exec_kept he).haltKept
  | txn who bytes rest i hs hi hm hd he => exact .inl (exec_kept he).haltKept
  | selector rest l i hs hi hl hw hd he => exact .inl (exec_kept he).haltKept
  | resume th rest hs hi hh hroom he => exact .inl (exec_kept he).haltKept_release
  | seqEvent rest hs hi he => exact .inl (seqStep_haltSame he).of_inputs.kept
  | seqOwn hs hi he => exact .inl (seqStep_haltSame he).kept
  | rxArrive F rest hs hi ht => exact .inl (ht ▸ (State.rxArrive_haltSame _ F).of_inputs.kept)
  | txPutOther F rest hs hi ht => exact .inl (ht ▸ (State.txPutOther_haltSame _ F).of_inputs.kept)
  | scanEnd c hs ht => rw [ht]; exact .inl ⟨rfl, id, id⟩
  | scanFail A c hs ht => rw [ht]; exact .inl ⟨rfl, id, id⟩
  | scanRaise hs ht => rw [ht]; exact .inl ⟨rfl, id, id⟩
  | handlerEnd rest v l hs hi hl hw ht => rw [ht]; exact .inl ⟨rfl, id, id⟩
  | txTake rest hs hi ht => rw [ht]; exact .inl ⟨rfl, id, id⟩
  | rxTakeOther rest hs hi ht => rw [ht]; exact .inl ⟨rfl, id, id⟩
  | resolve addr answer rest hs hi ht => rw [ht]; exact .inl ⟨rfl, id, id⟩
  | arpcStore cache rest hs hi ht => rw [ht]; exact .inl ⟨rfl, id, id⟩
  | pass e rest hs hi ht => rw [ht]; exact .inl ⟨rfl, id, id⟩

/-- Settles O18: a step keeps FATAL and RUNNING unless it is the reset event, and the parameters always. -/
theorem onlyResetClearsFatalAndLeavesRunning : Obligations.OnlyResetClearsFatalAndLeavesRunning := by
  unfold Obligations.OnlyResetClearsFatalAndLeavesRunning
  intro s t h
  rcases step_haltKept h with hk | ⟨hreset, hcfg⟩
  · exact ⟨fun hf _ => hk.fatal hf, fun hr _ => hk.running hr, hk.cfg⟩
  · exact ⟨fun _ hn => absurd hreset hn, fun _ hn => absurd hreset hn, hcfg⟩

end Sys2Proof.Machine
end

section
/-! How a command ends (60_exceptions.md R230 to R232): refused by a halted block, with one of the codes listed against it and nothing else written, with EIV, completed, or, TX_ENQUEUE alone, held. Said once for all commands; the statements about codes and FATAL are read off it. -/

namespace Sys2Proof.Machine

open Sys2Proof.Statement

/-- The ways a command that answers a next state ends. -/
inductive CommandEnd (i : Instr) (s t : State) : Prop where
  | halted (hf : s.status.fatal = true) (ht : t = s.setErr .fatalHalted)
  | code (e : Err) (he : e ∈ codesOf i) (hne : e ≠ .eiv) (hf : s.status.fatal = false) (ht : t = s.setErr e)
  | eiv (he : .eiv ∈ codesOf i) (h : RaisedEiv s t)
  | completed (herr : t.status.err = .none) (hf : t.status.fatal = s.status.fatal)
  | held (hi : i = .txEnqueue) (hroom : s.txRoom = false) (hfull : s.cfg.txqFull = .hold) (hf : s.status.fatal = false)
      (ht : t = s.markHeld)

/-- Raising is one of the ends where the table lists the codes. -/
theorem Raised.commandEnd {codes : List Err} {i : Instr} {s t : State} (h : Raised codes s t)
    (hc : ∀ e ∈ codes, e ∈ codesOf i ∧ e ≠ .eiv := by simp [codesOf]) : CommandEnd i s t := by
  rcases h with ⟨hf, ht⟩ | ⟨hf, e, he, ht⟩
  · exact .halted hf ht
  · obtain ⟨hmem, hne⟩ := hc e he
    exact .code e hmem hne hf ht

/-- The encode commands: EIV is listed against them. -/
theorem RaisedEiv.commandEnd {i : Instr} {s t : State} (h : RaisedEiv s t)
    (hc : .eiv ∈ codesOf i := by simp [codesOf]) : CommandEnd i s t := .eiv hc h

theorem command_end {i : Instr} {s t : State} (hc : command i) (h : exec i s = .next t) : CommandEnd i s t := by
  cases i with
  | segDecode =>
    obtain h | ⟨-, W, hl, c, -, -, rfl⟩ := execSegDecode_next h
    exacts [h.commandEnd, .completed rfl rfl]
  | segEncode =>
    obtain h | h | ⟨-, O, P, E, -, -, -, -, rfl⟩ := execSegEncode_next h
    exacts [h.commandEnd, h.commandEnd, .completed rfl rfl]
  | segChecksum =>
    obtain h | h | ⟨-, O, P, c, -, -, -, -, rfl⟩ := execSegChecksum_next h
    exacts [h.commandEnd, h.commandEnd, .completed rfl rfl]
  | segGetRaw =>
    obtain h | h | ⟨-, O, P, c, E, -, -, -, -, -, rfl⟩ := execSegGetRaw_next h
    exacts [h.commandEnd, h.commandEnd, .completed rfl rfl]
  | csumVerifyTcp =>
    obtain h | ⟨-, W, c, ok, -, -, rfl⟩ := execCsumVerifyTcp_next h
    exacts [h.commandEnd, .completed rfl rfl]
  | csumVerifyUdp =>
    obtain h | ⟨-, W, c, ok, -, -, rfl⟩ := execCsumVerifyUdp_next h
    exacts [h.commandEnd, .completed rfl rfl]
  | csumVerifyIcmp =>
    obtain h | ⟨-, W, c, ok, -, -, rfl⟩ := execCsumVerifyIcmp_next h
    exacts [h.commandEnd, .completed rfl rfl]
  | csumVerifyIp4 =>
    obtain h | ⟨-, W, c, ok, -, -, rfl⟩ := execCsumVerifyIp4_next h
    exacts [h.commandEnd, .completed rfl rfl]
  | segFindOption kind =>
    obtain h | ⟨-, rfl⟩ := execSegFindOption_next h
    exacts [h.commandEnd, .completed rfl rfl]
  | optDecode =>
    obtain h | ⟨-, W, c, -, -, -, rfl⟩ := execOptDecode_next h
    exacts [h.commandEnd, .completed rfl rfl]
  | optEncode slot =>
    obtain h | h | ⟨-, -, B, -, rfl⟩ := execOptEncode_next h
    exacts [h.commandEnd, h.commandEnd, .completed rfl rfl]
  | segNew link =>
    obtain h | ⟨-, rfl⟩ := execSegNew_next h
    exacts [h.commandEnd, .completed rfl rfl]
  | ethParse =>
    obtain h | ⟨-, W, -, -, rfl⟩ := execEthParse_next h
    exacts [h.commandEnd, .completed rfl rfl]
  | arpParse =>
    obtain h | ⟨-, W, -, -, -, rfl⟩ := execArpParse_next h
    exacts [h.commandEnd, .completed rfl rfl]
  | ip4Parse =>
    obtain h | ⟨-, W, hl, -, -, rfl⟩ := execIp4Parse_next h
    exacts [h.commandEnd, .completed rfl rfl]
  | icmp4Parse =>
    obtain h | ⟨-, W, -, -, rfl⟩ := execIcmp4Parse_next h
    exacts [h.commandEnd, .completed rfl rfl]
  | udpParse =>
    obtain h | ⟨-, W, -, -, -, rfl⟩ := execUdpParse_next h
    exacts [h.commandEnd, .completed rfl rfl]
  | txEnqueue =>
    obtain h | ⟨-, -, F, -, -, rfl⟩ | ⟨hf, hroom, hfull, rfl⟩ | ⟨-, -, -, rfl⟩ := execTxEnqueue_next h
    exacts [h.commandEnd, .completed rfl rfl, .held rfl hroom hfull hf rfl, .completed rfl rfl]
  | sqStart =>
    obtain h | ⟨-, -, rfl⟩ := execSqStart_next h
    exacts [h.commandEnd, .completed rfl rfl]
  | _ => cases hc

/-- The table lists EIV against the encode commands only. -/
theorem encode_of_eiv_mem_codesOf {i : Instr} (h : .eiv ∈ codesOf i) :
    i = .segEncode ∨ i = .segChecksum ∨ i = .segGetRaw ∨ ∃ n, i = .optEncode n := by
  cases i with
  | segEncode => exact .inl rfl
  | segChecksum => exact .inr (.inl rfl)
  | segGetRaw => exact .inr (.inr (.inl rfl))
  | optEncode n => exact .inr (.inr (.inr ⟨n, rfl⟩))
  | _ => simp [codesOf] at h

/-! ### The statements -/

/-- Settles O6: a write of CMD and a command are both issued behind the check for FATAL. -/
theorem haltedBlockRefusesEveryCommand : Obligations.HaltedBlockRefusesEveryCommand := by
  unfold Obligations.HaltedBlockRefusesEveryCommand
  exact fun s hf => ⟨fun w => (exec_writeCmd w s).trans (issued_halted hf), fun i hc => exec_halted hc hf⟩

/-- Settles O14: of the ends only a raised code leaves ERR other than NONE, and EIV alone sets FATAL. -/
theorem raisingCommandWritesOnlyStatus : Obligations.RaisingCommandWritesOnlyStatus := by
  unfold Obligations.RaisingCommandWritesOnlyStatus
  intro i s t hc htx h herr
  cases command_end hc h with
  | halted hf ht => simp [ht, State.setErr, hf]
  | code e he hne hf ht => simp [ht, State.setErr, hne]
  | eiv he h => obtain ⟨-, ht⟩ := h; simp [ht]
  | completed hnone hf => exact absurd hnone herr
  | held hi hroom hfull hf ht => exact absurd hi htx

/-- Settles O15: a TX_ENQUEUE that finds room, drops or is halted is not held. -/
theorem commandRaisesOnlyItsListedCodes : Obligations.CommandRaisesOnlyItsListedCodes := by
  unfold Obligations.CommandRaisesOnlyItsListedCodes
  intro i s t hc h hends
  cases command_end hc h with
  | halted hf ht => exact .inr (.inl ⟨ht ▸ rfl, hf⟩)
  | code e he hne hf ht => exact .inr (.inr (ht ▸ he))
  | eiv he h => exact .inr (.inr (h.2 ▸ he))
  | completed hnone hf => exact .inl hnone
  | held hi hroom hfull hf ht => exact absurd (hends hi) (by simp [hroom, hfull, hf])

/-- Settles O16: of the ends only EIV sets FATAL, and SEQ leaves it. -/
theorem onlyEncodingCommandsSetFatal : Obligations.OnlyEncodingCommandsSetFatal := by
  unfold Obligations.OnlyEncodingCommandsSetFatal
  refine ⟨fun i s t hc h hs ht => ?_, fun s t h => (seqStep_haltSame h).fatal⟩
  have unchanged : t.status.fatal ≠ s.status.fatal := by rw [hs, ht]; decide
  cases command_end hc h with
  | eiv he h => exact ⟨h.2 ▸ rfl, encode_of_eiv_mem_codesOf he⟩
  | halted hf hu => exact absurd (hu ▸ rfl) unchanged
  | code e he hne hf hu => exact absurd (hu ▸ rfl) unchanged
  | completed hnone hf => exact absurd hf unchanged
  | held hi hroom hfull hf hu => exact absurd (hu ▸ congrArg Status.fatal s.markHeld_status) unchanged

end Sys2Proof.Machine
end

section
/-! Reset (70_reset_and_hazards.md R250, R251, R253): the step of the reset event, the invariant of the reset state, and what a host reads of every register after reset. -/

namespace Sys2Proof.Machine

open Sys2Proof.Statement

/-! ### The reset event -/

/-- Reset needs no enabling: neither FATAL nor a held command delays it. -/
theorem step_reset {s : State} {rest : List Event} (hn : nextEvent s .reset rest) :
    step s = .next (State.resetFrom { s with inputs := rest }) := by
  obtain ⟨hs, hi⟩ := hn
  exact step_event hs hi

/-- Settles O58: the event's step is `State.resetFrom`, which keeps what lies outside the block. -/
theorem resetEventRestoresTheBlock : Obligations.ResetEventRestoresTheBlock := by
  unfold Obligations.ResetEventRestoresTheBlock
  exact fun s rest hn => step_reset hn

/-! ### The reset state -/

theorem State.reset_inv : State.reset.Inv where
  cfg := by decide
  buffers := ⟨Memory.ok_nil _, Memory.ok_nil _, Memory.ok_nil _⟩
  ranges := ⟨Nat.zero_le _, Nat.zero_le _, Nat.zero_le _, Nat.zero_le _, Nat.zero_le _, Nat.zero_le _⟩
  slots := ⟨rfl, fun o ho => by rw [List.eq_of_mem_replicate ho]; rfl, nofun⟩
  queues := ⟨nofun, nofun⟩
  sequencer := ⟨rfl, fun _ => rfl, nofun⟩
  windows := ⟨Nat.zero_le _, Nat.zero_le _, Nat.zero_le _⟩
  scan := trivial

/-- No buffer byte is written (10_state.md R50). -/
theorem State.byte?_reset (b : BufId) (a : Nat) : State.reset.byte? b a = none := by
  cases b <;> exact Memory.read?_nil a

/-- Of the rows of the table only HLEN (0x14) and FOPT (0x1E) have a reset value other than 0. -/
theorem registerTable_reset_zero :
    ∀ p ∈ registerTable State.reset, p.1 ≠ 0x14 → p.1 ≠ 0x1E → p.2 = .num 0 := by decide

/-- A number is in the table or reserved, and a reserved number reads 0 (R22). -/
theorem regValue_reset_zero {n : Byte} (hlen : n ≠ 0x14) (fopt : n ≠ 0x1E) (hslot : noSlot n) :
    regValue n State.reset = .num 0 := by
  by_cases hn : n ∈ registerNumbers
  · obtain ⟨p, hp, rfl⟩ := List.mem_map.mp hn
    exact (regValue_of_mem_registerTable p hp).trans (registerTable_reset_zero p hp hlen fopt)
  · rw [regValue, Reg.ofNumber_reserved hn hslot]

/-- Every slot holds EOL (R33). -/
theorem regValue_reset_slot (i : Fin 40) : regValue (slotNumber i) State.reset = .opt .eol := by
  have hi : i.val < (List.replicate 40 TcpOption.eol).length := i.isLt
  rw [regValue_of (Reg.ofNumber_slotNumber i), Reg.read, State.reset, List.getD_eq_getElem _ _ hi,
    List.getElem_replicate]

/-- Settles O59: the fields are those of `State.reset`; invariant, buffers and reads by the lemmas above. -/
theorem resetStateHoldsItsValues : Obligations.ResetStateHoldsItsValues := by
  unfold Obligations.ResetStateHoldsItsValues
  exact ⟨State.reset_inv, rfl, rfl, rfl, rfl, rfl, rfl, rfl, rfl, rfl, rfl, rfl, rfl, rfl, rfl, rfl, rfl, rfl, rfl, rfl,
    State.byte?_reset, fun n => regValue_reset_zero, rfl, rfl, regValue_reset_slot⟩

end Sys2Proof.Machine
end
